-- ==== Sys2Proof/Word.lean ====
section
/-! DEFINITION. The data types the engine's values have: 32-bit words (spec/00_scope.md R7), bytes (symbols and
packed bytes, 00_scope.md section 6) and bit strings (00_scope.md R8). No value of the engine is signed. -/

namespace Sys2Proof

/-- A register value, a data word or a command word: 32 bits, unsigned (R7; REG_WIDTH of R6). -/
abbrev Word := BitVec 32

/-- A symbol, a packed payload byte, a FIFO byte or a byte offset into the window (R6 SYMBOLS, R50). -/
abbrev Byte := BitVec 8

/-- A bit string (R8): a finite sequence of bits, the first bit first. `[]` is the empty string, `++` is
concatenation, `length` is `len`, and `p <+: c` is the spec's `prefix(p, c)`. -/
abbrev Bits := List Bool

end Sys2Proof
end

