-- ==== Sys2Proof/Config.lean ====
section
/-! DEFINITION. What an implementation fixes: the parameters of spec/00_scope.md R6, the identity value of
10_state.md R24, and the one parameter the spec leaves open, the host's HOST_BITCOUNT_LIMIT_ERROR
(49_host_reference.md R179, 92_eei_decisions.md D40). -/

namespace Sys2Proof

/-- The parameter of an instance of the engine (R6). OUT_DEPTH is the only one a model may take as an argument:
its value on this hardware is 64 and any value in 33..127 is allowed (93_implementation_defined.md I1). It stands in
`Machine.State` as plain data that no operation writes. -/
structure Config where
  /-- OUT_DEPTH: the capacity of the output FIFO, in bytes (R6). -/
  outDepth : Nat
  deriving DecidableEq, Repr

/-- R6: the range the spec allows for OUT_DEPTH. -/
abbrev Config.InRange (c : Config) : Prop := 33 ≤ c.outDepth ∧ c.outDepth ≤ 127

/-- R6: the value this hardware takes. -/
def Config.hbce : Config := { outDepth := 64 }

/-- R6 CODE_LEN_MAX: the longest codeword the table holds, in bits. -/
def Config.codeLenMax : Nat := 255

/-- R6 CURSOR_MAX: the longest partial codeword the decoder can hold. -/
def Config.cursorMax : Nat := 254

/-- R6 ENC_ROOM: the free FIFO bytes needed before an encode data write is accepted. -/
def Config.encRoom : Nat := 33

/-- R6 DEC_ROOM: the free FIFO bytes needed before a decode data write is accepted. -/
def Config.decRoom : Nat := 8

/-- R24: the constant the ID register reads. -/
def Config.idValue : Word := 0x48554601#32

/-- The five error kinds of the host reference (49_host_reference.md; 60_exceptions.md, introduction). The engine
raises none of them (60_exceptions.md R201). -/
inductive HostError where
  | emptyInputError
  | missingCodeError
  | malformedStreamError
  | ioError
  | ambiguousOutputPathError
  deriving DecidableEq, Repr, Inhabited

/-- HOST_BITCOUNT_LIMIT_ERROR (R179, D40, 93 I12): the error kind the host reports for an input whose payload exceeds
2^31 - 1 bits. The spec leaves it OPEN, so it has no body: nothing in Lean can prove which kind it is. -/
opaque Config.hostBitcountLimitError : HostError

end Sys2Proof
end

