-- ==== Sys2Proof/Syntax.lean ====
section
/-! DEFINITION. The engine's operations as syntax: one constructor of `Instr` for each row of spec/opcode_table.json
(30_encoding.md R71, R78), the registers of the window (10_state.md section 3), the host's bus accesses
(00_scope.md R10, 20_memory.md R50, R51) and the reasons the decoder gives for rejecting one. -/

namespace Sys2Proof

/-- The engine mode MODE (10_state.md R22). The 2-bit value 3 is never held: it is no value of this type. -/
inductive Mode where
  | idle
  | enc
  | dec
  deriving DecidableEq, Repr

/-- The registers of the 256-byte window (10_state.md section 3). -/
inductive Reg where
  | id
  | ctrl
  | status
  | cmd
  | dataIn
  | dataOut
  | decBits
  | bitcnt
  | symcnt
  | decRem
  | tblCount
  | tblInfo
  | cursor
  | errInfo
  /-- CW0..CW7 at 0x40 + 4k. -/
  | cw (k : Fin 8)
  /-- A reserved word (R45), by its word address offset[7:2]. -/
  | reserved (word : BitVec 6)
  deriving DecidableEq, Repr

/-- The operations: the nine commands of 30_encoding.md R71 and the nine register-access operations of R78. A data
write or register write carries the whole 32-bit word written. -/
inductive Instr where
  | nop
  | abort
  | tblClear
  | tblAdd (sym len : Byte)
  | tblRead (sym : Byte)
  | encStart
  | encFlush
  | decStart
  | decFinish
  | encByte (v : Word)
  | decByte (v : Word)
  | dinIdle (v : Word)
  | outPop
  | ctrlWr (v : Word)
  | decBitsWr (v : Word)
  | cwWr (k : Fin 8) (v : Word)
  | regRd (r : Reg)
  | regWi (r : Reg) (v : Word)
  deriving DecidableEq, Repr

/-- One host access to the window: `MemRead(off, size)` or `MemWrite(off, size, v)` (00_scope.md R9, R10), with the
size in bytes. Only size 4 at an offset that is a multiple of 4 is inside the interface (20_memory.md R51). -/
inductive Access where
  | read (off : Byte) (size : Nat)
  | write (off : Byte) (size : Nat) (v : Word)
  deriving DecidableEq, Repr

/-- The byte offset an access names. -/
def Access.off : Access → Byte
  | .read off _ => off
  | .write off _ _ => off

/-- The number of bytes an access is wide. -/
def Access.size : Access → Nat
  | .read _ size => size
  | .write _ size _ => size

/-- Why the decoder gives no operation for an access. -/
inductive DecodeReject where
  /-- An access narrower or wider than 32 bits (20_memory.md R51; 93 I3). -/
  | accessSize
  /-- An offset that is not a multiple of 4 (20_memory.md R51; 93 I3). -/
  | misaligned
  /-- A word written to CMD that is none of the nine commands (30_encoding.md R73). The engine raises BAD_CMD. -/
  | illegalCommand (w : Word)
  deriving DecidableEq, Repr

end Sys2Proof
end

