-- ==== Sys2Proof/WellFormed.lean ====
section
/-! DEFINITION. Which terms of `Instr` are operations of the spec. Every operand of a command is a byte and every value
is admitted (30_encoding.md R72, R76), so only the two register-access rows whose register is an operand need a check:
REG_RD reads any register but DATA_OUT, and REG_WI writes an RO or a reserved one (R78, 43_control.md R157, R158). -/

namespace Sys2Proof

/-- 10_state.md R45: the reserved words, at offsets 0x38, 0x3C and 0x60..0xFC. -/
def reservedWord (w : BitVec 6) : Bool := w == 0x0E#6 || w == 0x0F#6 || decide (0x18#6 ≤ w)

/-- A register term names one place of the window: a reserved one names a reserved word. -/
def Reg.wellFormed : Reg → Bool
  | .reserved w => reservedWord w
  | .id | .ctrl | .status | .cmd | .dataIn | .dataOut | .decBits | .bitcnt | .symcnt | .decRem | .tblCount
  | .tblInfo | .cursor | .errInfo | .cw _ => true

/-- 10_state.md R45, 43_control.md R158: the registers a write to which is ignored (RO and reserved). -/
def Reg.writeIgnored : Reg → Bool
  | .id | .status | .dataOut | .bitcnt | .symcnt | .decRem | .tblCount | .tblInfo | .cursor | .errInfo
  | .reserved _ => true
  | .ctrl | .cmd | .dataIn | .decBits | .cw _ => false

/-- The operations of the spec, as terms. -/
def Instr.wellFormed : Instr → Bool
  | .regRd r => r.wellFormed && r != .dataOut
  | .regWi r _ => r.wellFormed && r.writeIgnored
  | .nop | .abort | .tblClear | .tblAdd _ _ | .tblRead _ | .encStart | .encFlush | .decStart | .decFinish
  | .encByte _ | .decByte _ | .dinIdle _ | .outPop | .ctrlWr _ | .decBitsWr _ | .cwWr _ _ => true

/-- The mode that selects the row (30_encoding.md R78, column "condition"): a write of DATA_IN is ENC_BYTE, DEC_BYTE or
DIN_IDLE by MODE. No other access depends on the mode (R77). -/
def Instr.selectedIn (m : Mode) : Instr → Bool
  | .encByte _ => m == .enc
  | .decByte _ => m == .dec
  | .dinIdle _ => m == .idle
  | .nop | .abort | .tblClear | .tblAdd _ _ | .tblRead _ | .encStart | .encFlush | .decStart | .decFinish
  | .outPop | .ctrlWr _ | .decBitsWr _ | .cwWr _ _ | .regRd _ | .regWi _ _ => true

end Sys2Proof
end

