-- ==== Sys2Proof/Decode.lean ====
section
/-! DEFINITION. Decoding a host access to an operation, total on every access and rejecting by name
(30_encoding.md R70..R78, 20_memory.md R51), and the encoder written from the same tables (R72, R79). -/

namespace Sys2Proof

/-- A field of a register or command word: `x` placed with its bit 0 at bit `lo` (00_scope.md R7, `zext_32(x) << lo`). -/
def field {n : Nat} (lo : Nat) (x : BitVec n) : Word := x.setWidth 32 <<< lo

/-! ### Command words (R70..R73) -/

/-- R70: OPC = w[7:0]. -/
def cmdOpc (w : Word) : Byte := w.extractLsb' 0 8

/-- R70, R76: SYM = w[15:8], unsigned. -/
def cmdSym (w : Word) : Byte := w.extractLsb' 8 8

/-- R70, R76: LEN = w[23:16], unsigned. -/
def cmdLen (w : Word) : Byte := w.extractLsb' 16 8

/-- R70: RSV = w[31:24]. -/
def cmdRsv (w : Word) : Byte := w.extractLsb' 24 8

/-- R73 `decode_cmd`, `none` being ILLEGAL. -/
def decodeCmd (w : Word) : Option Instr :=
  if cmdRsv w ≠ 0 then none
  else if cmdOpc w = 0x11#8 then some (.tblAdd (cmdSym w) (cmdLen w))
  else if cmdOpc w = 0x12#8 ∧ cmdLen w = 0 then some (.tblRead (cmdSym w))
  else if cmdSym w = 0 ∧ cmdLen w = 0 then
    if cmdOpc w = 0x00#8 then some .nop
    else if cmdOpc w = 0x01#8 then some .abort
    else if cmdOpc w = 0x10#8 then some .tblClear
    else if cmdOpc w = 0x20#8 then some .encStart
    else if cmdOpc w = 0x21#8 then some .encFlush
    else if cmdOpc w = 0x30#8 then some .decStart
    else if cmdOpc w = 0x31#8 then some .decFinish
    else none
  else none

/-! ### The register window (10_state.md section 3) -/

/-- The register at a word address offset[7:2]. -/
def regOfWord (w : BitVec 6) : Reg :=
  match w.toNat with
  | 0x00 => .id
  | 0x01 => .ctrl
  | 0x02 => .status
  | 0x03 => .cmd
  | 0x04 => .dataIn
  | 0x05 => .dataOut
  | 0x06 => .decBits
  | 0x07 => .bitcnt
  | 0x08 => .symcnt
  | 0x09 => .decRem
  | 0x0A => .tblCount
  | 0x0B => .tblInfo
  | 0x0C => .cursor
  | 0x0D => .errInfo
  | n => if h : 0x10 ≤ n ∧ n < 0x18 then .cw ⟨n - 0x10, by omega⟩ else .reserved w

/-- The register at a byte offset that is a multiple of 4. -/
def regOfOffset (off : Byte) : Reg := regOfWord (off.extractLsb' 2 6)

/-- The word address offset[7:2] of a register. -/
def regWord : Reg → BitVec 6
  | .id => 0x00#6
  | .ctrl => 0x01#6
  | .status => 0x02#6
  | .cmd => 0x03#6
  | .dataIn => 0x04#6
  | .dataOut => 0x05#6
  | .decBits => 0x06#6
  | .bitcnt => 0x07#6
  | .symcnt => 0x08#6
  | .decRem => 0x09#6
  | .tblCount => 0x0A#6
  | .tblInfo => 0x0B#6
  | .cursor => 0x0C#6
  | .errInfo => 0x0D#6
  | .cw k => 0x10#6 + BitVec.ofNat 6 k.val
  | .reserved w => w

/-- The byte offset of a register. -/
def regOffset (r : Reg) : Byte := (regWord r).setWidth 8 <<< 2

/-! ### Accesses (R51, R78) -/

/-- R78: a read of DATA_OUT is OUT_POP, a read of any other register is REG_RD. -/
def decodeRead (r : Reg) : Instr :=
  match r with
  | .dataOut => .outPop
  | .id | .ctrl | .status | .cmd | .dataIn | .decBits | .bitcnt | .symcnt | .decRem | .tblCount | .tblInfo
  | .cursor | .errInfo | .cw _ | .reserved _ => .regRd r

/-- R78, R152, R159: a write by its register; a data write by the mode. -/
def decodeWrite (m : Mode) (r : Reg) (v : Word) : Except DecodeReject Instr :=
  match r with
  | .cmd =>
    match decodeCmd v with
    | some i => .ok i
    | none => .error (.illegalCommand v)
  | .dataIn =>
    match m with
    | .idle => .ok (.dinIdle v)
    | .enc => .ok (.encByte v)
    | .dec => .ok (.decByte v)
  | .ctrl => .ok (.ctrlWr v)
  | .decBits => .ok (.decBitsWr v)
  | .cw k => .ok (.cwWr k v)
  | .id | .status | .dataOut | .bitcnt | .symcnt | .decRem | .tblCount | .tblInfo | .cursor | .errInfo
  | .reserved _ => .ok (.regWi r v)

/-- The operation a host access is, when the engine is in mode `m`. Total: an access outside the interface (R51) and an
illegal command word (R73) are rejected by name. -/
def decode (m : Mode) (a : Access) : Except DecodeReject Instr :=
  if a.size ≠ 4 then .error .accessSize
  else if a.off.extractLsb' 0 2 ≠ 0#2 then .error .misaligned
  else
    match a with
    | .read off _ => .ok (decodeRead (regOfOffset off))
    | .write off _ v => decodeWrite m (regOfOffset off) v

/-! ### The encoder (R72, R78, R79) -/

/-- R70, R79: the command word OPC | SYM << 8 | LEN << 16, RSV = 0. -/
def cmdFields (opc sym len : Byte) : Word := field 0 opc ||| field 8 sym ||| field 16 len

/-- R72, R79: the word written to CMD for a command. A register-access operation has none; 0 stands there. -/
def cmdWord : Instr → Word
  | .nop => cmdFields 0x00#8 0 0
  | .abort => cmdFields 0x01#8 0 0
  | .tblClear => cmdFields 0x10#8 0 0
  | .tblAdd sym len => cmdFields 0x11#8 sym len
  | .tblRead sym => cmdFields 0x12#8 sym 0
  | .encStart => cmdFields 0x20#8 0 0
  | .encFlush => cmdFields 0x21#8 0 0
  | .decStart => cmdFields 0x30#8 0 0
  | .decFinish => cmdFields 0x31#8 0 0
  | .encByte _ | .decByte _ | .dinIdle _ | .outPop | .ctrlWr _ | .decBitsWr _ | .cwWr _ _ | .regRd _
  | .regWi _ _ => 0

/-- `MemRead(offset of r, 4)`. -/
def readOf (r : Reg) : Access := .read (regOffset r) 4

/-- `MemWrite(offset of r, 4, v)`. -/
def writeOf (r : Reg) (v : Word) : Access := .write (regOffset r) 4 v

/-- The host access that performs an operation (R79). -/
def encode (i : Instr) : Access :=
  match i with
  | .nop | .abort | .tblClear | .tblAdd _ _ | .tblRead _ | .encStart | .encFlush | .decStart | .decFinish =>
    writeOf .cmd (cmdWord i)
  | .encByte v | .decByte v | .dinIdle v => writeOf .dataIn v
  | .outPop => readOf .dataOut
  | .ctrlWr v => writeOf .ctrl v
  | .decBitsWr v => writeOf .decBits v
  | .cwWr k v => writeOf (.cw k) v
  | .regRd r => readOf r
  | .regWi r v => writeOf r v

/-! ### The words of spec/opcode_table.json -/

/-- The access a row that fixes only an offset (8 bits, format MMIO) stands for. The table's word has no bit for the
direction or the data: a row of R78 that writes its register is that write, with data 0; DATA_OUT and the other
registers are read; a reserved word is written. -/
def tableOffsetAccess (off : Byte) : Access :=
  match regOfOffset off with
  | .dataIn | .ctrl | .decBits | .cw _ | .reserved _ => .write off 4 0
  | .id | .status | .cmd | .dataOut | .bitcnt | .symcnt | .decRem | .tblCount | .tblInfo | .cursor
  | .errInfo => .read off 4

/-- The access a word of the opcode table stands for, with the mode that selects its row. Eight bits are an MMIO
offset. More are a command word where R73 knows it; else a word whose byte [7:0] is the offset of DATA_IN is the
ENC_BYTE row, its bits [31:8] the data bits the row calls ignored and its BYTE 0; else it is an illegal command word.
The word 0x10 is TBL_CLEAR's and, as an offset, that of ENC_BYTE, DEC_BYTE and DIN_IDLE too (assumption 6). -/
def tableAccess (nbits w : Nat) : Mode × Access :=
  let word := BitVec.ofNat 32 w
  if nbits ≤ 8 then (.idle, tableOffsetAccess (BitVec.ofNat 8 w))
  else
    match decodeCmd word with
    | some _ => (.idle, writeOf .cmd word)
    | none =>
      if cmdOpc word &&& 0xFC#8 = 0x10#8 then (.enc, writeOf .dataIn (word &&& 0xFFFFFF00#32))
      else (.idle, writeOf .cmd word)

/-- The operation the decoder reads from a word numbered as spec/opcode_table.json numbers it. -/
def decodeTableWord (nbits w : Nat) : Option Instr :=
  match decode (tableAccess nbits w).1 (tableAccess nbits w).2 with
  | .ok i => some i
  | .error _ => none

end Sys2Proof
end

