-- ==== Sys2Proof/Machine/State.lean ====
section
/-! DEFINITION. The engine's architectural state (spec/10_state.md R20..R49), as plain data, and its reset values (R46),
with the host's side of the register bus: the accesses still to be performed and the values read. -/

namespace Sys2Proof.Machine

/-- The error causes 1..9 (60_exceptions.md R200). The reserved codes 10..15 are no value of this type. -/
inductive Cause where
  | missingCode
  | noChild
  | truncated
  | tblLen
  | tblDup
  | tblPrefix
  | overrun
  | seq
  | badCmd
  deriving DecidableEq, Repr

/-- The code table T (R40): the valid entries as (symbol, codeword), in ONE canonical form, symbols strictly rising. A
symbol that is not listed has an invalid entry (V, L, C) = (0, 0, []); a listed one has V = 1, C its codeword and
L = len(C). -/
abbrev Table := List (Byte × Bits)

/-- R40, the model's canonical form: symbols strictly rising. -/
abbrev Table.wf (t : Table) : Prop := t.Pairwise (fun a b => a.1 < b.1)

/-- What the outside world does to the engine, one event at a time: a host access (00_scope.md R10), or the platform
driving the reset input (70_reset_and_hazards.md R230, R231). -/
inductive HostEvent where
  | access (a : Access)
  /-- `rst_n` goes low. -/
  | resetAssert
  /-- `rst_n` goes high again. -/
  | resetRelease
  deriving DecidableEq, Repr

/-- The state. The fields up to `outq` are the spec's; `rstAsserted`, `pending` and `returned` are the interface's. -/
structure State where
  /-- The parameter OUT_DEPTH of this instance (00_scope.md R6). No operation writes it. -/
  cfg : Config
  /-- MODE (R22). -/
  mode : Mode
  /-- ERR (R23): `none` is code 0, no error. -/
  err : Option Cause
  /-- ERR_INFO (R49). -/
  errInfo : Word
  /-- CTRL.IE_ERR (R25). -/
  ieErr : Bool
  /-- CTRL.IE_OUT (R25). -/
  ieOut : Bool
  /-- CTRL.IE_IN (R25). -/
  ieIn : Bool
  /-- DEC_BITS (R32). -/
  decBits : Word
  /-- BITCNT (R33). -/
  bitcnt : Word
  /-- SYMCNT (R34). -/
  symcnt : Word
  /-- DEC_REM (R35). -/
  decRem : Word
  /-- TBL_INFO (R37). -/
  tblInfo : Word
  /-- CW0..CW7, the staging buffer (R39). -/
  cw : Vector Word 8
  /-- T, the code table (R40). -/
  table : Table
  /-- CUR, the decoder cursor (R41). -/
  cur : Bits
  /-- ACC, the encoder's pack accumulator (R42). -/
  acc : Bits
  /-- OUTQ, the output FIFO, oldest byte first (R43). -/
  outq : List Byte
  /-- The reset input: `true` while `rst_n` is asserted (R230). -/
  rstAsserted : Bool
  /-- The host's accesses and the platform's reset events still to come, the next one first (20_memory.md R59). -/
  pending : List HostEvent
  /-- The values the host's reads have returned, oldest first. -/
  returned : List Word
  deriving DecidableEq, Repr

/-- Why the machine stops. -/
inductive Fault where
  /-- Raised by `fifoPush` (20_memory.md R56, 93_implementation_defined.md I13): a push into a full FIFO, which the spec
  requires to fault rather than drop the byte. Safe: unreachable under the invariant of R44. -/
  | fifoOverflow
  deriving DecidableEq, Repr

/-- Why the model gives an access no meaning. -/
inductive Refusal where
  /-- Raised by an arm of `exec` whose instruction has no meaning yet. Safe. No arm does. -/
  | notModelled (mnemonic : String)
  /-- Raised by `performAccess`: an access narrower or wider than 32 bits, which the spec requires a model to refuse
  (20_memory.md R51; 93 I3). Safe. -/
  | accessSize
  /-- Raised by `performAccess`: an access at an offset that is not a multiple of 4, which the spec requires a model to
  refuse (20_memory.md R51; 93 I3). Safe. -/
  | misaligned
  /-- Raised by `performAccess`: a host access while `rst_n` is asserted, which the spec requires a model to refuse
  (70_reset_and_hazards.md R230; 93 I4). Safe. -/
  | duringReset
  deriving DecidableEq, Repr

/-- R46, R230: the engine right after reset. Nothing is pending and nothing has been read. -/
def State.reset : State where
  cfg := Config.hbce
  mode := .idle
  err := none
  errInfo := 0
  ieErr := false
  ieOut := false
  ieIn := false
  decBits := 0
  bitcnt := 0
  symcnt := 0
  decRem := 0
  tblInfo := 0
  cw := Vector.replicate 8 0
  table := []
  cur := []
  acc := []
  outq := []
  rstAsserted := false
  pending := []
  returned := []

/-- The outcome of an operation of this machine. -/
abbrev Outcome := Host.Outcome State Fault Refusal

end Sys2Proof.Machine
end

