-- ==== Sys2Proof/Machine/Operands.lean ====
section
/-! DEFINITION. Operand assembly (30_encoding.md R74, R76), bit packing (20_memory.md R55), the staging buffer as bits
(10_state.md R39, 40_code_table.md R91) and the codes of MODE and ERR (10_state.md R22, 60_exceptions.md R200). -/

namespace Sys2Proof.Machine

/-- R74, R76: the BYTE of a data word, v[7:0]. Bits [31:8] are ignored. -/
def dinByte (v : Word) : Byte := v.extractLsb' 0 8

/-- The number whose `n` binary digits are the first `n` bits of `bs`, the first bit the most significant; a bit past
the end of `bs` counts as 0. This is the sum of R55's `byte_j` and `pad8`. -/
def natOfBits : Nat → Bits → Nat
  | 0, _ => 0
  | _ + 1, [] => 0
  | n + 1, b :: bs => b.toNat * 2 ^ n + natOfBits n bs

/-- `n` bits, first bit most significant, padded with 0. -/
def packBits (n : Nat) (bs : Bits) : BitVec n := BitVec.ofNat n (natOfBits n bs)

/-- R55 `pad8(A)`. -/
def pad8 (a : Bits) : Byte := packBits 8 a

/-- R55: the bits of a byte in stream order, bit 7 first. -/
def byteBits (b : Byte) : Bits := (List.range 8).map b.getMsbD

/-- R55: the bytes of `n` whole or partial bytes of a payload. -/
def packBytes : Nat → Bits → List Byte
  | 0, _ => []
  | n + 1, p => pad8 (p.take 8) :: packBytes n (p.drop 8)

/-- R55 `pack(P)`: ceil(N / 8) bytes, MSB first, pad bits 0. -/
def pack (p : Bits) : List Byte := packBytes ((p.length + 7) / 8) p

/-- R55, read the other way: the bits the bytes hold, pad bits included. -/
def unpack (bytes : List Byte) : Bits := bytes.flatMap byteBits

/-- R39: staging bit `i`, CW[i div 32][31 - (i mod 32)]. A bit past 255 reads 0 and is no staging bit. -/
def stagingBit (cw : Vector Word 8) (i : Nat) : Bool :=
  if h : i / 32 < 8 then (cw[i / 32]).getLsbD (31 - i % 32) else false

/-- R91 `stage_code(n)`. -/
def stageCode (cw : Vector Word 8) (n : Nat) : Bits := (List.range n).map (stagingBit cw)

/-- R94: the staging buffer whose bit `i` is `c(i)` for `i < len(c)` and 0 above. -/
def stagingOf (c : Bits) : Vector Word 8 := Vector.ofFn fun k => packBits 32 (c.drop (32 * k.val))

/-- R22: the 2-bit value of MODE. -/
def modeCode : Mode → BitVec 2
  | .idle => 0
  | .enc => 1
  | .dec => 2

/-- R200: the 4-bit value of ERR for a cause. -/
def causeCode : Cause → BitVec 4
  | .missingCode => 1
  | .noChild => 2
  | .truncated => 3
  | .tblLen => 4
  | .tblDup => 5
  | .tblPrefix => 6
  | .overrun => 7
  | .seq => 8
  | .badCmd => 9

/-- R23, R200: the 4-bit value of ERR. -/
def errCode : Option Cause → BitVec 4
  | none => 0
  | some c => causeCode c

end Sys2Proof.Machine
end

