-- ==== Sys2Proof/Machine/Flags.lean ====
section
/-! DEFINITION. The status flags and the values of the registers that are computed when they are read: IN_RDY
(10_state.md R27), OUT_AVAIL, DEC_END and IRQ (R28), STATUS (R26), CTRL (R25), TBL_COUNT (R36), CURSOR (R38), and the
`irq` output (60_exceptions.md R210, R211). None is stored. -/

namespace Sys2Proof.Machine

/-- R43: OUTQ_LEVEL. -/
def outqLevel (s : State) : Nat := s.outq.length

/-- `OUTQ_LEVEL ≤ OUT_DEPTH - room` (R27, R113, R133): at least `room` bytes of OUTQ are free. -/
def hasRoom (room : Nat) (s : State) : Bool := decide (outqLevel s + room ≤ s.cfg.outDepth)

/-- R27 IN_RDY: whether a data write would be accepted. -/
def inRdy (s : State) : Bool :=
  s.err.isNone &&
    ((s.mode == .enc && hasRoom Config.encRoom s) ||
      (s.mode == .dec && s.decRem != 0 && hasRoom Config.decRoom s))

/-- R26 OUT_AVAIL. -/
def outAvail (s : State) : Bool := decide (0 < outqLevel s)

/-- R26 DEC_END. -/
def decEnd (s : State) : Bool := s.mode == .dec && s.decRem == 0 && s.err.isNone

/-- R210: the level of the `irq` output. -/
def irq (s : State) : Bool := (s.ieErr && s.err.isSome) || (s.ieOut && outAvail s) || (s.ieIn && inRdy s)

/-- R26: the value STATUS reads. -/
def statusWord (s : State) : Word :=
  field 0 (errCode s.err) ||| field 4 (modeCode s.mode) ||| field 6 (BitVec.ofBool (inRdy s)) |||
    field 7 (BitVec.ofBool (outAvail s)) ||| field 8 (BitVec.ofNat 7 (outqLevel s)) |||
    field 15 (BitVec.ofBool (decEnd s)) ||| field 16 (BitVec.ofBool (irq s))

/-- R25: the value CTRL reads. -/
def ctrlWord (s : State) : Word :=
  field 0 (BitVec.ofBool s.ieErr) ||| field 1 (BitVec.ofBool s.ieOut) ||| field 2 (BitVec.ofBool s.ieIn)

/-- R36: the number of valid entries of T. -/
def tblCount (t : Table) : Nat := t.length

/-- R36: the value TBL_COUNT reads. -/
def tblCountWord (s : State) : Word := BitVec.ofNat 32 (tblCount s.table)

/-- R38: the value CURSOR reads. -/
def cursorWord (s : State) : Word :=
  field 0 (BitVec.ofNat 8 s.cur.length) ||| field 8 (BitVec.ofNat 3 s.acc.length) ||| field 16 (pad8 s.acc)

end Sys2Proof.Machine
end

