-- ==== Sys2Proof/Machine/Ops.lean ====
section
/-! DEFINITION. The named operations every meaning is built from: the code table (10_state.md R40), the FIFO primitives
(20_memory.md R56), error entry and the return from it (60_exceptions.md R204..R207), the checks of a command
(43_control.md R152), the packing primitive (41_encode.md R112), one step of the decode walk (42_decode.md R134) and
the register reads (10_state.md section 3). -/

namespace Sys2Proof.Machine

/-! ### The code table T (R40) -/

/-- `T[s].C` where `T[s].V = 1`, and `none` where the entry is invalid. -/
def tableGet : Table → Byte → Option Bits
  | [], _ => none
  | (k, c) :: t, s => if k = s then some c else tableGet t s

/-- `T[s] <- (1, len(c), c)`, in the canonical form. -/
def tableSet : Table → Byte → Bits → Table
  | [], s, c => [(s, c)]
  | (k, d) :: t, s, c =>
    if s < k then (s, c) :: (k, d) :: t
    else if k = s then (s, c) :: t
    else (k, d) :: tableSet t s c

/-- The symbol `s` with `T[s].V = 1` and `T[s].C = p` (R134). It is unique where T is prefix-free. -/
def tableLeaf : Table → Bits → Option Byte
  | [], _ => none
  | (k, c) :: t, p => if c = p then some k else tableLeaf t p

/-- Some valid entry's codeword has `p` as a proper prefix (R134). -/
def tableInner (t : Table) (p : Bits) : Bool := t.any fun e => p.isPrefixOf e.2 && decide (p.length < e.2.length)

/-- Some valid entry's codeword is a prefix of `c` or has `c` as a prefix (R93). -/
def tableConflict (t : Table) (c : Bits) : Bool := t.any fun e => c.isPrefixOf e.2 || e.2.isPrefixOf c

/-! ### Error entry and return (R204..R207) -/

/-- R204 `raise E(info)`: taking an error. MODE, CUR, the counters, T, CTRL, DEC_BITS, CW and TBL_INFO are kept. -/
def raise (e : Cause) (info : Word) (s : State) : State :=
  { s with err := some e, errInfo := info, outq := [], acc := [] }

/-- R151, R207: the return from the error state by ABORT, which also ends any open stream. -/
def abortState (s : State) : State :=
  { s with err := none, errInfo := 0, mode := .idle, cur := [], acc := [], outq := [], decRem := 0 }

/-- R152, R159: in the error state the operation is ignored. -/
def unlessError (s : State) (o : Outcome) : Outcome := if s.err = none then o else .next s

/-- The mode check of a command or data write: SEQ with the word outside mode `m` (R71, R208). -/
def requireMode (m : Mode) (w : Word) (s : State) (o : Outcome) : Outcome :=
  if s.mode = m then o else .next (raise .seq w s)

/-! ### Steps inside one operation -/

/-- How a step inside an operation ends: the operation goes on, or a raise has ended it (R204), or the model stops. -/
inductive Flow where
  | go (s : State)
  | raised (s : State)
  | fault (f : Fault)
  deriving DecidableEq, Repr

/-- Goes on with `k` unless the operation has ended. -/
def Flow.bind : Flow → (State → Flow) → Flow
  | .go s, k => k s
  | .raised s, _ => .raised s
  | .fault f, _ => .fault f

/-- The outcome of the whole operation. -/
def Flow.outcome : Flow → Outcome
  | .go s => .next s
  | .raised s => .next s
  | .fault f => .fault f

/-! ### The FIFO (R56) -/

/-- R56 `fifo_push(b)`. A push into a full FIFO faults rather than drop the byte. -/
def fifoPush (b : Byte) (s : State) : Flow :=
  if outqLevel s < s.cfg.outDepth then .go { s with outq := s.outq ++ [b] } else .fault .fifoOverflow

/-- The value of a MemRead, as the host receives it. -/
def respond (v : Word) (s : State) : State := { s with returned := s.returned ++ [v] }

/-- R31, R56, R156: a read of DATA_OUT pops the head of OUTQ, or reads 0 when it is empty. -/
def popOutput (s : State) : State :=
  match s.outq with
  | [] => respond 0 s
  | b :: rest => respond (0x80000000#32 ||| field 0 b) { s with outq := rest }

/-! ### The encoder's packing (R112) -/

/-- R112 `append_bit(b)`. -/
def appendBit (b : Bool) (s : State) : Flow :=
  let acc := s.acc ++ [b]
  if acc.length = 8 then
    (fifoPush (pad8 acc) s).bind fun s1 => .go { s1 with acc := [] }
  else .go { s with acc := acc }

/-- The loop of R113: appends the bits of a codeword in order. -/
def appendBits : Bits → State → Flow
  | [], s => .go s
  | b :: bs, s => (appendBit b s).bind (appendBits bs)

/-! ### The decoder's walk (R134) -/

/-- The last two lines of R134: one more bit consumed. -/
def consumeBit (s : State) : State := { s with bitcnt := s.bitcnt + 1, decRem := s.decRem - 1 }

/-- R134 `dec_bit(b, v)`: one step of the decode-tree walk. -/
def decBit (b : Bool) (v : Word) (s : State) : Flow :=
  let p := s.cur ++ [b]
  match tableLeaf s.table p with
  | some sym =>
    (fifoPush sym s).bind fun s1 => .go (consumeBit { s1 with cur := [], symcnt := s1.symcnt + 1 })
  | none =>
    if tableInner s.table p then .go (consumeBit { s with cur := p }) else .raised (raise .noChild v s)

/-- The loop of R133: consumes the bits in order. -/
def decBitLoop (v : Word) : Bits → State → Flow
  | [], s => .go s
  | b :: bs, s => (decBit b v s).bind (decBitLoop v bs)

/-! ### Register reads (10_state.md section 3) -/

/-- R157: the value a read of a register other than DATA_OUT returns. CMD, DATA_IN and the reserved words read 0
(R29, R30, R45). DATA_OUT is read by `popOutput`. -/
def readReg (r : Reg) (s : State) : Word :=
  match r with
  | .id => Config.idValue
  | .ctrl => ctrlWord s
  | .status => statusWord s
  | .decBits => s.decBits
  | .bitcnt => s.bitcnt
  | .symcnt => s.symcnt
  | .decRem => s.decRem
  | .tblCount => tblCountWord s
  | .tblInfo => s.tblInfo
  | .cursor => cursorWord s
  | .errInfo => s.errInfo
  | .cw k => s.cw[k]
  | .cmd | .dataIn | .dataOut | .reserved _ => 0

/-- A read of register `r`: DATA_OUT pops (R156), every other register returns its value and changes nothing (R157). -/
def readAccess (r : Reg) (s : State) : State :=
  match r with
  | .dataOut => popOutput s
  | .id | .ctrl | .status | .cmd | .dataIn | .decBits | .bitcnt | .symcnt | .decRem | .tblCount | .tblInfo
  | .cursor | .errInfo | .cw _ | .reserved _ => respond (readReg r s) s

/-! ### Reset (R230, R231) -/

/-- R46, R230: every piece of the engine's state takes its reset value. The parameter OUT_DEPTH and the host's side of
the bus are no state of the engine and stay. -/
def resetEngine (s : State) : State :=
  { State.reset with cfg := s.cfg, rstAsserted := s.rstAsserted, pending := s.pending, returned := s.returned }

end Sys2Proof.Machine
end

