-- ==== Sys2Proof/Machine/CodeTable.lean ====
section
/-! DEFINITION. The code table family (spec/40_code_table.md): TBL_CLEAR, TBL_ADD, TBL_READ. -/

namespace Sys2Proof.Machine

/-- R92 TBL_CLEAR. -/
def execTblClear (s : State) : Outcome :=
  unlessError s <| requireMode .idle (cmdWord .tblClear) s <| .next { s with table := [], tblInfo := 0 }

/-- R93, the checks after the mode check and the update: LEN = 0, then a symbol that has a codeword, then a codeword
that is a prefix of, has as a prefix or equals another; else the entry is added. -/
def addEntry (sym len : Byte) (w : Word) (s : State) : State :=
  if len = 0 then raise .tblLen w s
  else if (tableGet s.table sym).isSome then raise .tblDup w s
  else if tableConflict s.table (stageCode s.cw len.toNat) then raise .tblPrefix w s
  else { s with table := tableSet s.table sym (stageCode s.cw len.toNat) }

/-- R93 TBL_ADD. -/
def execTblAdd (sym len : Byte) (s : State) : Outcome :=
  unlessError s <| requireMode .idle (cmdWord (.tblAdd sym len)) s <|
    .next (addEntry sym len (cmdWord (.tblAdd sym len)) s)

/-- R37, R94: the value of TBL_INFO for the entry of a symbol, (V << 31) | (L << 8) | SYM. -/
def tblInfoOf (sym : Byte) (e : Option Bits) : Word :=
  field 31 (BitVec.ofBool e.isSome) ||| field 8 (BitVec.ofNat 8 (e.getD []).length) ||| field 0 sym

/-- R94 TBL_READ: legal in IDLE, ENC and DEC, so no mode check. -/
def execTblRead (sym : Byte) (s : State) : Outcome :=
  unlessError s <|
    .next { s with tblInfo := tblInfoOf sym (tableGet s.table sym),
                   cw := stagingOf ((tableGet s.table sym).getD []) }

end Sys2Proof.Machine
end

