-- ==== Sys2Proof/Machine/DecodeStream.lean ====
section
/-! DEFINITION. The decode family (spec/42_decode.md): DEC_START, DEC_FINISH and the decode step of a data write. -/

namespace Sys2Proof.Machine

/-- R131 DEC_START. -/
def execDecStart (s : State) : Outcome :=
  unlessError s <| requireMode .idle (cmdWord .decStart) s <|
    .next { s with mode := .dec, cur := [], outq := [], decRem := s.decBits, bitcnt := 0, symcnt := 0 }

/-- R133: the bits a data write consumes, the first min(8, DEC_REM) of B from bit 7 down. -/
def consumedBits (v : Word) (s : State) : Bits := (byteBits (dinByte v)).take (min 8 s.decRem.toNat)

/-- R133, R135: the end check, TRUNCATED when the last bit leaves the cursor off the root. -/
def endCheck (v : Word) (s : State) : Flow :=
  if s.decRem = 0 ∧ s.cur ≠ [] then .raised (raise .truncated v s) else .go s

/-- R133, the step a data write performs in DEC. -/
def decodeStep (v : Word) (s : State) : Outcome :=
  if s.decRem = 0 then .next (raise .seq v s)
  else if ¬ hasRoom Config.decRoom s then .next (raise .overrun v s)
  else ((decBitLoop v (consumedBits v s) s).bind (endCheck v)).outcome

/-- R136, the body of DEC_FINISH. -/
def finishState (w : Word) (s : State) : State :=
  if s.decRem ≠ 0 then raise .truncated w s else { s with mode := .idle }

/-- R136 DEC_FINISH. -/
def execDecFinish (s : State) : Outcome :=
  unlessError s <| requireMode .dec (cmdWord .decFinish) s <| .next (finishState (cmdWord .decFinish) s)

end Sys2Proof.Machine
end

