-- ==== Sys2Proof/Machine/Encode.lean ====
section
/-! DEFINITION. The encode family (spec/41_encode.md): ENC_START, ENC_FLUSH and the encode step of a data write. -/

namespace Sys2Proof.Machine

/-- R111 ENC_START. -/
def execEncStart (s : State) : Outcome :=
  unlessError s <| requireMode .idle (cmdWord .encStart) s <|
    .next { s with mode := .enc, acc := [], outq := [], bitcnt := 0, symcnt := 0, decRem := 0 }

/-- R113: the counters after a symbol whose codeword is `c`, modulo 2^32. -/
def countSymbol (c : Bits) (s : State) : State :=
  { s with bitcnt := s.bitcnt + BitVec.ofNat 32 c.length, symcnt := s.symcnt + 1 }

/-- R113, the step a data write performs in ENC. -/
def encodeStep (v : Word) (s : State) : Outcome :=
  if ¬ hasRoom Config.encRoom s then .next (raise .overrun v s)
  else
    match tableGet s.table (dinByte v) with
    | none => .next (raise .missingCode v s)
    | some c => ((appendBits c s).bind fun s1 => .go (countSymbol c s1)).outcome

/-- R115, the body of ENC_FLUSH: the last partial byte is pushed with pad bits 0. -/
def flushAcc (s : State) : Flow :=
  if s.acc = [] then .go s else (fifoPush (pad8 s.acc) s).bind fun s1 => .go { s1 with acc := [] }

/-- R115 ENC_FLUSH. -/
def execEncFlush (s : State) : Outcome :=
  unlessError s <| requireMode .enc (cmdWord .encFlush) s <|
    ((flushAcc s).bind fun s1 => .go { s1 with mode := .idle }).outcome

end Sys2Proof.Machine
end

