-- ==== Sys2Proof/Machine/Control.lean ====
section
/-! DEFINITION. The control family (spec/43_control.md): NOP, ABORT, the dispatch of a data write and its three rows, and
the register reads and writes. -/

namespace Sys2Proof.Machine

/-- R150 NOP: no effect, in any mode and in the error state. -/
def execNop (s : State) : Outcome := .next s

/-- R151 ABORT: performed in any mode and in the error state. -/
def execAbort (s : State) : Outcome := .next (abortState s)

/-- R159: a write of `v` to DATA_IN, by the mode the engine is in. -/
def dataWrite (v : Word) (s : State) : Outcome :=
  unlessError s <|
    match s.mode with
    | .idle => .next (raise .seq v s)
    | .enc => encodeStep v s
    | .dec => decodeStep v s

/-- R113 ENC_BYTE: the data write that MODE = ENC selects. The access is dispatched by R159. -/
def execEncByte (v : Word) (s : State) : Outcome := dataWrite v s

/-- R133 DEC_BYTE: the data write that MODE = DEC selects. The access is dispatched by R159. -/
def execDecByte (v : Word) (s : State) : Outcome := dataWrite v s

/-- R159 DIN_IDLE: the data write that MODE = IDLE selects, which raises SEQ. The access is dispatched by R159. -/
def execDinIdle (v : Word) (s : State) : Outcome := dataWrite v s

/-- R156 OUT_POP. -/
def execOutPop (s : State) : Outcome := .next (popOutput s)

/-- R153 CTRL_WR. -/
def execCtrlWr (v : Word) (s : State) : Outcome :=
  .next { s with ieErr := v.getLsbD 0, ieOut := v.getLsbD 1, ieIn := v.getLsbD 2 }

/-- R155 DEC_BITS_WR. -/
def execDecBitsWr (v : Word) (s : State) : Outcome := .next { s with decBits := v }

/-- R154 CW_WR. -/
def execCwWr (k : Fin 8) (v : Word) (s : State) : Outcome := .next { s with cw := s.cw.set k v }

/-- R157 REG_RD. -/
def execRegRd (r : Reg) (s : State) : Outcome := .next (readAccess r s)

/-- R158 REG_WI: ignored, whatever the register and the word. -/
def execRegWi (_r : Reg) (_v : Word) (s : State) : Outcome := .next s

end Sys2Proof.Machine
end

