-- ==== Sys2Proof/Machine/Dispatch.lean ====
section
/-! DEFINITION. One arm per constructor of Instr: the meaning of each operation (30_encoding.md R71, R78). -/

namespace Sys2Proof.Machine

def exec (i : Instr) (s : State) : Host.Outcome State Fault Refusal :=
  match i with
  | .nop => Sys2Proof.Machine.execNop s
  | .abort => Sys2Proof.Machine.execAbort s
  | .tblClear => Sys2Proof.Machine.execTblClear s
  | .tblAdd sym len => Sys2Proof.Machine.execTblAdd sym len s
  | .tblRead sym => Sys2Proof.Machine.execTblRead sym s
  | .encStart => Sys2Proof.Machine.execEncStart s
  | .encFlush => Sys2Proof.Machine.execEncFlush s
  | .decStart => Sys2Proof.Machine.execDecStart s
  | .decFinish => Sys2Proof.Machine.execDecFinish s
  | .encByte v => Sys2Proof.Machine.execEncByte v s
  | .decByte v => Sys2Proof.Machine.execDecByte v s
  | .dinIdle v => Sys2Proof.Machine.execDinIdle v s
  | .outPop => Sys2Proof.Machine.execOutPop s
  | .ctrlWr v => Sys2Proof.Machine.execCtrlWr v s
  | .decBitsWr v => Sys2Proof.Machine.execDecBitsWr v s
  | .cwWr k v => Sys2Proof.Machine.execCwWr k v s
  | .regRd r => Sys2Proof.Machine.execRegRd r s
  | .regWi r v => Sys2Proof.Machine.execRegWi r v s

end Sys2Proof.Machine
end

