-- ==== Sys2Proof/Machine/Bus.lean ====
section
/-! DEFINITION. The register bus: performing one event of the outside world, a host access (00_scope.md R10,
20_memory.md R50..R53, 43_control.md R152) or a change of the reset input (70_reset_and_hazards.md R230, R231). -/

namespace Sys2Proof.Machine

/-- R152: an illegal command word raises BAD_CMD, or is ignored in the error state. -/
def illegalCommand (w : Word) (s : State) : Outcome := unlessError s (.next (raise .badCmd w s))

/-- What the engine does with an access the decoder rejects: R51 refuses it, R73 and R152 raise BAD_CMD. -/
def rejected (e : DecodeReject) (s : State) : Outcome :=
  match e with
  | .accessSize => .refused .accessSize
  | .misaligned => .refused .misaligned
  | .illegalCommand w => illegalCommand w s

/-- One host access, atomically (R53): refused while `rst_n` is asserted (R230), else decoded and performed. -/
def performAccess (a : Access) (s : State) : Outcome :=
  if s.rstAsserted then .refused .duringReset
  else
    match decode s.mode a with
    | .ok i => exec i s
    | .error e => rejected e s

/-- R230: `rst_n` goes low. -/
def assertReset (s : State) : State := resetEngine { s with rstAsserted := true }

/-- R230: `rst_n` goes high. Every piece of state holds its reset value. -/
def releaseReset (s : State) : State := resetEngine { s with rstAsserted := false }

/-- One event. -/
def performEvent (e : HostEvent) (s : State) : Outcome :=
  match e with
  | .access a => performAccess a s
  | .resetAssert => .next (assertReset s)
  | .resetRelease => .next (releaseReset s)

/-- R218, R242: the engine changes state only when an event is performed, and it never halts on its own: with nothing
pending it stays as it is. Else it performs the next pending event. -/
def nextEvent (s : State) : Outcome :=
  match s.pending with
  | [] => .next s
  | e :: rest => performEvent e { s with pending := rest }

/-- `s` with the access of an opcode-table word placed as the next pending event, with the mode that selects the row of
a data write, and the reset input released. -/
def withNextAccess (m : Mode) (a : Access) (s : State) : State :=
  { s with
    rstAsserted := false
    pending := .access a :: s.pending
    mode :=
      match a with
      | .write off _ _ => if off = regOffset .dataIn then m else s.mode
      | .read _ _ => s.mode }

end Sys2Proof.Machine
end

