-- ==== Sys2Proof/Machine/Step.lean ====
section
/-! DEFINITION. One step of the machine: the next pending event of the outside world is performed (00_scope.md R10). The
engine has no program counter and fetches nothing (10_state.md R21). -/

namespace Sys2Proof.Machine

/-- One step. -/
def step : State → Host.Outcome State Fault Refusal := nextEvent

/-- `s` with the operation of an opcode-table word placed where `step` takes its next operation: the head of the host's
pending accesses. -/
def State.withFetchWord (s : State) (nbits w : Nat) : State :=
  withNextAccess (tableAccess nbits w).1 (tableAccess nbits w).2 s

end Sys2Proof.Machine
end

