-- ==== Sys2Proof/Machine/HostTree.lean ====
section
/-! DEFINITION. The host reference, first part (spec/49_host_reference.md R170..R177): the Frequency Counter, the Tree
Builder and the Code Table Generator. This is host software, no part of the engine (00_scope.md R4); it produces the
code tables the engine is loaded with. -/

namespace Sys2Proof.HostRef

/-- A frequency table: the symbols that occur with their counts, in ascending byte value (R170, D30). -/
abbrev Freq := List (Byte × Nat)

/-- The 256 symbols in ascending byte value (R6 SYMBOLS). -/
def symbols : List Byte := (List.range 256).map (BitVec.ofNat 8)

/-- R170 `count(S)`: a byte value that does not occur has no entry. -/
def count (input : List Byte) : Freq :=
  (symbols.map fun s => (s, input.count s)).filter fun e => e.2 != 0

/-- A Huffman tree. Each node has its frequency and its creation index (R172). -/
inductive HTree where
  | leaf (sym : Byte) (freq order : Nat)
  | node (l r : HTree) (freq order : Nat)
  deriving DecidableEq, Repr

/-- The frequency of a node. -/
def HTree.freq : HTree → Nat
  | .leaf _ f _ => f
  | .node _ _ f _ => f

/-- The creation index of a node. -/
def HTree.order : HTree → Nat
  | .leaf _ _ o => o
  | .node _ _ _ o => o

/-- R172: `a` has the lesser (freq, order). -/
def before (a b : HTree) : Bool := decide (a.freq < b.freq) || (a.freq == b.freq && decide (a.order < b.order))

/-- R172: the node with the least (freq, order) of `x :: ts`, and the collection without it. -/
def takeLeast : HTree → List HTree → HTree × List HTree
  | x, [] => (x, [])
  | x, t :: ts =>
    if before t x then ((takeLeast t ts).1, x :: (takeLeast t ts).2)
    else ((takeLeast x ts).1, t :: (takeLeast x ts).2)

/-- R172: the first leaves, one per symbol in the order of `freq`, with creation indices from `next`. -/
def leaves : Nat → Freq → List HTree
  | _, [] => []
  | next, (s, f) :: rest => .leaf s f next :: leaves (next + 1) rest

/-- R172: pairs the two least nodes until one is left. Each round removes two nodes and adds one, so `fuel` rounds with
`fuel` the number of nodes are enough. `none` for no node. -/
def pairUp : Nat → Nat → List HTree → Option HTree
  | _, _, [] => none
  | _, _, [t] => some t
  | 0, _, _ :: _ :: _ => none
  | fuel + 1, next, x :: y :: rest =>
    let a := takeLeast x (y :: rest)
    match a.2 with
    | [] => none
    | z :: zs =>
      let b := takeLeast z zs
      pairUp fuel (next + 1) (b.2 ++ [.node a.1 b.1 (a.1.freq + b.1.freq) next])

/-- R171, R172 `Build(freq)`: EmptyInputError when `freq` has no entries. -/
def build (freq : Freq) : Except HostError HTree :=
  match pairUp freq.length freq.length (leaves 0 freq) with
  | some t => .ok t
  | none => .error .emptyInputError

/-- R175, the walk: 0 for a left edge, 1 for a right edge, the path recorded at each leaf. -/
def walk : HTree → Bits → List (Byte × Bits)
  | .leaf s _ _, path => [(s, path)]
  | .node l r _ _, path => walk l (path ++ [false]) ++ walk r (path ++ [true])

/-- R175, R176 `Generate(root)`, as symbol and codeword pairs in the order of the walk. A root that is a leaf gets the
codeword "0". -/
def generate : HTree → List (Byte × Bits)
  | .leaf s _ _ => [(s, [false])]
  | .node l r f o => walk (.node l r f o) []

/-- The generated codes as a code table, in ascending symbol order (R181, R184). -/
def codeTable (codes : List (Byte × Bits)) : Machine.Table :=
  codes.foldl (fun t e => Machine.tableSet t e.1 e.2) []

end Sys2Proof.HostRef
end

