-- ==== Sys2Proof/Machine/HostContainer.lean ====
section
/-! DEFINITION. The host reference, second part (spec/49_host_reference.md R178..R183): the container, as written and as
read. This is host software, no part of the engine (00_scope.md R4). -/

namespace Sys2Proof.HostRef

open Sys2Proof.Machine (pack unpack)

/-- R179: an `int32` is 4 bytes, little-endian. -/
def le32 (n : Nat) : List Byte :=
  [BitVec.ofNat 8 n, BitVec.ofNat 8 (n / 2 ^ 8), BitVec.ofNat 8 (n / 2 ^ 16), BitVec.ofNat 8 (n / 2 ^ 24)]

/-- R178, R180: a record: symbol, codeLength, codeBits. -/
def record (e : Byte × Bits) : List Byte := e.1 :: (le32 e.2.length ++ pack e.2)

/-- What a container holds: the code table, the bit count and the payload bytes (R178). -/
structure Container where
  codes : List (Byte × Bits)
  bitCount : Nat
  payload : List Byte
  deriving DecidableEq, Repr

/-- R178 to R182: the bytes of a container. A writer gives the records in ascending symbol order (R181), which is the
order of a `Machine.Table`. -/
def writeContainer (c : Container) : List Byte :=
  le32 c.codes.length ++ c.codes.flatMap record ++ le32 c.bitCount ++ c.payload

/-- R183 (a): takes `n` bytes, or MalformedStreamError where the file ends first. -/
def takeBytes (n : Nat) (bytes : List Byte) : Except HostError (List Byte × List Byte) :=
  if bytes.length < n then .error .malformedStreamError else .ok (bytes.take n, bytes.drop n)

/-- R179: the signed value of an `int32`, two's complement. -/
def int32Value (bytes : List Byte) : Int :=
  (BitVec.ofNat 32 (bytes.foldr (fun b n => b.toNat + 256 * n) 0)).toInt

/-- Reads an `int32`. -/
def readInt32 (bytes : List Byte) : Except HostError (Int × List Byte) :=
  match takeBytes 4 bytes with
  | .ok (field, rest) => .ok (int32Value field, rest)
  | .error e => .error e

/-- R183 (a), (c): reads one record. -/
def readRecord (bytes : List Byte) : Except HostError ((Byte × Bits) × List Byte) :=
  match bytes with
  | [] => .error .malformedStreamError
  | sym :: bytes1 =>
    match readInt32 bytes1 with
    | .error e => .error e
    | .ok (len, bytes2) =>
      if len < 1 ∨ 255 < len then .error .malformedStreamError
      else
        match takeBytes ((len.toNat + 7) / 8) bytes2 with
        | .error e => .error e
        | .ok (field, rest) => .ok ((sym, (unpack field).take len.toNat), rest)

/-- R178: reads `n` records, in any symbol order (R183). -/
def readRecords : Nat → List Byte → Except HostError (List (Byte × Bits) × List Byte)
  | 0, bytes => .ok ([], bytes)
  | n + 1, bytes =>
    match readRecord bytes with
    | .error e => .error e
    | .ok (e, rest) =>
      match readRecords n rest with
      | .error e => .error e
      | .ok (es, rest) => .ok (e :: es, rest)

/-- R183 (a) to (f): reads a container. Case (g) is raised while the table loads. -/
def readContainer (bytes : List Byte) : Except HostError Container :=
  match readInt32 bytes with
  | .error e => .error e
  | .ok (entryCount, bytes1) =>
    if entryCount < 1 ∨ 256 < entryCount then .error .malformedStreamError
    else
      match readRecords entryCount.toNat bytes1 with
      | .error e => .error e
      | .ok (codes, bytes2) =>
        match readInt32 bytes2 with
        | .error e => .error e
        | .ok (bitCount, payload) =>
          if bitCount < 0 then .error .malformedStreamError
          else if payload.length ≠ (bitCount.toNat + 7) / 8 then .error .malformedStreamError
          else .ok { codes := codes, bitCount := bitCount.toNat, payload := payload }

end Sys2Proof.HostRef
end

