-- ==== Sys2Proof/Machine/HostDriver.lean ====
section
/-! DEFINITION. The host reference, third part (spec/49_host_reference.md R184..R192; 30_encoding.md R79, R80): the
pseudo-instructions, loading a table, Compress and Uncompress, driving the engine through its bus. This is host
software, no part of the engine (00_scope.md R4). -/

namespace Sys2Proof.HostRef

open Sys2Proof.Machine

/-- Which of the two host operations drives the engine (the columns of R187). -/
inductive Phase where
  | compress
  | uncompress
  deriving DecidableEq, Repr

/-- R187: the source error kind of an engine error, by the code STATUS[3:0] shows (60_exceptions.md R200); `none` for
code 0. The two cells that cannot occur during Compress, and the reserved codes, are a driver fault here
(assumption 9). -/
def hostErrorOf (phase : Phase) (code : BitVec 4) : Option HostError :=
  match phase, code.toNat with
  | _, 0 => none
  | _, 1 => some .missingCodeError
  | .compress, 2 => some .ioError
  | .compress, 3 => some .ioError
  | .uncompress, 2 => some .malformedStreamError
  | .uncompress, 3 => some .malformedStreamError
  | .compress, 4 => some .missingCodeError
  | .compress, 5 => some .missingCodeError
  | .compress, 6 => some .missingCodeError
  | .uncompress, 4 => some .malformedStreamError
  | .uncompress, 5 => some .malformedStreamError
  | .uncompress, 6 => some .malformedStreamError
  | _, _ => some .ioError

/-- One access of the driver. An access the engine does not perform is a failed device, IOError. -/
def access (a : Access) (s : State) : Except HostError State :=
  match performAccess a s with
  | .next t => .ok t
  | .fault _ | .refused _ => .error .ioError

/-- `wr r, v` (R79). -/
def wr (r : Reg) (v : Word) (s : State) : Except HostError State := access (writeOf r v) s

/-- A command (R79). -/
def command (i : Instr) (s : State) : Except HostError State := access (encode i) s

/-- `rd r` (R79): the value read and the state after. -/
def rd (r : Reg) (s : State) : Except HostError (Word × State) :=
  match access (readOf r) s with
  | .ok t => .ok (t.returned.getLastD 0, t)
  | .error e => .error e

/-- One read of STATUS, and step 6 of R185 and R186: the error of R187 when STATUS.ERR is not 0. -/
def pollStatus (phase : Phase) (s : State) : Except HostError (Word × State) :=
  match rd .status s with
  | .error e => .error e
  | .ok (w, t) =>
    match hostErrorOf phase (w.extractLsb' 0 4) with
    | some e => .error e
    | none => .ok (w, t)

/-- The check STATUS.ERR = 0. -/
def checkErr (phase : Phase) (s : State) : Except HostError State := (pollStatus phase s).map fun r => r.2

/-- R80 `tbl.load SYM, "c"`, the staging writes: the words CWk that hold codeword bits. -/
def stage (c : Bits) : Nat → State → Except HostError State
  | 0, s => .ok s
  | n + 1, s =>
    match stage c n s with
    | .error e => .error e
    | .ok t => if h : n < 8 then wr (.cw ⟨n, h⟩) (packBits 32 (c.drop (32 * n))) t else .error .ioError

/-- R80 `tbl.load SYM, "c"`. -/
def tblLoad (e : Byte × Bits) (s : State) : Except HostError State :=
  match stage e.2 ((e.2.length + 31) / 32) s with
  | .error err => .error err
  | .ok t => command (.tblAdd e.1 (BitVec.ofNat 8 e.2.length)) t

/-- One `tbl.load` per entry, in the order given. -/
def tblLoads : List (Byte × Bits) → State → Except HostError State
  | [], s => .ok s
  | e :: es, s => (tblLoad e s).bind (tblLoads es)

/-- R184: loading a table, and the check of STATUS.ERR. -/
def loadTable (phase : Phase) (codes : List (Byte × Bits)) (s : State) : Except HostError State :=
  (command .abort s).bind fun s1 =>
    (command .tblClear s1).bind fun s2 => (tblLoads codes s2).bind (checkErr phase)

/-- R80 `clr`. -/
def clr (s : State) : Except HostError State := command .abort s

/-- R80 `dec.begin N`. -/
def decBegin (n : Word) (s : State) : Except HostError State := (wr .decBits n s).bind (command .decStart)

/-- R79 `put B`. -/
def put (v : Word) (s : State) : Except HostError State := wr .dataIn v s

/-- R80 `wait.in`: repeats `rd STATUS` until IN_RDY = 1 or ERR ≠ 0. The rules say nothing about how long it runs (R80,
70_reset_and_hazards.md R241): `none` when it still waits after `fuel` reads. -/
def waitIn : Nat → State → Except HostError (Option State)
  | 0, _ => .ok none
  | fuel + 1, s =>
    (rd .status s).bind fun r =>
      if r.1.getLsbD 6 ∨ r.1.extractLsb' 0 4 ≠ 0 then .ok (some r.2) else waitIn fuel r.2

/-- R80 `put.w B`, the two steps: `wait.in`, then `put B`. -/
def waitPut (v : Word) (fuel : Nat) (s : State) : Except HostError (Option State) :=
  (waitIn fuel s).bind fun r =>
    match r with
    | none => .ok none
    | some t => (put v t).map some

/-- R80 `put.w B` with the draining of R185 step 4: polls STATUS; writes the byte when IN_RDY = 1; stops at an error;
else reads DATA_OUT and polls again. Each round of draining takes one byte of the FIFO, so `fuel` = OUT_DEPTH + 1 is
enough. The bytes drained are appended to `out`. -/
def putW (phase : Phase) (b : Byte) : Nat → List Byte → State → Except HostError (List Byte × State)
  | 0, _, _ => .error .ioError
  | fuel + 1, out, s =>
    (pollStatus phase s).bind fun r =>
      if r.1.getLsbD 6 then (put (BitVec.setWidth 32 b) r.2).map fun t => (out, t)
      else
        (rd .dataOut r.2).bind fun d =>
          putW phase b fuel (if d.1.getLsbD 31 then out ++ [d.1.extractLsb' 0 8] else out) d.2

/-- Every byte of a list, in order, with `put.w`. -/
def putAll (phase : Phase) : List Byte → List Byte → State → Except HostError (List Byte × State)
  | [], out, s => .ok (out, s)
  | b :: bs, out, s => (putW phase b (s.cfg.outDepth + 1) out s).bind fun r => putAll phase bs r.1 r.2

/-- R80 `drain`: reads DATA_OUT until VALID = 0. -/
def drain : Nat → List Byte → State → Except HostError (List Byte × State)
  | 0, _, _ => .error .ioError
  | fuel + 1, out, s =>
    (rd .dataOut s).bind fun d =>
      if d.1.getLsbD 31 then drain fuel (out ++ [d.1.extractLsb' 0 8]) d.2 else .ok (out, d.2)

/-- R185 steps 4 and 5: the payload bytes and the bit count. -/
def encodeStream (input : List Byte) (s : State) : Except HostError ((List Byte × Nat) × State) :=
  (command .encStart s).bind fun s1 =>
    (putAll .compress input [] s1).bind fun r =>
      (command .encFlush r.2).bind fun s2 =>
        (checkErr .compress s2).bind fun s3 =>
          (drain (s3.cfg.outDepth + 1) r.1 s3).bind fun d =>
            (rd .bitcnt d.2).map fun n => ((d.1, n.1.toNat), n.2)

/-- R186 steps 4 and 5: the decoded bytes. -/
def decodeStream (c : Container) (s : State) : Except HostError (List Byte × State) :=
  (decBegin (BitVec.ofNat 32 c.bitCount) s).bind fun s1 =>
    (putAll .uncompress c.payload [] s1).bind fun r =>
      (command .decFinish r.2).bind fun s2 =>
        (checkErr .uncompress s2).bind fun s3 => drain (s3.cfg.outDepth + 1) r.1 s3

/-- R179: the number of payload bits of an input, exactly. -/
def payloadBits (codes : Table) (input : List Byte) : Nat :=
  (input.map fun b => ((tableGet codes b).getD []).length).sum

/-- R185 steps 1 to 6: the bytes of the container for an input. An input whose payload exceeds 2^31 - 1 bits cannot be
stored (R179); the host reports the open parameter of D40. -/
def compressBytes (input : List Byte) (s : State) : Except HostError (List Byte × State) :=
  (build (count input)).bind fun root =>
    let codes := codeTable (generate root)
    if 2 ^ 31 ≤ payloadBits codes input then .error Config.hostBitcountLimitError
    else
      (loadTable .compress codes s).bind fun s1 =>
        (encodeStream input s1).map fun r =>
          (writeContainer { codes := codes, bitCount := r.1.2, payload := r.1.1 }, r.2)

/-- R186 steps 2 to 6: the bytes a container decodes to. -/
def uncompressBytes (bytes : List Byte) (s : State) : Except HostError (List Byte × State) :=
  (readContainer bytes).bind fun c =>
    (loadTable .uncompress c.codes s).bind fun s1 => decodeStream c s1

/-! ### Files and paths (R185, R186, R188, R189) -/

/-- A file path, as its characters. -/
abbrev Path := List Char

/-- What the host's file system holds, and what it refuses. -/
structure Files where
  /-- The files that exist: path and contents. -/
  stored : List (Path × List Byte)
  /-- The paths at which a file, though it exists, cannot be opened or read (R189). -/
  unreadable : List Path
  /-- The paths at which no file can be written (R189). -/
  unwritable : List Path
  deriving DecidableEq, Repr

/-- The suffix of a compressed file. -/
def zipped : Path := ['.', 'z', 'i', 'p', 'p', 'e', 'd']

/-- The contents stored at a path, `none` where no file exists. -/
def lookupFile : List (Path × List Byte) → Path → Option (List Byte)
  | [], _ => none
  | (q, bytes) :: fs, p => if q = p then some bytes else lookupFile fs p

/-- R189: reading a whole file. IOError where none exists, or where it cannot be opened or read. -/
def readFile (fs : Files) (p : Path) : Except HostError (List Byte) :=
  if p ∈ fs.unreadable then .error .ioError
  else
    match lookupFile fs.stored p with
    | some bytes => .ok bytes
    | none => .error .ioError

/-- R188, R189: the complete output file takes its place in one move; IOError where it cannot be written. DESIGN CHOICE
(assumption 15): a file that already exists at the path is replaced. The spec says neither that it is nor that it is
kept. -/
def placeFile (fs : Files) (p : Path) (bytes : List Byte) : Except HostError Files :=
  if p ∈ fs.unwritable then .error .ioError
  else .ok { fs with stored := (p, bytes) :: fs.stored.filter fun f => f.1 != p }

/-- R186 step 1, R189: the output path of Uncompress. A path that does not end in ".zipped", or is exactly that, is
ambiguous. -/
def unzippedPath (p : Path) : Except HostError Path :=
  if zipped.isSuffixOf p ∧ p ≠ zipped then .ok (p.take (p.length - zipped.length)) else .error .ambiguousOutputPathError

/-- R185 `Compress(path)`: the files after it. On an error, that of writing the output included, there is no new file
and the files stay as they were (R188). -/
def compress (path : Path) (fs : Files) (s : State) : Except HostError (Files × State) :=
  (readFile fs path).bind fun input =>
    (compressBytes input s).bind fun r =>
      (placeFile fs (path ++ zipped) r.1).map fun fs' => (fs', r.2)

/-- R186 `Uncompress(path)`: the files after it. On an error, that of writing the output included, there is no new file
and the files stay as they were (R188). -/
def uncompress (path : Path) (fs : Files) (s : State) : Except HostError (Files × State) :=
  (unzippedPath path).bind fun out =>
    (readFile fs path).bind fun bytes =>
      (uncompressBytes bytes s).bind fun r =>
        (placeFile fs out r.1).map fun fs' => (fs', r.2)

end Sys2Proof.HostRef
end

