-- ==== Sys2Proof/Machine/DecodeTree.lean ====
section
/-! DEFINITION. The decode tree D(T) of a code table (spec/42_decode.md R137), which is no state but a function of T
(10_state.md R48), and the trie an implementation may hold instead of the table (40_code_table.md R93, R96): the
source's rebuild, "walk each codeword, creating internal nodes as needed, attaching the symbol at the terminal leaf". -/

namespace Sys2Proof.Machine

/-- R137: the nodes of D(T), the root `[]` included. -/
abbrev IsNode (t : Table) (p : Bits) : Prop := p = [] ∨ ∃ e ∈ t, p <+: e.2

/-- R137: node `p` is a leaf holding `s`. -/
abbrev IsLeaf (t : Table) (p : Bits) (s : Byte) : Prop := (s, p) ∈ t

/-- R137: node `p` is internal. -/
abbrev IsInternal (t : Table) (p : Bits) : Prop := IsNode t p ∧ ¬ ∃ s, IsLeaf t p s

/-- A stored trie: left edge 0, right edge 1. `empty` is a missing child. -/
inductive Trie where
  | empty
  | leaf (s : Byte)
  | node (l r : Trie)
  deriving DecidableEq, Repr

/-- The child along a bit. -/
def trieChild : Trie → Bool → Trie
  | .node l _, false => l
  | .node _ r, true => r
  | .empty, _ | .leaf _, _ => .empty

/-- The subtree at a path from the root. -/
def trieAt : Trie → Bits → Trie
  | tr, [] => tr
  | tr, b :: p => trieAt (trieChild tr b) p

/-- One walk of the rebuild. `none` where it would pass through an existing leaf, or end at an internal node or at a
leaf that already holds a symbol (R93, the TBL_PREFIX case). -/
def trieInsert : Trie → Bits → Byte → Option Trie
  | .empty, [], s => some (.leaf s)
  | .empty, false :: p, s => (trieInsert .empty p s).map fun c => .node c .empty
  | .empty, true :: p, s => (trieInsert .empty p s).map fun c => .node .empty c
  | .leaf _, _, _ => none
  | .node _ _, [], _ => none
  | .node l r, false :: p, s => (trieInsert l p s).map fun c => .node c r
  | .node l r, true :: p, s => (trieInsert r p s).map fun c => .node l c

/-- The rebuild of a whole table, from a root that is an internal node without children. -/
def trieOfEntries : Table → Trie → Option Trie
  | [], tr => some tr
  | (s, c) :: t, tr => (trieInsert tr c s).bind (trieOfEntries t)

/-- D(T) as a stored trie. -/
def trieOf (t : Table) : Option Trie := trieOfEntries t (.node .empty .empty)

/-- The decode walk over a whole bit string from cursor `cur` (42_decode.md R130, R134), as a function of the table
alone: the symbols emitted and the cursor after the last bit, or `none` where a move requires a missing child. -/
def walkBits (t : Table) : Bits → Bits → Option (List Byte × Bits)
  | cur, [] => some ([], cur)
  | cur, b :: bs =>
    match tableLeaf t (cur ++ [b]) with
    | some s => (walkBits t [] bs).map fun r => (s :: r.1, r.2)
    | none => if tableInner t (cur ++ [b]) then walkBits t (cur ++ [b]) bs else none

/-- HPNSS §3, R110: the payload of a symbol sequence, the codewords in order, or `none` where a symbol has none. -/
def encodeBits (t : Table) : List Byte → Option Bits
  | [] => some []
  | s :: ss => (tableGet t s).bind fun c => (encodeBits t ss).map fun p => c ++ p

end Sys2Proof.Machine
end

