-- ==== Sys2Proof/Safety.lean ====
section
/-! DEFINITION. What a good state is (spec/10_state.md R44), and what a complete stream and a completed run are
(70_reset_and_hazards.md R242). -/

namespace Sys2Proof.Machine

/-- R40, R44 (b): the codewords of different symbols are not prefixes of each other. -/
abbrev PrefixFree (t : Table) : Prop := ∀ a ∈ t, ∀ b ∈ t, a.1 ≠ b.1 → ¬ a.2 <+: b.2

/-- R40: every valid entry has 1 ≤ L ≤ CODE_LEN_MAX. -/
abbrev LengthsOk (t : Table) : Prop := ∀ e ∈ t, 1 ≤ e.2.length ∧ e.2.length ≤ Config.codeLenMax

/-- A code table as the spec has it: canonical, prefix-free, lengths in range (R40, R44 (b)). -/
structure TableOk (t : Table) : Prop where
  wf : Table.wf t
  lengths : LengthsOk t
  prefixFree : PrefixFree t

/-- The invariant of R44, with what the other rules say of every reachable state. R44 (a) holds by the type of MODE. -/
structure Inv (s : State) : Prop where
  /-- R6: OUT_DEPTH is in its range. -/
  depth : s.cfg.InRange
  /-- R44 (b). -/
  table : TableOk s.table
  /-- R44 (c). -/
  curRoot : s.err = none → s.mode ≠ .dec → s.cur = []
  /-- R44 (d). -/
  curInner : s.err = none → s.mode = .dec → s.cur = [] ∨ ∃ e ∈ s.table, s.cur <+: e.2 ∧ s.cur.length < e.2.length
  /-- R41: CUR holds at most CURSOR_MAX bits, in the error state too. -/
  curLen : s.cur.length ≤ Config.cursorMax
  /-- R44 (e). -/
  accEmpty : s.mode ≠ .enc ∨ s.err ≠ none → s.acc = []
  /-- R44 (f). -/
  accLen : s.acc.length ≤ 7
  /-- R44 (g). -/
  outqLen : outqLevel s ≤ s.cfg.outDepth
  /-- R114: in ENC a byte stays free for the push of ENC_FLUSH. -/
  flushRoom : s.mode = .enc → outqLevel s < s.cfg.outDepth
  /-- R44 (h). -/
  errEmpty : s.err ≠ none → s.outq = []
  /-- R44 (i). -/
  endRoot : s.err = none → s.mode = .dec → s.decRem = 0 → s.cur = []
  /-- R35: DEC_REM counts only in a decode stream: DEC_START alone sets it to anything but 0, and DEC_FINISH needs 0. -/
  remZero : s.mode ≠ .dec → s.decRem = 0
  /-- R49: ERR_INFO is 0 when there is no error. -/
  noErrInfo : s.err = none → s.errInfo = 0
  /-- R37, 93 I7: bits [30:16] of TBL_INFO are 0. -/
  tblInfoZero : s.tblInfo.extractLsb' 16 15 = 0

/-! ### Runs and complete streams (R242) -/

/-- R242: a run, the host's accesses of a script performed in order. Its end state is the state after the last one. -/
def runScript : List Access → State → Outcome
  | [], s => .next s
  | a :: as, s =>
    match performAccess a s with
    | .next t => runScript as t
    | .fault f => .fault f
    | .refused r => .refused r

/-- R242: the end state of a run with ERR = 0 throughout, before and after every access; `none` where ERR is not 0
somewhere, or where an access is not performed. -/
def runClean : List Access → State → Option State
  | [], s => if s.err = none then some s else none
  | a :: as, s =>
    if s.err = none then
      match performAccess a s with
      | .next t => runClean as t
      | .fault _ | .refused _ => none
    else none

/-- How a stream opens and how it closes (41_encode.md R110, 42_decode.md R130). -/
inductive StreamEnds : Access → Access → Prop
  | enc : StreamEnds (encode .encStart) (encode .encFlush)
  | dec : StreamEnds (encode .decStart) (encode .decFinish)

/-- R242: a complete stream from `s` to `t`. It opens with `first`, and `last`, the next command that closes a stream,
is ENC_FLUSH or DEC_FINISH (R110, R130: ABORT would end the stream too), all with ERR = 0 throughout. -/
structure CompleteStream (first : Access) (body : List Access) (last : Access) (s t : State) : Prop where
  ends : StreamEnds first last
  inside : ∀ a ∈ body, a ≠ encode .abort ∧ a ≠ encode .encFlush ∧ a ≠ encode .decFinish
  clean : runClean (first :: (body ++ [last])) s = some t

/-- R242: a run that is a completed compression or decompression. It has a complete stream, after which the host only
reads (92_eei_decisions.md D38; assumption 16), and it ends with no stream open and no output unread. -/
structure CompletedRun (script : List Access) (s t : State) : Prop where
  stream : ∃ before first body last after u v, script = before ++ first :: (body ++ last :: after) ∧
    runScript before s = .next u ∧ CompleteStream first body last u v ∧ runScript after v = .next t ∧
    ∀ a ∈ after, ∃ off, a = .read off 4
  closed : t.mode = .idle
  drained : t.outq = []

/-- An operation's outcome is a next state. -/
abbrev Completes (o : Outcome) : Prop := ∃ t, o = .next t

/-- 60_exceptions.md R202: the errors an operation can raise, by row. An illegal command word, which is no operation, can
raise BAD_CMD. -/
def mayRaise : Instr → List Cause
  | .nop | .abort | .tblRead _ => []
  | .outPop | .ctrlWr _ | .decBitsWr _ | .cwWr _ _ | .regRd _ | .regWi _ _ => []
  | .tblClear | .encStart | .decStart | .encFlush => [.seq]
  | .tblAdd _ _ => [.seq, .tblLen, .tblDup, .tblPrefix]
  | .decFinish => [.seq, .truncated]
  | .encByte _ => [.overrun, .missingCode]
  | .decByte _ => [.seq, .overrun, .noChild, .truncated]
  | .dinIdle _ => [.seq]

/-- R22: the change of MODE that performing an operation makes, from and to. -/
abbrev ModeChange (i : Instr) (m m' : Mode) : Prop :=
  (i = .encStart ∧ m = .idle ∧ m' = .enc) ∨ (i = .encFlush ∧ m = .enc ∧ m' = .idle) ∨
    (i = .decStart ∧ m = .idle ∧ m' = .dec) ∨ (i = .decFinish ∧ m = .dec ∧ m' = .idle) ∨
    (i = .abort ∧ m' = .idle)

/-- The bytes in words read at DATA_OUT: those with VALID = 1 (30_encoding.md R75). -/
def validBytes (ws : List Word) : List Byte :=
  (ws.filter fun w => w.getLsbD 31).map fun w => w.extractLsb' 0 8

/-- Of the words `ws` that the reads among `is` returned, those that the reads of DATA_OUT returned. OUT_POP and REG_RD
return one word each, and no other operation returns any (20_memory.md R54). -/
def popWords : List Instr → List Word → List Word
  | [], _ => []
  | .outPop :: is, ws => ws.take 1 ++ popWords is (ws.drop 1)
  | .regRd _ :: is, ws => popWords is (ws.drop 1)
  | _ :: is, ws => popWords is ws

/-- The bytes the host takes from DATA_OUT while it performs `is`, whose reads returned `ws`. -/
def takenBytes (is : List Instr) (ws : List Word) : List Byte := validBytes (popWords is ws)

/-- The symbols or packed bytes a list of operations writes to DATA_IN in a stream. -/
def dataBytes : List Instr → List Byte
  | [] => []
  | .encByte v :: is => v.extractLsb' 0 8 :: dataBytes is
  | .decByte v :: is => v.extractLsb' 0 8 :: dataBytes is
  | _ :: is => dataBytes is

/-- The operations that a host may perform inside an open stream beside its data writes: in a stream they raise nothing,
and they change nothing of it but the bytes that OUT_POP takes. The polls of STATUS (30_encoding.md R80) are among them.
Of the others, TBL_CLEAR, TBL_ADD and the two that open a stream raise SEQ inside one (60_exceptions.md R208), and the
rest close it. -/
def besideStream (i : Instr) : Bool :=
  match i with
  | .nop | .outPop | .ctrlWr _ | .decBitsWr _ | .cwWr _ _ | .tblRead _ | .regWi _ _ => true
  | .regRd r => r.wellFormed && r != .dataOut
  | .abort | .tblClear | .tblAdd _ _ | .encStart | .encFlush | .decStart | .decFinish | .encByte _ | .decByte _
  | .dinIdle _ => false

/-- What the host does inside an encode stream. -/
def encodeOps (is : List Instr) : Prop := ∀ i ∈ is, besideStream i = true ∨ ∃ v, i = .encByte v

/-- What the host does inside a decode stream. -/
def decodeOps (is : List Instr) : Prop := ∀ i ∈ is, besideStream i = true ∨ ∃ v, i = .decByte v

/-- The machine performs `is` one after the other. -/
def execAll : List Instr → State → Outcome
  | [], s => .next s
  | i :: is, s =>
    match exec i s with
    | .next t => execAll is t
    | .fault f => .fault f
    | .refused r => .refused r

end Sys2Proof.Machine
end

