-- ==== Sys2Proof/Certificates/Slice0/Obligations.lean ====
section
/-! DEFINITION. The statements for the provers, from the numbered rules of spec/. Each docstring names the rule it
formalises. The state after an operation is written as an update of the state before it, so that every field not named
is unchanged: that is the operation's frame. -/

open Sys2Proof
open Sys2Proof.Machine

/-! ### Encoding and decoding -/

/-- R70 to R79: decoding the access that encodes a well-formed operation, in the mode that selects its row, gives the
operation back, at every operand. -/
def Obligations.DecodeOfEncodeIsTheInstruction : Prop :=
  ∀ (m : Mode) (i : Instr), i.wellFormed = true → i.selectedIn m = true → decode m (encode i) = .ok i

/-- R73, R77, R78: an access decodes to one operation only. It is the access that encodes that operation, which is well
formed and selected in the mode. -/
def Obligations.EncodeOfDecodeIsTheAccess : Prop :=
  ∀ (m : Mode) (a : Access) (i : Instr), decode m a = .ok i →
    encode i = a ∧ i.wellFormed = true ∧ i.selectedIn m = true

/-- R72: the exact words and the masked words of the nine commands, with the operands of TBL_ADD and TBL_READ. -/
def Obligations.CommandWordsMatchTheirPatterns : Prop :=
  ∀ w : Word,
    (decodeCmd w = some .nop ↔ w = 0x00000000#32) ∧
    (decodeCmd w = some .abort ↔ w = 0x00000001#32) ∧
    (decodeCmd w = some .tblClear ↔ w = 0x00000010#32) ∧
    (decodeCmd w = some .encStart ↔ w = 0x00000020#32) ∧
    (decodeCmd w = some .encFlush ↔ w = 0x00000021#32) ∧
    (decodeCmd w = some .decStart ↔ w = 0x00000030#32) ∧
    (decodeCmd w = some .decFinish ↔ w = 0x00000031#32) ∧
    (∀ sym len : Byte, decodeCmd w = some (.tblAdd sym len) ↔
      w &&& 0xFF0000FF#32 = 0x00000011#32 ∧ sym = w.extractLsb' 8 8 ∧ len = w.extractLsb' 16 8) ∧
    (∀ sym : Byte, decodeCmd w = some (.tblRead sym) ↔
      w &&& 0xFFFF00FF#32 = 0x00000012#32 ∧ sym = w.extractLsb' 8 8)

/-- R73: a word is illegal exactly when it matches none of the nine commands, and writing it to CMD raises BAD_CMD when
ERR = 0 and is ignored when ERR ≠ 0. -/
def Obligations.IllegalWordsRaiseBadCmd : Prop :=
  (∀ w : Word, decodeCmd w = none ↔
    w ∉ [0x00000000#32, 0x00000001#32, 0x00000010#32, 0x00000020#32, 0x00000021#32, 0x00000030#32, 0x00000031#32] ∧
      w &&& 0xFF0000FF#32 ≠ 0x00000011#32 ∧ w &&& 0xFFFF00FF#32 ≠ 0x00000012#32) ∧
  ∀ (s : State) (w : Word), s.rstAsserted = false → decodeCmd w = none →
    performAccess (.write 0x0C#8 4 w) s = if s.err = none then .next (raise .badCmd w s) else .next s

/-- Words written out from the spec's encodings (30_encoding.md R70, R72, R79; the programs of 95_test_vectors.md), one
or more of each family. -/
def Obligations.WrittenOutWordsDecode : Prop :=
  decode .idle (.write 0x0C#8 4 0x00030011#32) = .ok (.tblAdd 0x00#8 0x03#8) ∧
  decode .idle (.write 0x0C#8 4 0x00FF0911#32) = .ok (.tblAdd 0x09#8 0xFF#8) ∧
  decode .enc (.write 0x0C#8 4 0x00000212#32) = .ok (.tblRead 0x02#8) ∧
  decode .enc (.write 0x0C#8 4 0x00000021#32) = .ok .encFlush ∧
  decode .dec (.write 0x0C#8 4 0x00000031#32) = .ok .decFinish ∧
  decode .dec (.write 0x10#8 4 0x000000DF#32) = .ok (.decByte 0x000000DF#32) ∧
  decode .idle (.read 0x14#8 4) = .ok .outPop ∧
  decode .idle (.write 0x5C#8 4 0xFFFFFFFF#32) = .ok (.cwWr 7 0xFFFFFFFF#32) ∧
  decode .idle (.write 0x0C#8 4 0x00010012#32) = .error (.illegalCommand 0x00010012#32)

/-! ### The bus, the step and reset -/

/-- R10, R53, R59, R242: a step performs exactly the next pending access. The operation the access decodes to runs on
the state with that access taken off; with nothing pending nothing changes. -/
def Obligations.StepPerformsTheNextAccess : Prop :=
  (∀ (s : State) (a : Access) (rest : List HostEvent) (i : Instr), s.pending = .access a :: rest →
    s.rstAsserted = false → decode s.mode a = .ok i → step s = exec i { s with pending := rest }) ∧
  (∀ (s : State) (rest : List HostEvent) (i : Instr), s.pending = .access (encode i) :: rest →
    s.rstAsserted = false → i.wellFormed = true → i.selectedIn s.mode = true →
    step s = exec i { s with pending := rest }) ∧
  ∀ s : State, s.pending = [] → step s = .next s

/-- R51: an access of another width than 32 bits is refused, and so is one at an offset that is not a multiple of 4. -/
def Obligations.OtherAccessesAreRefused : Prop :=
  ∀ (s : State) (a : Access), s.rstAsserted = false →
    (a.size ≠ 4 → performAccess a s = .refused .accessSize) ∧
    (a.size = 4 → a.off.toNat % 4 ≠ 0 → performAccess a s = .refused .misaligned)

/-- R230, R46: while `rst_n` is asserted every host access is refused; the event that asserts it makes it asserted; when
it is released every piece of state holds its reset value, and `irq` is 0. What the engine's registers hold while
`rst_n` is asserted is the model's choice (assumption 4), and nothing is said of it here. -/
def Obligations.ResetReleaseGivesTheResetValues : Prop :=
  (∀ (s : State) (a : Access), s.rstAsserted = true → performAccess a s = .refused .duringReset) ∧
  (∀ (s : State) (rest : List HostEvent), s.pending = .resetAssert :: rest →
    ∃ t, step s = .next t ∧ t.rstAsserted = true ∧ t.cfg = s.cfg ∧ t.pending = rest ∧ t.returned = s.returned) ∧
  (∀ (s : State) (a : Access) (rest : List HostEvent), s.pending = .resetAssert :: .access a :: rest →
    ∃ t, step s = .next t ∧ step t = .refused .duringReset) ∧
  ∀ (s : State) (rest : List HostEvent), s.pending = .resetRelease :: rest →
    ∃ t, step s = .next t ∧ t.rstAsserted = false ∧ t.mode = .idle ∧ t.err = none ∧ t.errInfo = 0 ∧
      t.ieErr = false ∧ t.ieOut = false ∧ t.ieIn = false ∧ t.decBits = 0 ∧ t.bitcnt = 0 ∧ t.symcnt = 0 ∧
      t.decRem = 0 ∧ t.tblInfo = 0 ∧ (∀ k : Fin 8, t.cw[k] = 0) ∧ (∀ sym, tableGet t.table sym = none) ∧
      t.cur = [] ∧ t.acc = [] ∧ t.outq = [] ∧ irq t = false ∧ readReg .id t = 0x48554601#32 ∧
      t.cfg = s.cfg ∧ t.pending = rest ∧ t.returned = s.returned

/-- R152: the dispatch of a word written to CMD. -/
def Obligations.CommandDispatch : Prop :=
  ∀ (s : State) (w : Word), s.rstAsserted = false →
    (s.err ≠ none → w = 0x00000001#32 → performAccess (.write 0x0C#8 4 w) s = .next (abortState s)) ∧
    (s.err ≠ none → w ≠ 0x00000001#32 → performAccess (.write 0x0C#8 4 w) s = .next s) ∧
    (s.err = none → decodeCmd w = none → performAccess (.write 0x0C#8 4 w) s = .next (raise .badCmd w s)) ∧
    (∀ i, s.err = none → decodeCmd w = some i → performAccess (.write 0x0C#8 4 w) s = exec i s)

/-- R159: the dispatch of a word written to DATA_IN, and DIN_IDLE, which raises SEQ. -/
def Obligations.DataWriteDispatch : Prop :=
  ∀ (s : State) (v : Word), s.rstAsserted = false →
    (s.err ≠ none → performAccess (.write 0x10#8 4 v) s = .next s) ∧
    (s.err = none → s.mode = .idle → performAccess (.write 0x10#8 4 v) s = exec (.dinIdle v) s) ∧
    (s.err = none → s.mode = .idle → exec (.dinIdle v) s =
      .next { s with err := some .seq, errInfo := v, outq := [], acc := [] }) ∧
    (s.err = none → s.mode = .enc → performAccess (.write 0x10#8 4 v) s = exec (.encByte v) s) ∧
    (s.err = none → s.mode = .dec → performAccess (.write 0x10#8 4 v) s = exec (.decByte v) s)

/-! ### Control -/

/-- R150, R158, R81: NOP and a write to an RO or reserved register change nothing, in any mode and in the error state. -/
def Obligations.NopAndIgnoredWritesChangeNothing : Prop :=
  (∀ s : State, exec .nop s = .next s) ∧
  (∀ s : State, s.rstAsserted = false → performAccess (.write 0x0C#8 4 0x00000000#32) s = .next s) ∧
  (∀ (s : State) (r : Reg) (v : Word), r.wellFormed = true → r.writeIgnored = true →
    exec (.regWi r v) s = .next s) ∧
  ∀ (s : State) (r : Reg) (v : Word), s.rstAsserted = false → r.wellFormed = true → r.writeIgnored = true →
    performAccess (.write (regOffset r) 4 v) s = .next s

/-- R151, R207: ABORT, in any mode and in the error state, ends the stream and the error, keeps everything else, and
leaves STATUS reading 0 and `irq` 0 whatever CTRL holds. -/
def Obligations.AbortEndsStreamAndError : Prop :=
  ∀ s : State, ∃ t, exec .abort s = .next t ∧
    t = { s with err := none, errInfo := 0, mode := .idle, cur := [], acc := [], outq := [], decRem := 0 } ∧
    readReg .status t = 0x00000000#32 ∧ irq t = false

/-- R156, R31, R75: a read of DATA_OUT, in every mode and in the error state, and a write there, which is ignored. -/
def Obligations.OutPopTakesTheOldestByte : Prop :=
  ∀ s : State,
    (s.rstAsserted = false → performAccess (.read 0x14#8 4) s = exec .outPop s) ∧
    (∀ v, s.rstAsserted = false → performAccess (.write 0x14#8 4 v) s = .next s) ∧
    (s.outq = [] → exec .outPop s = .next { s with returned := s.returned ++ [0x00000000#32] }) ∧
    ∀ (b : Byte) (rest : List Byte), s.outq = b :: rest →
      ∃ w : Word, exec .outPop s = .next { s with outq := rest, returned := s.returned ++ [w] } ∧
        w.getLsbD 31 = true ∧ w.extractLsb' 8 23 = 0#23 ∧ w.extractLsb' 0 8 = b

/-- R153: CTRL_WR takes the enables from bits [2:0], ignores the rest, which read back 0, and changes nothing else.
STATUS.IRQ and the `irq` output follow at once. -/
def Obligations.CtrlWriteSetsTheEnables : Prop :=
  ∀ (s : State) (v : Word), ∃ t, exec (.ctrlWr v) s = .next t ∧
    t = { s with ieErr := v.getLsbD 0, ieOut := v.getLsbD 1, ieIn := v.getLsbD 2 } ∧
    readReg .ctrl t = v &&& 0x00000007#32 ∧ (readReg .status t).getLsbD 16 = irq t ∧
    (irq t = true ↔ (v.getLsbD 0 = true ∧ s.err ≠ none) ∨ (v.getLsbD 1 = true ∧ s.outq ≠ []) ∨
      (v.getLsbD 2 = true ∧ inRdy s = true))

/-- R154, R155, R238: writes of CWk and DEC_BITS store the word, in every mode and in the error state, and change
nothing else: not DEC_REM, and not another staging word. The word reads back. -/
def Obligations.StagingAndBitCountWritesStore : Prop :=
  ∀ (s : State) (v : Word),
    (exec (.decBitsWr v) s = .next { s with decBits := v }) ∧
    (∀ t, exec (.decBitsWr v) s = .next t → readReg .decBits t = v) ∧
    ∀ k : Fin 8, ∃ t, exec (.cwWr k v) s = .next t ∧ t = { s with cw := t.cw } ∧
      ∀ j : Fin 8, readReg (.cw j) t = if j = k then v else readReg (.cw j) s

/-- R157: REG_RD returns the register's value to the host and changes nothing. The values of the registers that hold
one, and of ID and CTRL; STATUS, TBL_COUNT and CURSOR have statements of their own. -/
def Obligations.RegisterReadsChangeNothing : Prop :=
  (∀ (s : State) (r : Reg), r.wellFormed = true → r ≠ .dataOut →
    exec (.regRd r) s = .next { s with returned := s.returned ++ [readReg r s] } ∧
    (s.rstAsserted = false →
      performAccess (.read (regOffset r) 4) s = .next { s with returned := s.returned ++ [readReg r s] })) ∧
  ∀ s : State, readReg .id s = 0x48554601#32 ∧ readReg .decBits s = s.decBits ∧ readReg .bitcnt s = s.bitcnt ∧
    readReg .symcnt s = s.symcnt ∧ readReg .decRem s = s.decRem ∧ readReg .tblInfo s = s.tblInfo ∧
    readReg .errInfo s = s.errInfo ∧ (∀ k : Fin 8, readReg (.cw k) s = s.cw[k]) ∧ readReg .cmd s = 0 ∧
    readReg .dataIn s = 0 ∧ (∀ w, readReg (.reserved w) s = 0) ∧
    (readReg .ctrl s).getLsbD 0 = s.ieErr ∧ (readReg .ctrl s).getLsbD 1 = s.ieOut ∧
    (readReg .ctrl s).getLsbD 2 = s.ieIn ∧ (readReg .ctrl s).extractLsb' 3 29 = 0#29

/-- R45: by offset, a reserved word reads 0 and ignores writes, CMD and DATA_IN read 0, and a write to an RO register is
ignored. -/
def Obligations.ReservedOffsetsReadZeroAndIgnoreWrites : Prop :=
  ∀ (s : State) (off : Byte) (v : Word), s.rstAsserted = false → off.toNat % 4 = 0 →
    (off = 0x38#8 ∨ off = 0x3C#8 ∨ 0x60 ≤ off.toNat →
      performAccess (.read off 4) s = .next { s with returned := s.returned ++ [0x00000000#32] } ∧
      performAccess (.write off 4 v) s = .next s) ∧
    (off = 0x0C#8 ∨ off = 0x10#8 →
      performAccess (.read off 4) s = .next { s with returned := s.returned ++ [0x00000000#32] }) ∧
    (off ∈ [0x00#8, 0x08#8, 0x14#8, 0x1C#8, 0x20#8, 0x24#8, 0x28#8, 0x2C#8, 0x30#8, 0x34#8] →
      performAccess (.write off 4 v) s = .next s)

/-! ### Status, counters and the interrupt -/

/-- R26: the fields of STATUS, with the numbers of ERR (R200) and MODE (R22), and its value after reset. -/
def Obligations.StatusFields : Prop :=
  readReg .status State.reset = 0x00000000#32 ∧ ∀ s : State, outqLevel s ≤ 127 →
    (readReg .status s).extractLsb' 0 4 =
      (match s.err with
      | none => 0#4
      | some .missingCode => 1#4
      | some .noChild => 2#4
      | some .truncated => 3#4
      | some .tblLen => 4#4
      | some .tblDup => 5#4
      | some .tblPrefix => 6#4
      | some .overrun => 7#4
      | some .seq => 8#4
      | some .badCmd => 9#4) ∧
    (readReg .status s).extractLsb' 4 2 =
      (match s.mode with
      | .idle => 0#2
      | .enc => 1#2
      | .dec => 2#2) ∧
    (readReg .status s).getLsbD 6 = inRdy s ∧
    (readReg .status s).getLsbD 7 = decide (0 < outqLevel s) ∧
    ((readReg .status s).extractLsb' 8 7).toNat = outqLevel s ∧
    (readReg .status s).getLsbD 15 = decide (s.mode = .dec ∧ s.decRem = 0 ∧ s.err = none) ∧
    (readReg .status s).getLsbD 16 = irq s ∧
    (readReg .status s).extractLsb' 17 15 = 0#15

/-- R27: IN_RDY, and that it says whether a data write is accepted: with ERR = 0 a data write raises SEQ or OVERRUN
exactly when IN_RDY is 0. -/
def Obligations.InputReadySaysWhetherADataWriteIsAccepted : Prop :=
  ∀ s : State, s.cfg.InRange →
    (inRdy s = true ↔ s.err = none ∧
      ((s.mode = .enc ∧ outqLevel s ≤ s.cfg.outDepth - 33) ∨
        (s.mode = .dec ∧ s.decRem ≠ 0 ∧ outqLevel s ≤ s.cfg.outDepth - 8))) ∧
    ∀ (v : Word) (t : State), s.rstAsserted = false → s.err = none → performAccess (.write 0x10#8 4 v) s = .next t →
      (inRdy s = false ↔ t.err = some .seq ∨ t.err = some .overrun)

/-- R38: the fields of CURSOR. -/
def Obligations.CursorFields : Prop :=
  ∀ s : State, s.cur.length ≤ 254 → s.acc.length ≤ 7 →
    ((readReg .cursor s).extractLsb' 0 8).toNat = s.cur.length ∧
    ((readReg .cursor s).extractLsb' 8 3).toNat = s.acc.length ∧
    (readReg .cursor s).extractLsb' 11 5 = 0#5 ∧
    (readReg .cursor s).extractLsb' 16 8 = pad8 s.acc ∧
    (readReg .cursor s).extractLsb' 24 8 = 0#8

/-- R36: TBL_COUNT reads the number of symbols whose entry is valid. -/
def Obligations.TableCountCountsValidEntries : Prop :=
  ∀ s : State, Table.wf s.table →
    ((readReg .tblCount s).toNat = (HostRef.symbols.filter fun sym => (tableGet s.table sym).isSome).length) ∧
    (readReg .tblCount s).toNat ≤ 256

/-- R210: the interrupt output, source by source. STATUS.IRQ reads it; it is 0 after reset. -/
def Obligations.InterruptLevel : Prop :=
  (∀ s : State, irq s = true ↔
    (s.ieErr = true ∧ s.err ≠ none) ∨ (s.ieOut = true ∧ outqLevel s > 0) ∨ (s.ieIn = true ∧ inRdy s = true)) ∧
  (∀ s : State, (readReg .status s).getLsbD 16 = irq s) ∧ irq State.reset = false ∧
  ∀ s : State, s.ieErr = false → s.ieOut = false → s.ieIn = false → irq s = false

/-! ### The code table -/

/-- R92: TBL_CLEAR. -/
def Obligations.TableClearEmptiesTheTable : Prop :=
  ∀ s : State, s.err = none →
    (s.mode = .idle → ∃ t, exec .tblClear s = .next t ∧ t = { s with table := t.table, tblInfo := 0 } ∧
      (∀ sym, tableGet t.table sym = none) ∧ readReg .tblCount t = 0) ∧
    (s.mode ≠ .idle → exec .tblClear s =
      .next { s with err := some .seq, errInfo := 0x00000010#32, outq := [], acc := [] })

/-- R93: TBL_ADD, the checks in their order and the entry added. `code` is the staged codeword, and the recorded word is
0x11 | SYM << 8 | LEN << 16. -/
def Obligations.TableAddChecksAndAdds : Prop :=
  ∀ (s : State) (sym len : Byte), s.err = none → Table.wf s.table →
    let w : Word := 0x00000011#32 ||| (sym.setWidth 32 <<< 8) ||| (len.setWidth 32 <<< 16)
    let code := stageCode s.cw len.toNat
    let fail := fun e : Cause => ({ s with err := some e, errInfo := w, outq := [], acc := [] } : State)
    let clash := ∃ other c, tableGet s.table other = some c ∧ (code <+: c ∨ c <+: code)
    (s.mode ≠ .idle → exec (.tblAdd sym len) s = .next (fail .seq)) ∧
    (s.mode = .idle → len = 0 → exec (.tblAdd sym len) s = .next (fail .tblLen)) ∧
    (s.mode = .idle → len ≠ 0 → tableGet s.table sym ≠ none → exec (.tblAdd sym len) s = .next (fail .tblDup)) ∧
    (s.mode = .idle → len ≠ 0 → tableGet s.table sym = none → clash →
      exec (.tblAdd sym len) s = .next (fail .tblPrefix)) ∧
    (s.mode = .idle → len ≠ 0 → tableGet s.table sym = none → ¬ clash →
      ∃ t, exec (.tblAdd sym len) s = .next t ∧ t = { s with table := t.table } ∧ Table.wf t.table ∧
        (∀ other, tableGet t.table other = if other = sym then some code else tableGet s.table other) ∧
        tblCount t.table = tblCount s.table + 1)

/-- R91, R39: a staged codeword has the length asked for, and its bit `i` is CW[i div 32][31 - (i mod 32)]. Staging bits
from `n` on are not read: a buffer that differs only there stages the same codeword. -/
def Obligations.StagedCodewordBits : Prop :=
  ∀ (s : State) (n : Nat), 1 ≤ n → n ≤ 255 →
    (stageCode s.cw n).length = n ∧
    (∀ (i : Nat) (k : Fin 8), i < n → k.val = i / 32 →
      (stageCode s.cw n)[i]? = some ((readReg (.cw k) s).getLsbD (31 - i % 32))) ∧
    ∀ t : State, (∀ (i : Nat) (k : Fin 8), i < n → k.val = i / 32 →
      (readReg (.cw k) t).getLsbD (31 - i % 32) = (readReg (.cw k) s).getLsbD (31 - i % 32)) →
      stageCode t.cw n = stageCode s.cw n

/-- R94: TBL_READ, in every mode, for a valid and for an invalid entry. It changes TBL_INFO and the staging buffer only,
so a stream is not disturbed. In the error state it is ignored. -/
def Obligations.TableReadShowsTheEntry : Prop :=
  ∀ (s : State) (sym : Byte), (s.err ≠ none → exec (.tblRead sym) s = .next s) ∧ (s.err = none →
    ∃ t, exec (.tblRead sym) s = .next t ∧ t = { s with tblInfo := t.tblInfo, cw := t.cw } ∧
      (tableGet s.table sym = none → t.tblInfo = sym.setWidth 32 ∧ ∀ k : Fin 8, t.cw[k] = 0) ∧
      ∀ c, tableGet s.table sym = some c → c.length ≤ 255 →
        t.tblInfo.getLsbD 31 = true ∧ t.tblInfo.extractLsb' 16 15 = 0#15 ∧
        (t.tblInfo.extractLsb' 8 8).toNat = c.length ∧ t.tblInfo.extractLsb' 0 8 = sym ∧
        ∀ i, i < 256 → stagingBit t.cw i = c.getD i false)

/-- R93, R94: what TBL_ADD loaded TBL_READ stages again, so that the same codeword is read back. -/
def Obligations.TableReadReturnsWhatTableAddLoaded : Prop :=
  ∀ (s t u : State) (sym len : Byte), exec (.tblAdd sym len) s = .next t → s.err = none → t.err = none →
    exec (.tblRead sym) t = .next u →
    stageCode u.cw len.toNat = stageCode s.cw len.toNat ∧ (u.tblInfo.extractLsb' 8 8) = len

/-- R93 corner case: the table does not depend on the order in which entries were added. -/
def Obligations.EntryOrderDoesNotMatter : Prop :=
  ∀ (t : Table) (a b : Byte) (c d : Bits), Table.wf t → a ≠ b →
    tableSet (tableSet t a c) b d = tableSet (tableSet t b d) a c

/-! ### Encoding a stream -/

/-- R111: ENC_START. -/
def Obligations.EncodeStartOpensAStream : Prop :=
  ∀ s : State, s.err = none →
    (s.mode = .idle → exec .encStart s =
      .next { s with mode := .enc, acc := [], outq := [], bitcnt := 0, symcnt := 0, decRem := 0 }) ∧
    (s.mode ≠ .idle → exec .encStart s =
      .next { s with err := some .seq, errInfo := 0x00000020#32, outq := [], acc := [] })

/-- R113: ENC_BYTE. With room, the codeword of the symbol v[7:0] is appended to the waiting bits, each full byte enters
OUTQ and the rest waits; the counters go on modulo 2^32. Without room OVERRUN, without a codeword MISSING_CODE. -/
def Obligations.EncodeByteAppendsTheCodeword : Prop :=
  ∀ (s : State) (v : Word), s.err = none → s.mode = .enc → s.cfg.InRange →
    (outqLevel s > s.cfg.outDepth - 33 → exec (.encByte v) s =
      .next { s with err := some .overrun, errInfo := v, outq := [], acc := [] }) ∧
    (outqLevel s ≤ s.cfg.outDepth - 33 → tableGet s.table (v.extractLsb' 0 8) = none → exec (.encByte v) s =
      .next { s with err := some .missingCode, errInfo := v, outq := [], acc := [] }) ∧
    ∀ c, outqLevel s ≤ s.cfg.outDepth - 33 → tableGet s.table (v.extractLsb' 0 8) = some c → c.length ≤ 255 →
      s.acc.length ≤ 7 →
      ∃ t, exec (.encByte v) s = .next t ∧ t = { s with
          outq := t.outq, acc := t.acc, bitcnt := s.bitcnt + BitVec.ofNat 32 c.length, symcnt := s.symcnt + 1 } ∧
        t.outq = s.outq ++ packBytes ((s.acc.length + c.length) / 8) (s.acc ++ c) ∧
        t.acc = (s.acc ++ c).drop (8 * ((s.acc.length + c.length) / 8))

/-- R110, R112: an accepted symbol appends exactly its codeword to the bits held in OUTQ and ACC. -/
def Obligations.EncodeByteExtendsThePayload : Prop :=
  ∀ (s t : State) (v : Word), s.err = none → s.mode = .enc → exec (.encByte v) s = .next t → t.err = none →
    ∃ c, tableGet s.table (v.extractLsb' 0 8) = some c ∧
      unpack t.outq ++ t.acc = unpack s.outq ++ s.acc ++ c ∧ s.outq <+: t.outq

/-- R115: ENC_FLUSH pushes the waiting bits with zero pad bits, if there are any, and closes the stream. BITCNT is not
changed. -/
def Obligations.EncodeFlushPadsAndCloses : Prop :=
  ∀ s : State, s.err = none →
    (s.mode ≠ .enc → exec .encFlush s =
      .next { s with err := some .seq, errInfo := 0x00000021#32, outq := [], acc := [] }) ∧
    (s.mode = .enc → s.acc = [] → exec .encFlush s = .next { s with mode := .idle }) ∧
    (s.mode = .enc → s.acc ≠ [] → outqLevel s < s.cfg.outDepth → exec .encFlush s =
      .next { s with mode := .idle, acc := [], outq := s.outq ++ [pad8 s.acc] })

/-- R55: the layout of a packed payload. Bit `i` is bit 7 - (i mod 8) of byte i div 8, and the pad bits are 0. -/
def Obligations.PackedPayloadLayout : Prop :=
  ∀ p : Bits, (pack p).length = (p.length + 7) / 8 ∧
    ∀ (j : Nat) (b : Byte), (pack p)[j]? = some b → ∀ k, k < 8 → b.getLsbD (7 - k) = p.getD (8 * j + k) false

/-- R116: over a whole encode stream, with reads of DATA_OUT, polls of STATUS and every other operation that raises
nothing in a stream anywhere in it, the bytes the host has read from DATA_OUT and those still in OUTQ after ENC_FLUSH are
the packed payload of the symbols; BITCNT and SYMCNT count it; and for the codeword "0" the payload is zero bytes. -/
def Obligations.EncodeStreamDeliversThePackedPayload : Prop :=
  (∀ (s s1 t u : State) (ops : List Instr) (p : Bits), s.err = none → s.mode = .idle → encodeOps ops →
    encodeBits s.table (dataBytes ops) = some p →
    exec .encStart s = .next s1 → execAll ops s1 = .next t → t.err = none → exec .encFlush t = .next u →
    takenBytes ops (u.returned.drop s.returned.length) ++ u.outq = pack p ∧
      u.bitcnt = BitVec.ofNat 32 p.length ∧ u.symcnt = BitVec.ofNat 32 (dataBytes ops).length) ∧
  ∀ m : Nat, pack (List.replicate m false) = List.replicate ((m + 7) / 8) 0x00#8

/-! ### Decoding a stream -/

/-- R131, R238: DEC_START. -/
def Obligations.DecodeStartOpensAStream : Prop :=
  ∀ s : State, s.err = none →
    (s.mode = .idle → exec .decStart s =
      .next { s with mode := .dec, cur := [], outq := [], decRem := s.decBits, bitcnt := 0, symcnt := 0 }) ∧
    (s.mode ≠ .idle → exec .decStart s =
      .next { s with err := some .seq, errInfo := 0x00000030#32, outq := [], acc := [] })

/-- R134, R137: one step of the decode-tree walk, by the nodes of D(T). -/
def Obligations.DecodeBitWalksTheTree : Prop :=
  ∀ (s : State) (b : Bool) (v : Word), TableOk s.table →
    (∀ sym, IsLeaf s.table (s.cur ++ [b]) sym → outqLevel s < s.cfg.outDepth →
      decBit b v s = .go { s with
        outq := s.outq ++ [sym], cur := [], symcnt := s.symcnt + 1, bitcnt := s.bitcnt + 1,
        decRem := s.decRem - 1 }) ∧
    (IsInternal s.table (s.cur ++ [b]) →
      decBit b v s = .go { s with cur := s.cur ++ [b], bitcnt := s.bitcnt + 1, decRem := s.decRem - 1 }) ∧
    (¬ IsNode s.table (s.cur ++ [b]) → decBit b v s =
      .raised { s with err := some .noChild, errInfo := v, outq := [], acc := [] })

/-- R133, R135: DEC_BYTE. The first min(8, DEC_REM) bits of v[7:0], from bit 7 down, are walked: the symbols at the
leaves enter OUTQ. SEQ with no bits left, OVERRUN without 8 free bytes, NO_CHILD at a missing child, where the counters
stay at the failing bit, TRUNCATED when the last bit leaves the cursor off the root. -/
def Obligations.DecodeByteWalksItsBits : Prop :=
  ∀ (s : State) (v : Word), s.err = none → s.mode = .dec → s.cfg.InRange →
    let k := min 8 s.decRem.toNat
    let bits := (byteBits (v.extractLsb' 0 8)).take k
    let after := fun (syms : List Byte) (cur : Bits) (n : Nat) => ({ s with
      outq := s.outq ++ syms, cur := cur, symcnt := s.symcnt + BitVec.ofNat 32 syms.length,
      bitcnt := s.bitcnt + BitVec.ofNat 32 n, decRem := s.decRem - BitVec.ofNat 32 n } : State)
    let fail := fun (e : Cause) (t : State) => ({ t with err := some e, errInfo := v, outq := [], acc := [] } : State)
    (s.decRem = 0 → exec (.decByte v) s = .next (fail .seq s)) ∧
    (s.decRem ≠ 0 → outqLevel s > s.cfg.outDepth - 8 → exec (.decByte v) s = .next (fail .overrun s)) ∧
    (s.decRem ≠ 0 → outqLevel s ≤ s.cfg.outDepth - 8 →
      (∀ syms cur, walkBits s.table s.cur bits = some (syms, cur) →
        ((k < s.decRem.toNat ∨ cur = []) → exec (.decByte v) s = .next (after syms cur k)) ∧
        (k = s.decRem.toNat → cur ≠ [] → exec (.decByte v) s = .next (fail .truncated (after syms cur k)))) ∧
      ∀ before b rest syms cur, bits = before ++ b :: rest → walkBits s.table s.cur before = some (syms, cur) →
        walkBits s.table cur [b] = none →
        exec (.decByte v) s = .next (fail .noChild (after syms cur before.length)))

/-- R136: DEC_FINISH. -/
def Obligations.DecodeFinishCloses : Prop :=
  ∀ s : State, s.err = none →
    (s.mode ≠ .dec → exec .decFinish s =
      .next { s with err := some .seq, errInfo := 0x00000031#32, outq := [], acc := [] }) ∧
    (s.mode = .dec → s.decRem ≠ 0 → exec .decFinish s =
      .next { s with err := some .truncated, errInfo := 0x00000031#32, outq := [], acc := [] }) ∧
    (s.mode = .dec → s.decRem = 0 → exec .decFinish s = .next { s with mode := .idle })

/-- R33, R35: in a decode stream each bit consumed moves one from DEC_REM to BITCNT, and DEC_REM never goes below 0. -/
def Obligations.DecodeByteConservesTheBitCount : Prop :=
  ∀ (s t : State) (v : Word), s.mode = .dec → exec (.decByte v) s = .next t →
    t.bitcnt + t.decRem = s.bitcnt + s.decRem ∧ t.decRem.toNat ≤ s.decRem.toNat ∧
      s.decRem.toNat ≤ t.decRem.toNat + 8

/-- R138, as a function of the table: walking the concatenated codewords from the root emits the symbols and ends at the
root. -/
def Obligations.WalkInvertsEncoding : Prop :=
  ∀ (t : Table) (ss : List Byte) (p : Bits), TableOk t → encodeBits t ss = some p →
    walkBits t [] p = some (ss, [])

/-- R138, R130: the engine decodes the packed payload of any symbols with entries back to them, whatever the pad bits,
with reads of DATA_OUT, polls of STATUS and every other operation that raises nothing in a stream anywhere in it. Unless
the host overruns the FIFO nothing is raised, the bytes read from DATA_OUT and those still in OUTQ are the symbols, the
counters are theirs, and DEC_FINISH closes the stream. -/
def Obligations.DecodeStreamReturnsTheSymbols : Prop :=
  ∀ (s s1 t : State) (ops : List Instr) (ss : List Byte) (p : Bits), s.err = none → s.mode = .idle →
    TableOk s.table → decodeOps ops → encodeBits s.table ss = some p → p.length < 2 ^ 32 →
    s.decBits = BitVec.ofNat 32 p.length → (dataBytes ops).length = (p.length + 7) / 8 →
    p <+: unpack (dataBytes ops) → exec .decStart s = .next s1 → execAll ops s1 = .next t →
    t.err ≠ some .overrun →
    t.err = none ∧ takenBytes ops (t.returned.drop s.returned.length) ++ t.outq = ss ∧ t.decRem = 0 ∧
      t.bitcnt = BitVec.ofNat 32 p.length ∧ t.symcnt = BitVec.ofNat 32 ss.length ∧
      exec .decFinish t = .next { t with mode := .idle }

/-- R137, R96: the trie rebuilt from the table, as an implementation may store it, has the same leaves and the same
missing children as the table's lookups, at every path. -/
def Obligations.StoredTrieAgreesWithTheTable : Prop :=
  ∀ t : Table, TableOk t → ∃ tr, trieOf t = some tr ∧
    ∀ p : Bits, p ≠ [] →
      (∀ s, trieAt tr p = .leaf s ↔ tableLeaf t p = some s) ∧ (trieAt tr p = .empty ↔ ¬ IsNode t p)

/-- R93 corner case: TBL_PREFIX is exactly the case where the rebuild walk would pass through an existing leaf, or end
at an internal node or at a leaf that holds a symbol. -/
def Obligations.PrefixClashIsARebuildClash : Prop :=
  ∀ (t : Table) (tr : Trie) (s : Byte) (c : Bits), TableOk t → trieOf t = some tr → c ≠ [] →
    (trieInsert tr c s = none ↔ tableConflict t c = true)

/-! ### Errors -/

/-- R204: error entry, for every operation that raises and for every access, an illegal command word included. OUTQ and
ACC are emptied; MODE, T, CTRL, DEC_BITS, CW and TBL_INFO are kept; CUR and the counters are kept but for what a data
write in DEC consumed before the failing bit. The entry of BAD_CMD, which no operation raises, is written out. -/
def Obligations.ErrorEntryKeepsTheRest : Prop :=
  (∀ (i : Instr) (s t : State) (c : Cause), s.err = none → exec i s = .next t → t.err = some c →
    t.outq = [] ∧ t.acc = [] ∧ t.mode = s.mode ∧ t.table = s.table ∧ t.ieErr = s.ieErr ∧ t.ieOut = s.ieOut ∧
      t.ieIn = s.ieIn ∧ t.decBits = s.decBits ∧ t.cw = s.cw ∧ t.tblInfo = s.tblInfo ∧
      (s.mode ≠ .dec ∨ (∀ v, i ≠ .encByte v ∧ i ≠ .decByte v ∧ i ≠ .dinIdle v) →
        t.cur = s.cur ∧ t.bitcnt = s.bitcnt ∧ t.symcnt = s.symcnt ∧ t.decRem = s.decRem)) ∧
  (∀ (a : Access) (s t : State) (c : Cause), s.err = none → performAccess a s = .next t → t.err = some c →
    t.outq = [] ∧ t.acc = [] ∧ t.mode = s.mode ∧ t.table = s.table ∧ t.ieErr = s.ieErr ∧ t.ieOut = s.ieOut ∧
      t.ieIn = s.ieIn ∧ t.decBits = s.decBits ∧ t.cw = s.cw ∧ t.tblInfo = s.tblInfo ∧ t.returned = s.returned ∧
      (s.mode ≠ .dec ∨ a.off ≠ 0x10#8 →
        t.cur = s.cur ∧ t.bitcnt = s.bitcnt ∧ t.symcnt = s.symcnt ∧ t.decRem = s.decRem)) ∧
  ∀ (s : State) (w : Word), s.rstAsserted = false → s.err = none → decodeCmd w = none →
    performAccess (.write 0x0C#8 4 w) s =
      .next { s with err := some .badCmd, errInfo := w, outq := [], acc := [] }

/-- R202: which operation can raise what. -/
def Obligations.OnlyTheListedErrorsAreRaised : Prop :=
  ∀ (i : Instr) (s t : State), s.err = none → i.selectedIn s.mode = true → exec i s = .next t →
    t.err = none ∨ ∃ c ∈ mayRaise i, t.err = some c

/-- R49, R203: the word recorded at error entry is the word written to CMD or DATA_IN, and only a write there raises. -/
def Obligations.ErrorInfoIsTheWordWritten : Prop :=
  ∀ (a : Access) (s t : State), s.err = none → performAccess a s = .next t → t.err ≠ none →
    (a = .write 0x0C#8 4 t.errInfo ∨ a = .write 0x10#8 4 t.errInfo)

/-- R205: in the error state every command but ABORT and every data write is ignored, and IN_RDY reads 0. -/
def Obligations.ErrorStateIgnoresCommandsAndData : Prop :=
  ∀ s : State, s.err ≠ none → inRdy s = false ∧
    (∀ i ∈ [Instr.nop, .tblClear, .encStart, .encFlush, .decStart, .decFinish], exec i s = .next s) ∧
    (∀ sym len, exec (.tblAdd sym len) s = .next s ∧ exec (.tblRead sym) s = .next s) ∧
    (∀ v, exec (.encByte v) s = .next s ∧ exec (.decByte v) s = .next s ∧ exec (.dinIdle v) s = .next s) ∧
    ∀ w, s.rstAsserted = false → w ≠ 0x00000001#32 → performAccess (.write 0x0C#8 4 w) s = .next s

/-- R206: errors do not nest. Nothing but ABORT and reset changes ERR or ERR_INFO once an error is recorded. -/
def Obligations.FirstErrorIsKept : Prop :=
  ∀ (e : HostEvent) (s t : State), s.err ≠ none → performEvent e s = .next t → e ≠ .resetAssert → e ≠ .resetRelease →
    (t.err = s.err ∧ t.errInfo = s.errInfo) ∨ ∃ v, e = .access (.write 0x0C#8 4 v) ∧ v = 0x00000001#32

/-! ### The whole machine -/

/-- R22: MODE changes only as listed, and reset makes it IDLE. -/
def Obligations.ModeChangesOnlyAsListed : Prop :=
  (∀ (e : HostEvent) (s t : State), performEvent e s = .next t → t.mode ≠ s.mode →
    ((e = .resetAssert ∨ e = .resetRelease) ∧ t.mode = .idle) ∨
      ∃ a i, e = .access a ∧ decode s.mode a = .ok i ∧ ModeChange i s.mode t.mode) ∧
  State.reset.mode = .idle

/-- R40, R234: only TBL_ADD, TBL_CLEAR and reset change the code table, and the commands only with no stream open. -/
def Obligations.TableChangesOnlyInIdle : Prop :=
  ∀ (e : HostEvent) (s t : State), performEvent e s = .next t → t.table ≠ s.table →
    e = .resetAssert ∨ e = .resetRelease ∨
      (s.mode = .idle ∧ s.err = none ∧
        ∃ a i, e = .access a ∧ decode s.mode a = .ok i ∧ (i = .tblClear ∨ ∃ sym len, i = .tblAdd sym len))

/-- R37, R39, R25, R32: only TBL_READ, TBL_CLEAR and reset write TBL_INFO; only TBL_READ and CW_WR the staging buffer;
only CTRL_WR the enables; only DEC_BITS_WR writes DEC_BITS (reset apart). -/
def Obligations.ConfigurationRegisterWriters : Prop :=
  ∀ (i : Instr) (s t : State), exec i s = .next t →
    (t.tblInfo ≠ s.tblInfo → i = .tblClear ∨ ∃ sym, i = .tblRead sym) ∧
    (t.cw ≠ s.cw → (∃ sym, i = .tblRead sym) ∨ ∃ k v, i = .cwWr k v) ∧
    ((t.ieErr, t.ieOut, t.ieIn) ≠ (s.ieErr, s.ieOut, s.ieIn) → ∃ v, i = .ctrlWr v) ∧
    (t.decBits ≠ s.decBits → ∃ v, i = .decBitsWr v)

/-- R54, R59: an operation touches nothing of the interface but the value a read returns. -/
def Obligations.OperationsKeepTheInterface : Prop :=
  ∀ (i : Instr) (s t : State), exec i s = .next t →
    t.cfg = s.cfg ∧ t.pending = s.pending ∧ t.rstAsserted = s.rstAsserted ∧
      (t.returned = s.returned ∨
        ((i = .outPop ∨ ∃ r, i = .regRd r) ∧ ∃ w, t.returned = s.returned ++ [w]))

/-- R44, R230: the reset state meets the invariant. -/
def Obligations.ResetStateMeetsTheInvariant : Prop := Inv State.reset

/-- R44, with R35, R37, R41, R49, R114: every step keeps the invariant. -/
def Obligations.EveryStepKeepsTheInvariant : Prop :=
  ∀ s t : State, Inv s → step s = .next t → Inv t

/-- R56, R114, R132: from a state that meets the invariant no step pushes into a full FIFO. The second clause is R56's
"must fault rather than drop the byte", read as the fault fifoOverflow (assumption 14). -/
def Obligations.NoPushFindsTheFifoFull : Prop :=
  (∀ (s : State) (f : Fault), Inv s → step s ≠ .fault f) ∧
  ∀ (s : State) (b : Byte), ¬ outqLevel s < s.cfg.outDepth → fifoPush b s = .fault .fifoOverflow

/-- R53, R242: the engine never halts on its own. From a state that meets the invariant, every operation completes, and
so does every step whose access is inside the interface. -/
def Obligations.EveryOperationCompletes : Prop :=
  (∀ (s : State) (i : Instr), Inv s → Completes (exec i s)) ∧
  ∀ (s : State) (a : Access) (rest : List HostEvent), Inv s → s.pending = .access a :: rest →
    s.rstAsserted = false → a.size = 4 → a.off.toNat % 4 = 0 → Completes (step s)

/-- R242, R234, R130: a complete stream opens in IDLE and closes in IDLE with no error, and runs against one fixed table,
whatever else the host does between its ends. A complete decode stream has consumed exactly the bits that DEC_BITS held
when it opened. -/
def Obligations.CompleteStreamRunsOnOneTable : Prop :=
  ∀ (first : Access) (body : List Access) (last : Access) (s t : State), CompleteStream first body last s t →
    s.mode = .idle ∧ s.err = none ∧ t.mode = .idle ∧ t.err = none ∧ t.table = s.table ∧
      (first = encode .decStart → t.bitcnt = s.decBits ∧ t.decRem = 0)

/-! ### The host reference -/

/-- R172, R173, R171: Build fails exactly for an empty frequency table, and its tree has one leaf for each entry and
depth at most n - 1. -/
def Obligations.BuildGivesOneLeafPerSymbol : Prop :=
  ∀ freq : HostRef.Freq,
    (freq = [] → HostRef.build freq = .error .emptyInputError) ∧
    (freq ≠ [] → ∃ tree, HostRef.build freq = .ok tree ∧
      ((HostRef.walk tree []).map Prod.fst).Perm (freq.map Prod.fst) ∧
      ∀ e ∈ HostRef.walk tree [], e.2.length ≤ freq.length - 1)

/-- R177 (a), (c), R173, R184: the table generated for a frequency table with different symbols is prefix-free, its
codewords are non-empty and of at most 255 bits, and each symbol of the frequency table has one. The engine accepts it
whole: from every state outside reset, an open stream and an error included, the host's load (`abort`, `tbl.clear`, one
`tbl.load` per entry in ascending symbol order, and the check of STATUS.ERR) succeeds with no error, and the engine's
table is then the generated one. -/
def Obligations.GeneratedTableIsAccepted : Prop :=
  ∀ (freq : HostRef.Freq) (tree : HostRef.HTree), (freq.map Prod.fst).Nodup → HostRef.build freq = .ok tree →
    TableOk (HostRef.codeTable (HostRef.generate tree)) ∧
    (∀ sym, (tableGet (HostRef.codeTable (HostRef.generate tree)) sym).isSome ↔ sym ∈ freq.map Prod.fst) ∧
    ∀ (s : State) (phase : HostRef.Phase), s.rstAsserted = false →
      ∃ t, HostRef.loadTable phase (HostRef.codeTable (HostRef.generate tree)) s = .ok t ∧ t.err = none ∧
        t.mode = .idle ∧ t.table = HostRef.codeTable (HostRef.generate tree)

/-- R178 to R183: reading a container reverses writing it, field for field. -/
def Obligations.ReadingAContainerReversesWriting : Prop :=
  ∀ c : HostRef.Container, 1 ≤ c.codes.length → c.codes.length ≤ 256 →
    (∀ e ∈ c.codes, 1 ≤ e.2.length ∧ e.2.length ≤ 255) → c.bitCount < 2 ^ 31 →
    c.payload.length = (c.bitCount + 7) / 8 →
    HostRef.readContainer (HostRef.writeContainer c) = .ok c
end

