-- ==== Sys2Proof/Laws/Bits.lean ====
section
/-! SUPPORT. What bit packing does (spec/20_memory.md R55, 10_state.md R39): the bits of a packed value, and that packing
and unpacking agree. -/

namespace Sys2Proof.Machine

theorem natOfBits_lt (n : Nat) (bs : Bits) : natOfBits n bs < 2 ^ n := by
  induction n generalizing bs with
  | zero => simp [natOfBits]
  | succ n ih =>
    cases bs with
    | nil => simp [natOfBits]
    | cons b bs =>
      have := ih bs
      cases b <;> simp [natOfBits] <;> omega

theorem testBit_natOfBits (n : Nat) (bs : Bits) (i : Nat) :
    (natOfBits n bs).testBit i = (decide (i < n) && bs.getD (n - 1 - i) false) := by
  induction n generalizing bs with
  | zero => simp [natOfBits]
  | succ n ih =>
    cases bs with
    | nil => simp [natOfBits]
    | cons b bs =>
      have hlt := natOfBits_lt n bs
      rw [natOfBits, Nat.mul_comm, Nat.testBit_two_pow_mul_add _ hlt, ih]
      by_cases h : i < n
      · have e : n - i = (n - 1 - i) + 1 := by omega
        simp [h, show i < n + 1 by omega]
        rw [e, List.getElem?_cons_succ]
      · by_cases h2 : i = n
        · subst h2; cases b <;> simp
        · have : ¬ i < n + 1 := by omega
          simp only [h, this, if_false, decide_false, Bool.false_and]
          have : i - n ≠ 0 := by omega
          cases b
          · simp
          · simp [Nat.testBit, Nat.shiftRight_eq_div_pow,
              Nat.div_eq_of_lt (show 1 < 2 ^ (i - n) from Nat.one_lt_two_pow this)]

/-- R55: bit `i` of a packed value, counted from the most significant, is bit `i` of the string, 0 past its end. -/
theorem getMsbD_packBits (n : Nat) (bs : Bits) (i : Nat) :
    (packBits n bs).getMsbD i = (decide (i < n) && bs.getD i false) := by
  by_cases h : i < n
  · have e : n - 1 - (n - 1 - i) = i := by omega
    simp only [BitVec.getMsbD, packBits, BitVec.getLsbD_ofNat, testBit_natOfBits, h, e,
      show n - 1 - i < n by omega, decide_true, Bool.true_and]
  · simp [BitVec.getMsbD, h]

@[simp] theorem byteBits_length (b : Byte) : (byteBits b).length = 8 := by simp [byteBits]

theorem byteBits_getD (b : Byte) (i : Nat) (h : i < 8) : (byteBits b).getD i false = b.getMsbD i := by
  simp [byteBits, List.getD, h]

/-- R55: the bits of a packed byte are the first 8 bits of the string, with 0 for pad bits. -/
theorem byteBits_pad8 (a : Bits) : byteBits (pad8 a) = (List.range 8).map fun i => a.getD i false := by
  apply List.ext_getElem
  · simp
  · intro i h1 h2
    have : i < 8 := by simpa using h1
    simp [byteBits, pad8, getMsbD_packBits, this]

theorem byteBits_pad8_of_length (a : Bits) (h : a.length = 8) : byteBits (pad8 a) = a := by
  rw [byteBits_pad8]
  apply List.ext_getElem
  · simp [h]
  · intro i h1 h2
    simp [List.getD, h2]

/-- A byte is its own bits packed. -/
theorem pad8_byteBits (b : Byte) : pad8 (byteBits b) = b := by
  apply BitVec.eq_of_getMsbD_eq
  intro i hi
  rw [pad8, getMsbD_packBits, byteBits_getD b i hi]
  simp [hi]

@[simp] theorem unpack_nil : unpack [] = [] := rfl

@[simp] theorem unpack_append (xs ys : List Byte) : unpack (xs ++ ys) = unpack xs ++ unpack ys := by
  simp [unpack]

@[simp] theorem unpack_singleton (b : Byte) : unpack [b] = byteBits b := by simp [unpack]

@[simp] theorem unpack_length (xs : List Byte) : (unpack xs).length = 8 * xs.length := by
  induction xs with
  | nil => rfl
  | cons x xs ih =>
    rw [show x :: xs = [x] ++ xs from rfl, unpack_append, List.length_append, ih]
    simp; omega

@[simp] theorem packBytes_length (n : Nat) (p : Bits) : (packBytes n p).length = n := by
  induction n generalizing p with
  | zero => rfl
  | succ n ih => simp [packBytes, ih]

/-- R55: the first bits of `n` packed bytes are the payload's. -/
theorem unpack_packBytes (n : Nat) (p : Bits) (h : p.length ≤ 8 * n) :
    unpack (packBytes n p) = p ++ List.replicate (8 * n - p.length) false := by
  induction n generalizing p with
  | zero =>
    have : p = [] := List.eq_nil_of_length_eq_zero (by omega)
    simp [packBytes, this]
  | succ n ih =>
    rw [packBytes, show ∀ (x : Byte) xs, x :: xs = [x] ++ xs from fun _ _ => rfl, unpack_append, unpack_singleton]
    by_cases hp : 8 ≤ p.length
    · rw [byteBits_pad8_of_length _ (by simp [hp]), ih _ (by simp; omega), ← List.append_assoc, List.take_append_drop]
      congr 2
      simp; omega
    · have hd : p.drop 8 = [] := List.drop_eq_nil_of_le (by omega)
      have ht : p.take 8 = p := List.take_of_length_le (by omega)
      rw [hd, ht, ih _ (by simp), byteBits_pad8]
      apply List.ext_getElem
      · simp; omega
      · intro i h1 h2
        by_cases hi : i < 8
        · rw [List.getElem_append_left (by simpa using hi)]
          by_cases hip : i < p.length
          · rw [List.getElem_append_left hip]; simp [List.getD, hip]
          · rw [List.getElem_append_right (by omega)]; simp [List.getD, hip]
        · have hi' : 8 ≤ i := by omega
          rw [List.getElem_append_right (by simpa using hi'), List.getElem_append_right (by omega : p.length ≤ i)]
          simp

theorem pack_length (p : Bits) : (pack p).length = (p.length + 7) / 8 := packBytes_length _ _

/-- R55: unpacking a packed payload gives its bits, then the pad bits 0. -/
theorem unpack_pack (p : Bits) :
    unpack (pack p) = p ++ List.replicate (8 * ((p.length + 7) / 8) - p.length) false :=
  unpack_packBytes _ _ (by omega)

/-- R91: a staged codeword has the length asked for. -/
@[simp] theorem stageCode_length (cw : Vector Word 8) (n : Nat) : (stageCode cw n).length = n := by
  simp [stageCode]

/-- R94: staging bit `i` of a stored codeword is its bit `i`, and 0 past its end. -/
theorem stagingBit_stagingOf (c : Bits) (i : Nat) (h : i < 256) : stagingBit (stagingOf c) i = c.getD i false := by
  have h1 : i / 32 < 8 := by omega
  have key := getMsbD_packBits 32 (c.drop (32 * (i / 32))) (i % 32)
  have hm : i % 32 < 32 := Nat.mod_lt _ (by omega)
  have e : 32 * (i / 32) + i % 32 = i := by omega
  simp only [BitVec.getMsbD, hm, decide_true, Bool.true_and] at key
  rw [stagingBit, dif_pos h1]
  simp only [stagingOf, Vector.getElem_ofFn]
  rw [show 31 - i % 32 = 32 - 1 - i % 32 by omega, key]
  simp [List.getD, List.getElem?_drop, e]

/-- R91: the codeword staged is `c` where the words that hold its bits are those of the staging buffer for `c`. -/
theorem stageCode_of_words {cw : Vector Word 8} {c : Bits} (hc : c.length ≤ 256)
    (h : ∀ (k : Nat) (hk : k < 8), 32 * k < c.length → cw[k] = packBits 32 (c.drop (32 * k))) :
    stageCode cw c.length = c := by
  apply List.ext_getElem (by simp)
  intro i hi h2
  simp only [stageCode_length] at hi
  have e := stagingBit_stagingOf c i (by omega)
  have hk : i / 32 < 8 := by omega
  simp only [stageCode, List.getElem_map, List.getElem_range]
  have : stagingBit cw i = stagingBit (stagingOf c) i := by
    simp only [stagingBit, dif_pos hk]
    rw [h _ hk (by omega)]; simp [stagingOf]
  rw [this, e]; simp [List.getD_eq_getElem?_getD, hi]

/-- R55: the bits of a byte padded at the flush. -/
theorem byteBits_pad8_short (a : Bits) (h : a.length ≤ 8) : byteBits (pad8 a) = a ++ List.replicate (8 - a.length) false := by
  have := unpack_packBytes 1 a (by omega)
  simpa [packBytes, List.take_of_length_le h] using this

/-- Bytes are their bits. -/
theorem unpack_inj {xs ys : List Byte} (h : unpack xs = unpack ys) : xs = ys := by
  induction xs generalizing ys with
  | nil =>
    have := congrArg List.length h
    simp at this
    first | exact this | exact this.symm
  | cons x xs ih =>
    cases ys with
    | nil => have := congrArg List.length h; simp at this
    | cons y ys =>
      rw [show x :: xs = [x] ++ xs from rfl, show y :: ys = [y] ++ ys from rfl, unpack_append, unpack_append] at h
      have := List.append_inj h (by simp)
      simp only [unpack_singleton] at this
      rw [← pad8_byteBits x, this.1, pad8_byteBits, ih this.2]

end Sys2Proof.Machine
end

