-- ==== Sys2Proof/Laws/Decode.lean ====
section
/-! SUPPORT. The decoder and the encoder, field by field (spec/30_encoding.md R70..R78, 10_state.md section 3). -/

namespace Sys2Proof

/-! ### The register window -/

theorem regWord_regOfWord : ∀ w : BitVec 6, regWord (regOfWord w) = w := by decide

theorem regOfWord_wellFormed : ∀ w : BitVec 6, (regOfWord w).wellFormed = true := by decide

theorem regOfWord_regWord {r : Reg} (h : r.wellFormed = true) : regOfWord (regWord r) = r := by
  cases r with
  | reserved w =>
    have key : ∀ w : BitVec 6, reservedWord w = true → regOfWord w = .reserved w := by decide
    exact key w h
  | cw k =>
    have key : ∀ k : Fin 8, regOfWord (regWord (.cw k)) = .cw k := by decide
    exact key k
  | _ => decide

theorem offset_word : ∀ w : BitVec 6, (w.setWidth 8 <<< 2).extractLsb' 2 6 = w := by decide

theorem offset_aligned : ∀ w : BitVec 6, (w.setWidth 8 <<< 2).extractLsb' 0 2 = 0#2 := by decide

/-- An aligned offset is its word address with two zero bits. -/
theorem word_offset : ∀ off : Byte, off.extractLsb' 0 2 = 0#2 → (off.extractLsb' 2 6).setWidth 8 <<< 2 = off := by
  decide

theorem regOfOffset_regOffset {r : Reg} (h : r.wellFormed = true) : regOfOffset (regOffset r) = r := by
  rw [regOfOffset, regOffset, offset_word, regOfWord_regWord h]

theorem regOffset_aligned (r : Reg) : (regOffset r).extractLsb' 0 2 = 0#2 := offset_aligned _

theorem regOffset_regOfOffset {off : Byte} (h : off.extractLsb' 0 2 = 0#2) : regOffset (regOfOffset off) = off := by
  rw [regOffset, regOfOffset, regWord_regOfWord, word_offset off h]

/-! ### Command words -/

/-- A bit of a placed field. -/
theorem getLsbD_field {n : Nat} (lo : Nat) (x : BitVec n) (i : Nat) :
    (field lo x).getLsbD i = (decide (i < 32) && decide (lo ≤ i) && x.getLsbD (i - lo)) := by
  by_cases h : i < lo <;> by_cases h2 : i < 32 <;> simp [field, h, h2, Nat.not_lt.mp, Nat.not_le.mpr]

theorem getElem_field {n : Nat} (lo : Nat) (x : BitVec n) (i : Nat) (h : i < 32) :
    (field lo x)[i] = (decide (lo ≤ i) && x.getLsbD (i - lo)) := by
  rw [← BitVec.getLsbD_eq_getElem, getLsbD_field]
  simp [h]

@[simp] theorem cmdOpc_cmdFields (opc sym len : Byte) : cmdOpc (cmdFields opc sym len) = opc := by
  apply BitVec.eq_of_getLsbD_eq
  intro i hi
  simp [cmdOpc, cmdFields, getElem_field, hi, show i < 32 by omega, show ¬ 8 ≤ i by omega, show ¬ 16 ≤ i by omega]

@[simp] theorem cmdSym_cmdFields (opc sym len : Byte) : cmdSym (cmdFields opc sym len) = sym := by
  apply BitVec.eq_of_getLsbD_eq
  intro i hi
  simp [cmdSym, cmdFields, getElem_field, hi, show 8 + i < 32 by omega, show ¬ 16 ≤ 8 + i by omega]

@[simp] theorem cmdLen_cmdFields (opc sym len : Byte) : cmdLen (cmdFields opc sym len) = len := by
  apply BitVec.eq_of_getLsbD_eq
  intro i hi
  simp [cmdLen, cmdFields, getElem_field, hi, show 16 + i < 32 by omega, show 8 ≤ 16 + i by omega,
    BitVec.getLsbD_of_ge sym (16 + i - 8) (by omega)]

@[simp] theorem cmdRsv_cmdFields (opc sym len : Byte) : cmdRsv (cmdFields opc sym len) = 0 := by
  apply BitVec.eq_of_getLsbD_eq
  intro i hi
  simp [cmdRsv, cmdFields, getElem_field, hi, show 24 + i < 32 by omega, show 8 ≤ 24 + i by omega,
    show 16 ≤ 24 + i by omega, BitVec.getLsbD_of_ge sym (24 + i - 8) (by omega),
    BitVec.getLsbD_of_ge len (24 + i - 16) (by omega)]

/-- A word is its four fields. -/
theorem cmdFields_eta (w : Word) (h : cmdRsv w = 0) : cmdFields (cmdOpc w) (cmdSym w) (cmdLen w) = w := by
  apply BitVec.eq_of_getLsbD_eq
  intro i hi
  by_cases h1 : i < 8
  · simp [cmdFields, cmdOpc, getElem_field, h1, hi, show ¬ 8 ≤ i by omega, show ¬ 16 ≤ i by omega]
  · by_cases h2 : i < 16
    · simp [cmdFields, cmdOpc, cmdSym, getElem_field, hi, show 8 ≤ i by omega, show ¬ 16 ≤ i by omega,
        show i - 8 < 8 by omega, show 8 + (i - 8) = i by omega]
    · by_cases h3 : i < 24
      · simp [cmdFields, cmdOpc, cmdSym, cmdLen, getElem_field, h1, hi, show 16 ≤ i by omega,
          show ¬ i - 8 < 8 by omega, show i - 16 < 8 by omega, show 16 + (i - 16) = i by omega]
      · have := congrArg (fun x : Byte => x.getLsbD (i - 24)) h
        simp [cmdRsv, show i - 24 < 8 by omega, show 24 + (i - 24) = i by omega] at this
        simp [cmdFields, cmdOpc, cmdSym, cmdLen, getLsbD_field, h1, show ¬ i - 8 < 8 by omega,
          show ¬ i - 16 < 8 by omega, this]

/-- What the decoder answers for a command word, said once (R73). -/
theorem decodeCmd_cases {w : Word} {i : Instr} (h : decodeCmd w = some i) :
    cmdRsv w = 0 ∧
      ((cmdOpc w = 0x11#8 ∧ i = .tblAdd (cmdSym w) (cmdLen w)) ∨
       (cmdOpc w = 0x12#8 ∧ cmdLen w = 0 ∧ i = .tblRead (cmdSym w)) ∨
       (cmdSym w = 0 ∧ cmdLen w = 0 ∧
         ((cmdOpc w = 0x00#8 ∧ i = .nop) ∨ (cmdOpc w = 0x01#8 ∧ i = .abort) ∨ (cmdOpc w = 0x10#8 ∧ i = .tblClear) ∨
          (cmdOpc w = 0x20#8 ∧ i = .encStart) ∨ (cmdOpc w = 0x21#8 ∧ i = .encFlush) ∨
          (cmdOpc w = 0x30#8 ∧ i = .decStart) ∨ (cmdOpc w = 0x31#8 ∧ i = .decFinish)))) := by
  unfold decodeCmd at h
  split at h
  · cases h
  · next hr =>
    refine ⟨by simpa using hr, ?_⟩
    split at h
    · next h1 => exact .inl ⟨h1, (Option.some.inj h).symm⟩
    · split at h
      · next h1 => exact .inr (.inl ⟨h1.1, h1.2, (Option.some.inj h).symm⟩)
      · split at h
        · next h0 =>
          refine .inr (.inr ⟨h0.1, h0.2, ?_⟩)
          split at h
          · next h1 => exact .inl ⟨h1, (Option.some.inj h).symm⟩
          · split at h
            · next h1 => exact .inr (.inl ⟨h1, (Option.some.inj h).symm⟩)
            · split at h
              · next h1 => exact .inr (.inr (.inl ⟨h1, (Option.some.inj h).symm⟩))
              · split at h
                · next h1 => exact .inr (.inr (.inr (.inl ⟨h1, (Option.some.inj h).symm⟩)))
                · split at h
                  · next h1 => exact .inr (.inr (.inr (.inr (.inl ⟨h1, (Option.some.inj h).symm⟩))))
                  · split at h
                    · next h1 => exact .inr (.inr (.inr (.inr (.inr (.inl ⟨h1, (Option.some.inj h).symm⟩)))))
                    · split at h
                      · next h1 => exact .inr (.inr (.inr (.inr (.inr (.inr ⟨h1, (Option.some.inj h).symm⟩)))))
                      · cases h
        · cases h

/-- The decoder reads back a command word the encoder wrote. -/
theorem decodeCmd_cmdFields (opc sym len : Byte) :
    decodeCmd (cmdFields opc sym len) =
      if opc = 0x11#8 then some (.tblAdd sym len)
      else if opc = 0x12#8 ∧ len = 0 then some (.tblRead sym)
      else if sym = 0 ∧ len = 0 then
        if opc = 0x00#8 then some .nop
        else if opc = 0x01#8 then some .abort
        else if opc = 0x10#8 then some .tblClear
        else if opc = 0x20#8 then some .encStart
        else if opc = 0x21#8 then some .encFlush
        else if opc = 0x30#8 then some .decStart
        else if opc = 0x31#8 then some .decFinish
        else none
      else none := by
  simp [decodeCmd]

/-! ### Accesses -/

/-- R78: a write of a register decodes by the register. -/
theorem decode_writeOf {m r v} (h : r.wellFormed = true) : decode m (writeOf r v) = decodeWrite m r v := by
  simp [decode, writeOf, Access.size, Access.off, regOffset_aligned, regOfOffset_regOffset h]

/-- R78: a read of a register decodes by the register. -/
theorem decode_readOf {m r} (h : r.wellFormed = true) : decode m (readOf r) = .ok (decodeRead r) := by
  simp [decode, readOf, Access.size, Access.off, regOffset_aligned, regOfOffset_regOffset h]

/-- A write is rejected only for an illegal command word (R73). -/
theorem decodeWrite_error {m : Mode} {r : Reg} {v : Word} {e : DecodeReject} (h : decodeWrite m r v = .error e) :
    r = .cmd ∧ decodeCmd v = none ∧ e = .illegalCommand v := by
  unfold decodeWrite at h
  split at h
  · split at h
    · cases h
    · next hd => cases h; exact ⟨rfl, hd, rfl⟩
  · split at h <;> cases h
  all_goals cases h

/-- Why an access gives no operation, said once (R51, R73). -/
theorem decode_error {m : Mode} {a : Access} {e : DecodeReject} (h : decode m a = .error e) :
    e = .accessSize ∨ e = .misaligned ∨ ∃ w, e = .illegalCommand w ∧ a = writeOf .cmd w ∧ decodeCmd w = none := by
  unfold decode at h
  split at h
  · cases h; exact .inl rfl
  · next hsz =>
    split at h
    · cases h; exact .inr (.inl rfl)
    · next hal =>
      cases a with
      | read off size => cases h
      | write off size v =>
        have hsz' : size = 4 := not_not.mp hsz
        have hal' : off.extractLsb' 0 2 = 0#2 := not_not.mp hal
        obtain ⟨hr, hd, rfl⟩ := decodeWrite_error h
        exact .inr (.inr ⟨v, rfl, by rw [writeOf, ← hr, regOffset_regOfOffset hal', hsz'], hd⟩)

/-- Two words are equal when their four fields are. -/
theorem word_eq_iff (w v : Word) : w = v ↔ cmdOpc w = cmdOpc v ∧ cmdSym w = cmdSym v ∧ cmdLen w = cmdLen v ∧ cmdRsv w = cmdRsv v := by
  refine ⟨fun h => by subst h; simp, fun ⟨h0, h1, h2, h3⟩ => ?_⟩
  apply BitVec.eq_of_getLsbD_eq
  intro i hi
  have k0 := congrArg (fun x : Byte => x.getLsbD (i - 0)) h0
  have k1 := congrArg (fun x : Byte => x.getLsbD (i - 8)) h1
  have k2 := congrArg (fun x : Byte => x.getLsbD (i - 16)) h2
  have k3 := congrArg (fun x : Byte => x.getLsbD (i - 24)) h3
  simp only [cmdOpc, cmdSym, cmdLen, cmdRsv, BitVec.getLsbD_extractLsb'] at k0 k1 k2 k3
  by_cases a : i < 8
  · simpa [a] using k0
  · by_cases b : i < 16
    · simpa [show i - 8 < 8 by omega, show 8 + (i - 8) = i by omega] using k1
    · by_cases c : i < 24
      · simpa [show i - 16 < 8 by omega, show 16 + (i - 16) = i by omega] using k2
      · simpa [show i - 24 < 8 by omega, show 24 + (i - 24) = i by omega] using k3

theorem cmdOpc_and (w v : Word) : cmdOpc (w &&& v) = cmdOpc w &&& cmdOpc v := by
  apply BitVec.eq_of_getLsbD_eq; intro i hi; simp [cmdOpc, hi]

theorem cmdSym_and (w v : Word) : cmdSym (w &&& v) = cmdSym w &&& cmdSym v := by
  apply BitVec.eq_of_getLsbD_eq; intro i hi; simp [cmdSym, hi]

theorem cmdLen_and (w v : Word) : cmdLen (w &&& v) = cmdLen w &&& cmdLen v := by
  apply BitVec.eq_of_getLsbD_eq; intro i hi; simp [cmdLen, hi]

theorem cmdRsv_and (w v : Word) : cmdRsv (w &&& v) = cmdRsv w &&& cmdRsv v := by
  apply BitVec.eq_of_getLsbD_eq; intro i hi; simp [cmdRsv, hi]

end Sys2Proof
end

