-- ==== Sys2Proof/Laws/State.lean ====
section
/-! SUPPORT. One lemma per field per update of the state, each true by rfl, so that no proof unfolds a record update. -/

namespace Sys2Proof.Machine

variable (s : State)

@[simp] theorem raise_cfg (e : Cause) (w : Word) : (raise e w s).cfg = s.cfg := rfl
@[simp] theorem raise_mode (e : Cause) (w : Word) : (raise e w s).mode = s.mode := rfl
@[simp] theorem raise_err (e : Cause) (w : Word) : (raise e w s).err = some e := rfl
@[simp] theorem raise_errInfo (e : Cause) (w : Word) : (raise e w s).errInfo = w := rfl
@[simp] theorem raise_ieErr (e : Cause) (w : Word) : (raise e w s).ieErr = s.ieErr := rfl
@[simp] theorem raise_ieOut (e : Cause) (w : Word) : (raise e w s).ieOut = s.ieOut := rfl
@[simp] theorem raise_ieIn (e : Cause) (w : Word) : (raise e w s).ieIn = s.ieIn := rfl
@[simp] theorem raise_decBits (e : Cause) (w : Word) : (raise e w s).decBits = s.decBits := rfl
@[simp] theorem raise_bitcnt (e : Cause) (w : Word) : (raise e w s).bitcnt = s.bitcnt := rfl
@[simp] theorem raise_symcnt (e : Cause) (w : Word) : (raise e w s).symcnt = s.symcnt := rfl
@[simp] theorem raise_decRem (e : Cause) (w : Word) : (raise e w s).decRem = s.decRem := rfl
@[simp] theorem raise_tblInfo (e : Cause) (w : Word) : (raise e w s).tblInfo = s.tblInfo := rfl
@[simp] theorem raise_cw (e : Cause) (w : Word) : (raise e w s).cw = s.cw := rfl
@[simp] theorem raise_table (e : Cause) (w : Word) : (raise e w s).table = s.table := rfl
@[simp] theorem raise_cur (e : Cause) (w : Word) : (raise e w s).cur = s.cur := rfl
@[simp] theorem raise_acc (e : Cause) (w : Word) : (raise e w s).acc = [] := rfl
@[simp] theorem raise_outq (e : Cause) (w : Word) : (raise e w s).outq = [] := rfl
@[simp] theorem raise_rstAsserted (e : Cause) (w : Word) : (raise e w s).rstAsserted = s.rstAsserted := rfl
@[simp] theorem raise_pending (e : Cause) (w : Word) : (raise e w s).pending = s.pending := rfl
@[simp] theorem raise_returned (e : Cause) (w : Word) : (raise e w s).returned = s.returned := rfl

@[simp] theorem abortState_cfg : (abortState s).cfg = s.cfg := rfl
@[simp] theorem abortState_mode : (abortState s).mode = .idle := rfl
@[simp] theorem abortState_err : (abortState s).err = none := rfl
@[simp] theorem abortState_errInfo : (abortState s).errInfo = 0 := rfl
@[simp] theorem abortState_ieErr : (abortState s).ieErr = s.ieErr := rfl
@[simp] theorem abortState_ieOut : (abortState s).ieOut = s.ieOut := rfl
@[simp] theorem abortState_ieIn : (abortState s).ieIn = s.ieIn := rfl
@[simp] theorem abortState_decBits : (abortState s).decBits = s.decBits := rfl
@[simp] theorem abortState_bitcnt : (abortState s).bitcnt = s.bitcnt := rfl
@[simp] theorem abortState_symcnt : (abortState s).symcnt = s.symcnt := rfl
@[simp] theorem abortState_decRem : (abortState s).decRem = 0 := rfl
@[simp] theorem abortState_tblInfo : (abortState s).tblInfo = s.tblInfo := rfl
@[simp] theorem abortState_cw : (abortState s).cw = s.cw := rfl
@[simp] theorem abortState_table : (abortState s).table = s.table := rfl
@[simp] theorem abortState_cur : (abortState s).cur = [] := rfl
@[simp] theorem abortState_acc : (abortState s).acc = [] := rfl
@[simp] theorem abortState_outq : (abortState s).outq = [] := rfl
@[simp] theorem abortState_rstAsserted : (abortState s).rstAsserted = s.rstAsserted := rfl
@[simp] theorem abortState_pending : (abortState s).pending = s.pending := rfl
@[simp] theorem abortState_returned : (abortState s).returned = s.returned := rfl

@[simp] theorem respond_cfg (v : Word) : (respond v s).cfg = s.cfg := rfl
@[simp] theorem respond_mode (v : Word) : (respond v s).mode = s.mode := rfl
@[simp] theorem respond_err (v : Word) : (respond v s).err = s.err := rfl
@[simp] theorem respond_errInfo (v : Word) : (respond v s).errInfo = s.errInfo := rfl
@[simp] theorem respond_ieErr (v : Word) : (respond v s).ieErr = s.ieErr := rfl
@[simp] theorem respond_ieOut (v : Word) : (respond v s).ieOut = s.ieOut := rfl
@[simp] theorem respond_ieIn (v : Word) : (respond v s).ieIn = s.ieIn := rfl
@[simp] theorem respond_decBits (v : Word) : (respond v s).decBits = s.decBits := rfl
@[simp] theorem respond_bitcnt (v : Word) : (respond v s).bitcnt = s.bitcnt := rfl
@[simp] theorem respond_symcnt (v : Word) : (respond v s).symcnt = s.symcnt := rfl
@[simp] theorem respond_decRem (v : Word) : (respond v s).decRem = s.decRem := rfl
@[simp] theorem respond_tblInfo (v : Word) : (respond v s).tblInfo = s.tblInfo := rfl
@[simp] theorem respond_cw (v : Word) : (respond v s).cw = s.cw := rfl
@[simp] theorem respond_table (v : Word) : (respond v s).table = s.table := rfl
@[simp] theorem respond_cur (v : Word) : (respond v s).cur = s.cur := rfl
@[simp] theorem respond_acc (v : Word) : (respond v s).acc = s.acc := rfl
@[simp] theorem respond_outq (v : Word) : (respond v s).outq = s.outq := rfl
@[simp] theorem respond_rstAsserted (v : Word) : (respond v s).rstAsserted = s.rstAsserted := rfl
@[simp] theorem respond_pending (v : Word) : (respond v s).pending = s.pending := rfl
@[simp] theorem respond_returned (v : Word) : (respond v s).returned = s.returned ++ [v] := rfl

@[simp] theorem consumeBit_cfg : (consumeBit s).cfg = s.cfg := rfl
@[simp] theorem consumeBit_mode : (consumeBit s).mode = s.mode := rfl
@[simp] theorem consumeBit_err : (consumeBit s).err = s.err := rfl
@[simp] theorem consumeBit_errInfo : (consumeBit s).errInfo = s.errInfo := rfl
@[simp] theorem consumeBit_ieErr : (consumeBit s).ieErr = s.ieErr := rfl
@[simp] theorem consumeBit_ieOut : (consumeBit s).ieOut = s.ieOut := rfl
@[simp] theorem consumeBit_ieIn : (consumeBit s).ieIn = s.ieIn := rfl
@[simp] theorem consumeBit_decBits : (consumeBit s).decBits = s.decBits := rfl
@[simp] theorem consumeBit_bitcnt : (consumeBit s).bitcnt = s.bitcnt + 1 := rfl
@[simp] theorem consumeBit_symcnt : (consumeBit s).symcnt = s.symcnt := rfl
@[simp] theorem consumeBit_decRem : (consumeBit s).decRem = s.decRem - 1 := rfl
@[simp] theorem consumeBit_tblInfo : (consumeBit s).tblInfo = s.tblInfo := rfl
@[simp] theorem consumeBit_cw : (consumeBit s).cw = s.cw := rfl
@[simp] theorem consumeBit_table : (consumeBit s).table = s.table := rfl
@[simp] theorem consumeBit_cur : (consumeBit s).cur = s.cur := rfl
@[simp] theorem consumeBit_acc : (consumeBit s).acc = s.acc := rfl
@[simp] theorem consumeBit_outq : (consumeBit s).outq = s.outq := rfl
@[simp] theorem consumeBit_rstAsserted : (consumeBit s).rstAsserted = s.rstAsserted := rfl
@[simp] theorem consumeBit_pending : (consumeBit s).pending = s.pending := rfl
@[simp] theorem consumeBit_returned : (consumeBit s).returned = s.returned := rfl

@[simp] theorem countSymbol_cfg (c : Bits) : (countSymbol c s).cfg = s.cfg := rfl
@[simp] theorem countSymbol_mode (c : Bits) : (countSymbol c s).mode = s.mode := rfl
@[simp] theorem countSymbol_err (c : Bits) : (countSymbol c s).err = s.err := rfl
@[simp] theorem countSymbol_errInfo (c : Bits) : (countSymbol c s).errInfo = s.errInfo := rfl
@[simp] theorem countSymbol_ieErr (c : Bits) : (countSymbol c s).ieErr = s.ieErr := rfl
@[simp] theorem countSymbol_ieOut (c : Bits) : (countSymbol c s).ieOut = s.ieOut := rfl
@[simp] theorem countSymbol_ieIn (c : Bits) : (countSymbol c s).ieIn = s.ieIn := rfl
@[simp] theorem countSymbol_decBits (c : Bits) : (countSymbol c s).decBits = s.decBits := rfl
@[simp] theorem countSymbol_bitcnt (c : Bits) : (countSymbol c s).bitcnt = s.bitcnt + BitVec.ofNat 32 c.length := rfl
@[simp] theorem countSymbol_symcnt (c : Bits) : (countSymbol c s).symcnt = s.symcnt + 1 := rfl
@[simp] theorem countSymbol_decRem (c : Bits) : (countSymbol c s).decRem = s.decRem := rfl
@[simp] theorem countSymbol_tblInfo (c : Bits) : (countSymbol c s).tblInfo = s.tblInfo := rfl
@[simp] theorem countSymbol_cw (c : Bits) : (countSymbol c s).cw = s.cw := rfl
@[simp] theorem countSymbol_table (c : Bits) : (countSymbol c s).table = s.table := rfl
@[simp] theorem countSymbol_cur (c : Bits) : (countSymbol c s).cur = s.cur := rfl
@[simp] theorem countSymbol_acc (c : Bits) : (countSymbol c s).acc = s.acc := rfl
@[simp] theorem countSymbol_outq (c : Bits) : (countSymbol c s).outq = s.outq := rfl
@[simp] theorem countSymbol_rstAsserted (c : Bits) : (countSymbol c s).rstAsserted = s.rstAsserted := rfl
@[simp] theorem countSymbol_pending (c : Bits) : (countSymbol c s).pending = s.pending := rfl
@[simp] theorem countSymbol_returned (c : Bits) : (countSymbol c s).returned = s.returned := rfl

@[simp] theorem resetEngine_cfg : (resetEngine s).cfg = s.cfg := rfl
@[simp] theorem resetEngine_mode : (resetEngine s).mode = State.reset.mode := rfl
@[simp] theorem resetEngine_err : (resetEngine s).err = State.reset.err := rfl
@[simp] theorem resetEngine_errInfo : (resetEngine s).errInfo = State.reset.errInfo := rfl
@[simp] theorem resetEngine_ieErr : (resetEngine s).ieErr = State.reset.ieErr := rfl
@[simp] theorem resetEngine_ieOut : (resetEngine s).ieOut = State.reset.ieOut := rfl
@[simp] theorem resetEngine_ieIn : (resetEngine s).ieIn = State.reset.ieIn := rfl
@[simp] theorem resetEngine_decBits : (resetEngine s).decBits = State.reset.decBits := rfl
@[simp] theorem resetEngine_bitcnt : (resetEngine s).bitcnt = State.reset.bitcnt := rfl
@[simp] theorem resetEngine_symcnt : (resetEngine s).symcnt = State.reset.symcnt := rfl
@[simp] theorem resetEngine_decRem : (resetEngine s).decRem = State.reset.decRem := rfl
@[simp] theorem resetEngine_tblInfo : (resetEngine s).tblInfo = State.reset.tblInfo := rfl
@[simp] theorem resetEngine_cw : (resetEngine s).cw = State.reset.cw := rfl
@[simp] theorem resetEngine_table : (resetEngine s).table = State.reset.table := rfl
@[simp] theorem resetEngine_cur : (resetEngine s).cur = State.reset.cur := rfl
@[simp] theorem resetEngine_acc : (resetEngine s).acc = State.reset.acc := rfl
@[simp] theorem resetEngine_outq : (resetEngine s).outq = State.reset.outq := rfl
@[simp] theorem resetEngine_rstAsserted : (resetEngine s).rstAsserted = s.rstAsserted := rfl
@[simp] theorem resetEngine_pending : (resetEngine s).pending = s.pending := rfl
@[simp] theorem resetEngine_returned : (resetEngine s).returned = s.returned := rfl

end Sys2Proof.Machine
end

