-- ==== Sys2Proof/Laws/Table.lean ====
section
/-! SUPPORT. The code table as data (spec/10_state.md R40): reading after an update, the canonical form, and what the
lookups of R93 and R134 find. -/

namespace Sys2Proof.Machine

/-- Read after update, at the same symbol and at another. -/
theorem tableGet_tableSet (t : Table) (s s' : Byte) (c : Bits) :
    tableGet (tableSet t s c) s' = if s' = s then some c else tableGet t s' := by
  induction t with
  | nil => simp [tableSet, tableGet, eq_comm]
  | cons e t ih =>
    obtain ⟨k, d⟩ := e
    simp only [tableSet]
    by_cases h1 : s < k
    · simp [h1, tableGet, eq_comm]
    · by_cases h2 : k = s
      · subst h2
        by_cases h3 : s' = k
        · simp [tableGet, h3]
        · simp [tableGet, h3, Ne.symm h3]
      · simp only [h1, h2, if_false, tableGet, ih]
        by_cases h3 : k = s'
        · subst h3; simp [h2]
        · simp [h3]

theorem mem_of_tableGet {t : Table} {s : Byte} {c : Bits} (h : tableGet t s = some c) : (s, c) ∈ t := by
  induction t with
  | nil => simp [tableGet] at h
  | cons e t ih =>
    obtain ⟨k, d⟩ := e
    simp only [tableGet] at h
    split at h
    · next hk => cases h; subst hk; simp
    · exact List.mem_cons_of_mem _ (ih h)

theorem tableGet_eq_none {t : Table} {s : Byte} : tableGet t s = none ↔ ∀ e ∈ t, e.1 ≠ s := by
  induction t with
  | nil => simp [tableGet]
  | cons e t ih =>
    obtain ⟨k, d⟩ := e
    by_cases h : k = s <;> simp [tableGet, h, ih]

/-- In the canonical form an entry is what its symbol reads. -/
theorem tableGet_of_mem {t : Table} (hw : Table.wf t) {s : Byte} {c : Bits} (h : (s, c) ∈ t) :
    tableGet t s = some c := by
  induction t with
  | nil => simp at h
  | cons e t ih =>
    obtain ⟨k, d⟩ := e
    have hp := List.pairwise_cons.mp hw
    rcases List.mem_cons.mp h with h | h
    · cases h; simp [tableGet]
    · have hlt : k < s := hp.1 _ h
      have hne : k ≠ s := fun e => by subst e; exact absurd hlt (BitVec.lt_irrefl k)
      simp [tableGet, hne, ih hp.2 h]

theorem mem_tableSet {t : Table} {s : Byte} {c : Bits} {e : Byte × Bits} (h : e ∈ tableSet t s c) :
    e = (s, c) ∨ (e ∈ t) := by
  induction t with
  | nil => simpa [tableSet] using h
  | cons x t ih =>
    obtain ⟨k, d⟩ := x
    simp only [tableSet] at h
    split at h
    · rcases List.mem_cons.mp h with h | h
      · exact .inl h
      · exact .inr h
    · split at h
      · rcases List.mem_cons.mp h with h | h
        · exact .inl h
        · exact .inr (List.mem_cons_of_mem _ h)
      · rcases List.mem_cons.mp h with h | h
        · exact .inr (by simp [h])
        · rcases ih h with h | h
          · exact .inl h
          · exact .inr (List.mem_cons_of_mem _ h)

/-- R40: an update keeps the canonical form. -/
theorem tableSet_wf {t : Table} (hw : Table.wf t) (s : Byte) (c : Bits) : Table.wf (tableSet t s c) := by
  induction t with
  | nil => simp [Table.wf, tableSet]
  | cons x t ih =>
    obtain ⟨k, d⟩ := x
    have hp := List.pairwise_cons.mp hw
    simp only [tableSet]
    split
    · next h =>
      refine List.pairwise_cons.mpr ⟨?_, hw⟩
      intro e he
      rcases List.mem_cons.mp he with he | he
      · subst he; exact h
      · exact BitVec.lt_trans h (hp.1 e he)
    · next h =>
      split
      · next hk => subst hk; exact List.pairwise_cons.mpr ⟨hp.1, hp.2⟩
      · next hk =>
        refine List.pairwise_cons.mpr ⟨?_, ih hp.2⟩
        intro e he
        rcases mem_tableSet he with he | he
        · subst he
          have h1 : ¬ s.toNat < k.toNat := h
          have h2 : k.toNat ≠ s.toNat := fun e => hk (BitVec.eq_of_toNat_eq e)
          have h3 : k.toNat < s.toNat := by omega
          exact BitVec.lt_def.mpr h3
        · exact hp.1 e he

/-- R184: an entry for a symbol above all others goes to the end. -/
theorem tableSet_last {t : Table} {s : Byte} (h : ∀ e ∈ t, e.1 < s) (c : Bits) : tableSet t s c = t ++ [(s, c)] := by
  induction t with
  | nil => rfl
  | cons e t ih =>
    have h1 := h e (by simp)
    have h2 : ¬ s < e.1 := fun h => BitVec.lt_irrefl _ (BitVec.lt_trans h h1)
    have h3 : e.1 ≠ s := fun h => by rw [h] at h1; exact BitVec.lt_irrefl _ h1
    rw [tableSet, if_neg h2, if_neg h3, ih fun x hx => h x (List.mem_cons_of_mem _ hx)]; rfl

/-- R36: adding an entry for a symbol without one makes one more. -/
theorem length_tableSet {t : Table} {s : Byte} (h : tableGet t s = none) (c : Bits) :
    (tableSet t s c).length = t.length + 1 := by
  induction t with
  | nil => simp [tableSet]
  | cons x t ih =>
    obtain ⟨k, d⟩ := x
    have hn := tableGet_eq_none.mp h
    have hk : k ≠ s := hn (k, d) (by simp)
    have ht : tableGet t s = none := tableGet_eq_none.mpr fun e he => hn e (List.mem_cons_of_mem _ he)
    simp only [tableSet]
    split
    · simp
    · simp [ih ht]

theorem tableLeaf_mem {t : Table} {p : Bits} {s : Byte} (h : tableLeaf t p = some s) : (s, p) ∈ t := by
  induction t with
  | nil => simp [tableLeaf] at h
  | cons x t ih =>
    obtain ⟨k, c⟩ := x
    simp only [tableLeaf] at h
    split at h
    · next hc => cases h; subst hc; simp
    · exact List.mem_cons_of_mem _ (ih h)

theorem tableLeaf_eq_none {t : Table} {p : Bits} : tableLeaf t p = none ↔ ∀ e ∈ t, e.2 ≠ p := by
  induction t with
  | nil => simp [tableLeaf]
  | cons x t ih =>
    obtain ⟨k, c⟩ := x
    by_cases h : c = p <;> simp [tableLeaf, h, ih]

/-- R134: in a prefix-free table the symbol at a leaf is unique. -/
theorem tableLeaf_of_mem {t : Table} (hpf : PrefixFree t) {s : Byte} {p : Bits} (h : (s, p) ∈ t) :
    tableLeaf t p = some s := by
  cases hl : tableLeaf t p with
  | none => exact absurd rfl (tableLeaf_eq_none.mp hl _ h)
  | some k =>
    have hk := tableLeaf_mem hl
    by_cases e : k = s
    · rw [e]
    · exact absurd (List.prefix_refl p) (hpf _ hk _ h e)

/-- R134: `p` is an internal node below which a codeword lies. -/
theorem tableInner_iff {t : Table} {p : Bits} :
    tableInner t p = true ↔ ∃ e ∈ t, p <+: e.2 ∧ p.length < e.2.length := by
  simp [tableInner, List.any_eq_true, List.isPrefixOf_iff_prefix]

/-- R93: the new codeword is a prefix of a loaded one, or has one as a prefix. -/
theorem tableConflict_iff {t : Table} {c : Bits} :
    tableConflict t c = true ↔ ∃ e ∈ t, c <+: e.2 ∨ e.2 <+: c := by
  simp [tableConflict, List.any_eq_true, List.isPrefixOf_iff_prefix]

/-- R93: an accepted entry keeps the table as the spec has it. -/
theorem tableSet_tableOk {t : Table} (ht : TableOk t) {s : Byte} {c : Bits}
    (hl : 1 ≤ c.length ∧ c.length ≤ Config.codeLenMax) (hc : tableConflict t c = false) :
    TableOk (tableSet t s c) := by
  have hno : ∀ e ∈ t, ¬ c <+: e.2 ∧ ¬ e.2 <+: c := by
    intro e he
    have : ¬ ∃ e ∈ t, c <+: e.2 ∨ e.2 <+: c := by
      rw [← tableConflict_iff, hc]; simp
    exact ⟨fun h => this ⟨e, he, .inl h⟩, fun h => this ⟨e, he, .inr h⟩⟩
  refine ⟨tableSet_wf ht.wf s c, ?_, ?_⟩
  · intro e he
    rcases mem_tableSet he with rfl | he
    · exact hl
    · exact ht.lengths e he
  · intro a ha b hb hne
    rcases mem_tableSet ha with rfl | ha <;> rcases mem_tableSet hb with rfl | hb
    · exact absurd rfl hne
    · exact (hno b hb).1
    · exact (hno a ha).2
    · exact ht.prefixFree a ha b hb hne

theorem tableOk_nil : TableOk [] :=
  ⟨List.Pairwise.nil, fun _ h => absurd h List.not_mem_nil, fun _ h => absurd h List.not_mem_nil⟩

/-- In the canonical form a table is what its symbols read. -/
theorem table_ext {t u : Table} (ht : Table.wf t) (hu : Table.wf u) (h : ∀ s, tableGet t s = tableGet u s) : t = u := by
  have ha : ∀ (a b : Byte × Bits), a ∈ t → b ∈ t → True := fun _ _ _ _ => trivial
  have : Std.Irrefl (fun a b : Byte × Bits => a.1 < b.1) := ⟨fun a => BitVec.lt_irrefl _⟩
  have : Std.Antisymm (fun a b : Byte × Bits => a.1 < b.1) := ⟨fun a b h1 h2 => absurd (BitVec.lt_trans h1 h2) (BitVec.lt_irrefl _)⟩
  refine List.Pairwise.eq_of_mem_iff (r := fun a b : Byte × Bits => a.1 < b.1) ht hu ?_
  rintro ⟨s, c⟩
  constructor
  · intro hm; exact mem_of_tableGet ((h s) ▸ tableGet_of_mem ht hm)
  · intro hm; exact mem_of_tableGet ((h s).symm ▸ tableGet_of_mem hu hm)

end Sys2Proof.Machine
end

