-- ==== Sys2Proof/Laws/Ops.lean ====
section
/-! SUPPORT. What each shared operation can do, said once: the FIFO (spec/20_memory.md R56), the packing primitive
(41_encode.md R112), the decode walk (42_decode.md R134) and the checks of an operation (43_control.md R152, R159). -/

namespace Sys2Proof.Machine

/-! ### The checks -/

theorem unlessError_of_noError {s : State} (h : s.err = none) (o : Outcome) : unlessError s o = o := by
  simp [unlessError, h]

theorem unlessError_of_error {s : State} (h : s.err ≠ none) (o : Outcome) : unlessError s o = .next s := by
  simp [unlessError, h]

theorem requireMode_of_eq {s : State} {m : Mode} (h : s.mode = m) (w : Word) (o : Outcome) :
    requireMode m w s o = o := by simp [requireMode, h]

theorem requireMode_of_ne {s : State} {m : Mode} (h : s.mode ≠ m) (w : Word) (o : Outcome) :
    requireMode m w s o = .next (raise .seq w s) := by simp [requireMode, h]

/-- What a checked operation that answers a next state has done. -/
theorem unlessError_next {s t : State} {o : Outcome} (h : unlessError s o = .next t) :
    (s.err ≠ none ∧ t = s) ∨ (s.err = none ∧ o = .next t) := by
  unfold unlessError at h
  split at h
  · next he => exact .inr ⟨he, h⟩
  · next he => cases h; exact .inl ⟨he, rfl⟩

theorem requireMode_next {s t : State} {m : Mode} {w : Word} {o : Outcome} (h : requireMode m w s o = .next t) :
    (s.mode ≠ m ∧ t = raise .seq w s) ∨ (s.mode = m ∧ o = .next t) := by
  unfold requireMode at h
  split at h
  · next he => exact .inr ⟨he, h⟩
  · next he => cases h; exact .inl ⟨he, rfl⟩

/-- A faulting checked operation faults in its body. -/
theorem unlessError_fault {s : State} {o : Outcome} {f : Fault} (h : unlessError s o = .fault f) :
    s.err = none ∧ o = .fault f := by
  unfold unlessError at h
  split at h
  · next he => exact ⟨he, h⟩
  · cases h

theorem requireMode_fault {s : State} {m : Mode} {w : Word} {o : Outcome} {f : Fault}
    (h : requireMode m w s o = .fault f) : s.mode = m ∧ o = .fault f := by
  unfold requireMode at h
  split at h
  · next he => exact ⟨he, h⟩
  · cases h

theorem hasRoom_iff {room : Nat} {s : State} : hasRoom room s = true ↔ s.outq.length + room ≤ s.cfg.outDepth := by
  unfold hasRoom outqLevel
  exact decide_eq_true_iff

/-! ### Flow -/

@[simp] theorem bind_go (s : State) (k : State → Flow) : (Flow.go s).bind k = k s := rfl
@[simp] theorem bind_raised (s : State) (k : State → Flow) : (Flow.raised s).bind k = .raised s := rfl
@[simp] theorem bind_fault (f : Fault) (k : State → Flow) : (Flow.fault f).bind k = .fault f := rfl
@[simp] theorem outcome_go (s : State) : (Flow.go s).outcome = .next s := rfl
@[simp] theorem outcome_raised (s : State) : (Flow.raised s).outcome = .next s := rfl
@[simp] theorem outcome_fault (f : Fault) : (Flow.fault f).outcome = .fault f := rfl

theorem bind_eq_go {f : Flow} {k : State → Flow} {t : State} (h : f.bind k = .go t) :
    ∃ s, f = .go s ∧ k s = .go t := by
  cases f with
  | go s => exact ⟨s, rfl, h⟩
  | raised s => cases h
  | fault e => cases h

theorem bind_eq_raised {f : Flow} {k : State → Flow} {t : State} (h : f.bind k = .raised t) :
    f = .raised t ∨ ∃ s, f = .go s ∧ k s = .raised t := by
  cases f with
  | go s => exact .inr ⟨s, rfl, h⟩
  | raised s => exact .inl h
  | fault e => cases h

theorem bind_eq_fault {f : Flow} {k : State → Flow} {e : Fault} (h : f.bind k = .fault e) :
    f = .fault e ∨ ∃ s, f = .go s ∧ k s = .fault e := by
  cases f with
  | go s => exact .inr ⟨s, rfl, h⟩
  | raised s => cases h
  | fault e' => exact .inl h

theorem outcome_eq_next {f : Flow} {t : State} (h : f.outcome = .next t) : f = .go t ∨ f = .raised t := by
  cases f with
  | go s => cases h; exact .inl rfl
  | raised s => cases h; exact .inr rfl
  | fault e => cases h

theorem outcome_eq_fault {f : Flow} {e : Fault} (h : f.outcome = .fault e) : f = .fault e := by
  cases f with
  | go s => cases h
  | raised s => cases h
  | fault e' => cases h; rfl

theorem outcome_ne_refused (f : Flow) (r : Refusal) : f.outcome ≠ .refused r := by cases f <;> simp [Flow.outcome]

/-! ### The FIFO (R56) -/

theorem fifoPush_of_room {s : State} (h : s.outq.length < s.cfg.outDepth) (b : Byte) :
    fifoPush b s = .go { s with outq := s.outq ++ [b] } := by simp [fifoPush, outqLevel, h]

theorem fifoPush_of_full {s : State} (h : ¬ s.outq.length < s.cfg.outDepth) (b : Byte) :
    fifoPush b s = .fault .fifoOverflow := by simp [fifoPush, outqLevel, h]

theorem fifoPush_go {b : Byte} {s t : State} (h : fifoPush b s = .go t) :
    s.outq.length < s.cfg.outDepth ∧ t = { s with outq := s.outq ++ [b] } := by
  unfold fifoPush at h
  split at h
  · next hl => cases h; exact ⟨hl, rfl⟩
  · cases h

theorem fifoPush_ne_raised (b : Byte) (s t : State) : fifoPush b s ≠ .raised t := by
  unfold fifoPush; split <;> simp

/-! ### Packing (R112) -/

/-- R112: where fewer than 8 bits have gathered the FIFO is not touched. -/
theorem appendBit_short {s : State} (h : s.acc.length < 7) (b : Bool) :
    appendBit b s = .go { s with acc := s.acc ++ [b] } := by
  have : ¬ s.acc.length = 7 := by omega
  simp [appendBit, this]

/-- R112: the eighth bit pushes the byte. -/
theorem appendBit_full {s : State} (h : s.acc.length = 7) (hr : s.outq.length < s.cfg.outDepth) (b : Bool) :
    appendBit b s = .go { s with outq := s.outq ++ [pad8 (s.acc ++ [b])], acc := [] } := by
  simp [appendBit, h, fifoPush_of_room hr]

/-- R112, R113: appending a whole bit string to at most 7 waiting bits pushes the whole bytes and keeps the rest. -/
theorem appendBits_eq (bs : Bits) (s : State) (ha : s.acc.length ≤ 7)
    (hr : s.outq.length + (s.acc.length + bs.length) / 8 ≤ s.cfg.outDepth) :
    appendBits bs s =
      .go { s with
        outq := s.outq ++ packBytes ((s.acc.length + bs.length) / 8) (s.acc ++ bs)
        acc := (s.acc ++ bs).drop (8 * ((s.acc.length + bs.length) / 8)) } := by
  induction bs generalizing s with
  | nil =>
    have : s.acc.length / 8 = 0 := by omega
    simp [appendBits, this, packBytes]
  | cons b bs ih =>
    by_cases h7 : s.acc.length = 7
    · have hd : (s.acc.length + (b :: bs).length) / 8 = bs.length / 8 + 1 := by simp [h7]; omega
      rw [hd] at hr ⊢
      rw [appendBits, appendBit_full h7 (by omega), bind_go, ih _ (by simp) (by simp; omega)]
      have e1 : (s.acc ++ b :: bs).take 8 = s.acc ++ [b] := by
        rw [show s.acc ++ b :: bs = (s.acc ++ [b]) ++ bs by simp]
        exact List.take_left' (by simp [h7])
      have e2 : (s.acc ++ b :: bs).drop 8 = bs := by
        rw [show s.acc ++ b :: bs = (s.acc ++ [b]) ++ bs by simp]
        exact List.drop_left' (by simp [h7])
      have e3 : (s.acc ++ b :: bs).drop (8 * (bs.length / 8 + 1)) = bs.drop (8 * (bs.length / 8)) := by
        rw [show 8 * (bs.length / 8 + 1) = 8 + 8 * (bs.length / 8) by omega, ← List.drop_drop, e2]
      simp [packBytes, e1, e2, e3]
    · have hl : s.acc.length < 7 := by omega
      have hd : (s.acc ++ [b]).length + bs.length = s.acc.length + (b :: bs).length := by simp; omega
      rw [appendBits, appendBit_short hl, bind_go, ih _ (by simp; omega) (by simp only [hd]; exact hr)]
      simp [Nat.add_assoc, Nat.add_comm 1]

theorem appendBit_ne_raised (b : Bool) (s t : State) : appendBit b s ≠ .raised t := by
  intro h
  unfold appendBit at h
  simp only at h
  split at h
  · rcases bind_eq_raised h with h | ⟨u, -, h⟩
    · exact fifoPush_ne_raised _ _ _ h
    · cases h
  · cases h

theorem appendBits_ne_raised (bs : Bits) (s t : State) : appendBits bs s ≠ .raised t := by
  induction bs generalizing s with
  | nil => simp [appendBits]
  | cons b bs ih =>
    intro h
    rcases bind_eq_raised h with h | ⟨u, -, h⟩
    · exact appendBit_ne_raised _ _ _ h
    · exact ih u h

/-- R112: one appended bit changes only ACC and OUTQ. -/
theorem appendBit_go {b : Bool} {s t : State} (h : appendBit b s = .go t) :
    t = { s with acc := t.acc, outq := t.outq } := by
  unfold appendBit at h
  simp only at h
  split at h
  · obtain ⟨u, hu, h⟩ := bind_eq_go h
    obtain ⟨-, rfl⟩ := fifoPush_go hu
    cases h; rfl
  · cases h; rfl

theorem appendBits_go {bs : Bits} {s t : State} (h : appendBits bs s = .go t) :
    t = { s with acc := t.acc, outq := t.outq } := by
  induction bs generalizing s with
  | nil => cases h; rfl
  | cons b bs ih =>
    obtain ⟨u, hu, h⟩ := bind_eq_go h
    have h1 := appendBit_go hu
    have h2 := ih h
    rw [h2, h1]

/-- R112: one appended bit extends the bits held in OUTQ and ACC, at most 7 of which wait. -/
theorem appendBit_payload {b : Bool} {s t : State} (h : appendBit b s = .go t) :
   unpack t.outq ++ t.acc = unpack s.outq ++ s.acc ++ [b] ∧ s.outq <+: t.outq := by
  unfold appendBit at h
  simp only at h
  split at h
  · next hl =>
    obtain ⟨u, hu, h⟩ := bind_eq_go h
    obtain ⟨-, rfl⟩ := fifoPush_go hu
    cases h
    simp [byteBits_pad8_of_length _ hl]
  · cases h; simp

theorem appendBit_accLen {b : Bool} {s t : State} (h : appendBit b s = .go t) (hl : s.acc.length ≤ 7) : t.acc.length ≤ 7 := by
  unfold appendBit at h
  simp only at h
  split at h
  · obtain ⟨u, hu, h⟩ := bind_eq_go h
    cases h; simp
  · next h8 => cases h; simp at h8 ⊢; omega

/-! ### The decode walk (R134) -/

/-- R133: the loop over two bit strings in a row. -/
theorem decBitLoop_append (v : Word) (bs cs : Bits) (s : State) :
   decBitLoop v (bs ++ cs) s = (decBitLoop v bs s).bind (decBitLoop v cs) := by
  induction bs generalizing s with
  | nil => rfl
  | cons b bs ih =>
    simp only [List.cons_append, decBitLoop]
    cases decBit b v s with
    | go t => simp [ih]
    | raised t => rfl
    | fault f => rfl


/-- R134: the walk reaches a leaf. -/
theorem decBit_leaf {b : Bool} {v : Word} {s : State} {sym : Byte}
    (h : tableLeaf s.table (s.cur ++ [b]) = some sym) (hr : s.outq.length < s.cfg.outDepth) :
    decBit b v s = .go { s with
      outq := s.outq ++ [sym], cur := [], symcnt := s.symcnt + 1, bitcnt := s.bitcnt + 1, decRem := s.decRem - 1 } := by
  simp [decBit, h, fifoPush_of_room hr, consumeBit]

/-- R134: the walk moves to an internal node. -/
theorem decBit_inner {b : Bool} {v : Word} {s : State} (h : tableLeaf s.table (s.cur ++ [b]) = none)
    (hi : tableInner s.table (s.cur ++ [b]) = true) :
    decBit b v s = .go { s with cur := s.cur ++ [b], bitcnt := s.bitcnt + 1, decRem := s.decRem - 1 } := by
  simp [decBit, h, hi, consumeBit]

/-- R134: the move requires a missing child. -/
theorem decBit_missing {b : Bool} {v : Word} {s : State} (h : tableLeaf s.table (s.cur ++ [b]) = none)
    (hi : tableInner s.table (s.cur ++ [b]) = false) : decBit b v s = .raised (raise .noChild v s) := by
  simp [decBit, h, hi]

/-- R134: the walk of a bit string that meets no missing child, in one update. -/
theorem decBitLoop_eq (v : Word) (bs : Bits) (s : State) (syms : List Byte) (cur : Bits)
    (hw : walkBits s.table s.cur bs = some (syms, cur)) (hr : s.outq.length + syms.length ≤ s.cfg.outDepth) :
    decBitLoop v bs s = .go { s with
      outq := s.outq ++ syms
      cur := cur
      symcnt := s.symcnt + BitVec.ofNat 32 syms.length
      bitcnt := s.bitcnt + BitVec.ofNat 32 bs.length
      decRem := s.decRem - BitVec.ofNat 32 bs.length } := by
  induction bs generalizing s syms with
  | nil => cases hw; simp [decBitLoop]
  | cons b bs ih =>
    have hadd : ∀ (x : Word) (n : Nat), x + 1#32 + BitVec.ofNat 32 n = x + BitVec.ofNat 32 (n + 1) := by
      intro x n
      rw [BitVec.ofNat_add, BitVec.add_comm (BitVec.ofNat 32 n), ← BitVec.add_assoc]
    have hsub : ∀ (x : Word) (n : Nat), x - 1#32 - BitVec.ofNat 32 n = x - BitVec.ofNat 32 (n + 1) := by
      intro x n
      rw [BitVec.ofNat_add, BitVec.sub_sub, BitVec.add_comm (BitVec.ofNat 32 n)]
    rw [walkBits] at hw
    split at hw
    · next sym hl =>
      obtain ⟨r, hr', hs⟩ := Option.map_eq_some_iff.mp hw
      obtain ⟨syms', cur'⟩ := r
      cases hs
      simp only [List.length_cons] at hr
      rw [decBitLoop, decBit_leaf hl (by omega), bind_go, ih _ syms' hr' (by simp; omega)]
      simp [hadd, hsub]
    · next hl =>
      split at hw
      · next hi =>
        rw [decBitLoop, decBit_inner hl hi, bind_go,
          ih { s with cur := s.cur ++ [b], bitcnt := s.bitcnt + 1, decRem := s.decRem - 1 } syms hw hr]
        simp [hadd, hsub]
      · cases hw

/-- Each symbol emitted takes at least one bit. -/
theorem walkBits_length {t : Table} {cur bs : Bits} {r : List Byte × Bits} (h : walkBits t cur bs = some r) :
    r.1.length ≤ bs.length := by
  induction bs generalizing cur r with
  | nil => cases h; simp
  | cons b bs ih =>
    rw [walkBits] at h
    split at h
    · obtain ⟨q, hq, rfl⟩ := Option.map_eq_some_iff.mp h
      have := ih hq
      simp; omega
    · split at h
      · have := ih h
        simp; omega
      · cases h

theorem walkBits_append (t : Table) (cur bs cs : Bits) :
    walkBits t cur (bs ++ cs) =
      (walkBits t cur bs).bind fun r => (walkBits t r.2 cs).map fun q => (r.1 ++ q.1, q.2) := by
  induction bs generalizing cur with
  | nil => simp [walkBits]
  | cons b bs ih =>
    simp only [List.cons_append, walkBits]
    split
    · rw [ih]
      cases walkBits t [] bs with
      | none => rfl
      | some r => simp [Option.map_map, Function.comp_def]
    · split
      · exact ih _
      · rfl

/-! ### Register reads -/

/-- A read of any register but DATA_OUT returns its value and changes nothing else (R157). -/
theorem readAccess_of_ne {r : Reg} (h : r ≠ .dataOut) (s : State) : readAccess r s = respond (readReg r s) s := by
  cases r <;> first | rfl | exact absurd rfl h

theorem popOutput_nil {s : State} (h : s.outq = []) : popOutput s = respond 0 s := by simp [popOutput, h]

theorem popOutput_cons {s : State} {b : Byte} {rest : List Byte} (h : s.outq = b :: rest) :
    popOutput s = respond (0x80000000#32 ||| field 0 b) { s with outq := rest } := by simp [popOutput, h]

/-- A read of DATA_OUT changes only OUTQ and what the host has received (R156). -/
theorem popOutput_frame (s : State) : popOutput s = { s with outq := (popOutput s).outq, returned := (popOutput s).returned } := by
  cases h : s.outq with
  | nil => rw [popOutput_nil h]; simp [respond]
  | cons b rest => rw [popOutput_cons h]; simp [respond]

end Sys2Proof.Machine
end

