-- ==== Sys2Proof/Laws/Exec.lean ====
section
/-! SUPPORT. What each meaning can answer, said once: if it answers a next state, which of the cases of its rule held.
Later proofs cite these instead of unfolding the meanings. -/

namespace Sys2Proof.Machine

/-! ### The encode family -/

/-- R113: the three ways an encode step ends. -/
theorem encodeStep_next {v : Word} {s t : State} (h : encodeStep v s = .next t) :
    (hasRoom Config.encRoom s = false ∧ t = raise .overrun v s) ∨
    (hasRoom Config.encRoom s = true ∧ tableGet s.table (dinByte v) = none ∧ t = raise .missingCode v s) ∨
    (hasRoom Config.encRoom s = true ∧ ∃ c u, tableGet s.table (dinByte v) = some c ∧ appendBits c s = .go u ∧
      t = countSymbol c u) := by
  unfold encodeStep at h
  split at h
  · next hr => cases h; exact .inl ⟨by simpa using hr, rfl⟩
  · next hr =>
    have hr' : hasRoom Config.encRoom s = true := by simpa using hr
    split at h
    · next hg => cases h; exact .inr (.inl ⟨hr', hg, rfl⟩)
    · next c hg =>
      rcases outcome_eq_next h with h | h
      · obtain ⟨u, hu, h⟩ := bind_eq_go h
        cases h
        exact .inr (.inr ⟨hr', c, u, hg, hu, rfl⟩)
      · rcases bind_eq_raised h with h | ⟨u, -, h⟩
        · exact absurd h (appendBits_ne_raised _ _ _)
        · cases h

/-- R115: what the body of ENC_FLUSH does. -/
theorem flushAcc_go {s t : State} (h : flushAcc s = .go t) :
    (s.acc = [] ∧ t = s) ∨
    (s.acc ≠ [] ∧ s.outq.length < s.cfg.outDepth ∧ t = { s with outq := s.outq ++ [pad8 s.acc], acc := [] }) := by
  unfold flushAcc at h
  split at h
  · next ha => cases h; exact .inl ⟨ha, rfl⟩
  · next ha =>
    obtain ⟨u, hu, h⟩ := bind_eq_go h
    obtain ⟨hl, rfl⟩ := fifoPush_go hu
    cases h
    exact .inr ⟨ha, hl, rfl⟩

theorem flushAcc_frame {s t : State} (h : flushAcc s = .go t) : t = { s with outq := t.outq, acc := t.acc } := by
  rcases flushAcc_go h with ⟨-, rfl⟩ | ⟨-, -, rfl⟩ <;> rfl

theorem flushAcc_ne_raised (s t : State) : flushAcc s ≠ .raised t := by
  intro h
  unfold flushAcc at h
  split at h
  · cases h
  · rcases bind_eq_raised h with h | ⟨u, -, h⟩
    · exact fifoPush_ne_raised _ _ _ h
    · cases h

/-- R115: ENC_FLUSH with its checks. -/
theorem execEncFlush_next {s t : State} (h : execEncFlush s = .next t) :
    (s.err ≠ none ∧ t = s) ∨ (s.err = none ∧ s.mode ≠ .enc ∧ t = raise .seq (cmdWord .encFlush) s) ∨
    (s.err = none ∧ s.mode = .enc ∧ ∃ u, flushAcc s = .go u ∧ t = { u with mode := .idle }) := by
  rcases unlessError_next h with h | ⟨he, h⟩
  · exact .inl h
  · rcases requireMode_next h with ⟨hm, h⟩ | ⟨hm, h⟩
    · exact .inr (.inl ⟨he, hm, h⟩)
    · rcases outcome_eq_next h with h | h
      · obtain ⟨u, hu, h⟩ := bind_eq_go h
        cases h
        exact .inr (.inr ⟨he, hm, u, hu, rfl⟩)
      · rcases bind_eq_raised h with h | ⟨u, -, h⟩
        · exact absurd h (flushAcc_ne_raised _ _)
        · cases h

/-! ### The decode family -/

/-- R134: what one step of the walk that goes on has done. -/
theorem decBit_go {b : Bool} {v : Word} {s t : State} (h : decBit b v s = .go t) :
    (∃ sym, tableLeaf s.table (s.cur ++ [b]) = some sym ∧ s.outq.length < s.cfg.outDepth ∧
      t = { s with outq := s.outq ++ [sym], cur := [], symcnt := s.symcnt + 1, bitcnt := s.bitcnt + 1,
                   decRem := s.decRem - 1 }) ∨
    (tableLeaf s.table (s.cur ++ [b]) = none ∧ tableInner s.table (s.cur ++ [b]) = true ∧
      t = { s with cur := s.cur ++ [b], bitcnt := s.bitcnt + 1, decRem := s.decRem - 1 }) := by
  unfold decBit at h
  simp only at h
  split at h
  · next sym hl =>
    obtain ⟨u, hu, h⟩ := bind_eq_go h
    obtain ⟨hr, rfl⟩ := fifoPush_go hu
    cases h
    exact .inl ⟨sym, hl, hr, rfl⟩
  · next hl =>
    split at h
    · next hi => cases h; exact .inr ⟨hl, hi, rfl⟩
    · cases h

/-- R134: a step of the walk that raises changed nothing before error entry. -/
theorem decBit_raised {b : Bool} {v : Word} {s t : State} (h : decBit b v s = .raised t) :
    tableLeaf s.table (s.cur ++ [b]) = none ∧ tableInner s.table (s.cur ++ [b]) = false ∧ t = raise .noChild v s := by
  unfold decBit at h
  simp only at h
  split at h
  · next sym hl =>
    rcases bind_eq_raised h with h | ⟨u, -, h⟩
    · exact absurd h (fifoPush_ne_raised _ _ _)
    · cases h
  · next hl =>
    split at h
    · cases h
    · next hi => cases h; exact ⟨hl, by simpa using hi, rfl⟩

/-- What a walk over bits may change: OUTQ, CUR and the counters. `n` is the number of bits consumed. -/
def WalkFrame (n : Nat) (s t : State) : Prop :=
  t = { s with outq := t.outq, cur := t.cur, symcnt := t.symcnt, bitcnt := s.bitcnt + BitVec.ofNat 32 n,
               decRem := s.decRem - BitVec.ofNat 32 n }

theorem walkFrame_refl (s : State) : WalkFrame 0 s s := by simp [WalkFrame]

theorem walkFrame_step {n : Nat} {s t u : State} (h1 : WalkFrame 1 s t) (h2 : WalkFrame n t u) :
    WalkFrame (n + 1) s u := by
  unfold WalkFrame at *
  have e1 : s.bitcnt + BitVec.ofNat 32 1 + BitVec.ofNat 32 n = s.bitcnt + BitVec.ofNat 32 (n + 1) := by
    rw [BitVec.ofNat_add, BitVec.add_comm (BitVec.ofNat 32 n), ← BitVec.add_assoc]
  have e2 : s.decRem - BitVec.ofNat 32 1 - BitVec.ofNat 32 n = s.decRem - BitVec.ofNat 32 (n + 1) := by
    rw [BitVec.ofNat_add, BitVec.sub_sub, BitVec.add_comm (BitVec.ofNat 32 n)]
  rw [h2, h1]
  simp [e1, e2]

theorem decBit_go_frame {b : Bool} {v : Word} {s t : State} (h : decBit b v s = .go t) : WalkFrame 1 s t := by
  rcases decBit_go h with ⟨sym, -, -, rfl⟩ | ⟨-, -, rfl⟩ <;> simp [WalkFrame]

/-- R133: a loop that goes on consumed all its bits. -/
theorem decBitLoop_go_frame {bs : Bits} {v : Word} {s t : State} (h : decBitLoop v bs s = .go t) :
    WalkFrame bs.length s t := by
  induction bs generalizing s with
  | nil => cases h; exact walkFrame_refl _
  | cons b bs ih =>
    obtain ⟨u, hu, h⟩ := bind_eq_go h
    exact walkFrame_step (decBit_go_frame hu) (ih h)

/-- R133, R134: a loop that raises went on over some of its bits and stopped at a missing child. -/
theorem decBitLoop_raised {bs : Bits} {v : Word} {s t : State} (h : decBitLoop v bs s = .raised t) :
    ∃ pre u, pre.length < bs.length ∧ decBitLoop v pre s = .go u ∧ t = raise .noChild v u := by
  induction bs generalizing s with
  | nil => cases h
  | cons b bs ih =>
    rcases bind_eq_raised h with h | ⟨u, hu, h⟩
    · exact ⟨[], s, by simp, rfl, (decBit_raised h).2.2⟩
    · obtain ⟨pre, w, hn, hw, ht⟩ := ih h
      exact ⟨b :: pre, w, by simpa using hn, by rw [decBitLoop, hu, bind_go, hw], ht⟩

/-- R134: the walk keeps the cursor at the root or at an internal node, and pushes only into free space. -/
theorem decBit_go_cursor {b : Bool} {v : Word} {s t : State} (h : decBit b v s = .go t)
    (hq : s.outq.length ≤ s.cfg.outDepth) :
    t.outq.length ≤ t.cfg.outDepth ∧ (t.cur = [] ∨ tableInner t.table t.cur = true) := by
  rcases decBit_go h with ⟨sym, -, hr, rfl⟩ | ⟨-, hi, rfl⟩
  · exact ⟨by simpa using hr, .inl rfl⟩
  · exact ⟨hq, .inr hi⟩

theorem decBitLoop_go_cursor {bs : Bits} {v : Word} {s t : State} (h : decBitLoop v bs s = .go t)
    (hq : s.outq.length ≤ s.cfg.outDepth) (hc : s.cur = [] ∨ tableInner s.table s.cur = true) :
    t.outq.length ≤ t.cfg.outDepth ∧ (t.cur = [] ∨ tableInner t.table t.cur = true) := by
  induction bs generalizing s with
  | nil => cases h; exact ⟨hq, hc⟩
  | cons b bs ih =>
    obtain ⟨u, hu, h⟩ := bind_eq_go h
    obtain ⟨h1, h2⟩ := decBit_go_cursor hu hq
    exact ih h h1 h2

/-- R133: the number of bits a data write consumes. -/
theorem consumedBits_length (v : Word) (s : State) : (consumedBits v s).length = min 8 s.decRem.toNat := by
  simp [consumedBits]

/-- R133: the ways a decode step ends. -/
theorem decodeStep_next {v : Word} {s t : State} (h : decodeStep v s = .next t) :
    (s.decRem = 0 ∧ t = raise .seq v s) ∨
    (s.decRem ≠ 0 ∧ hasRoom Config.decRoom s = false ∧ t = raise .overrun v s) ∨
    (s.decRem ≠ 0 ∧ hasRoom Config.decRoom s = true ∧
      ((∃ u, decBitLoop v (consumedBits v s) s = .go u ∧ u.decRem = 0 ∧ u.cur ≠ [] ∧ t = raise .truncated v u) ∨
       (decBitLoop v (consumedBits v s) s = .go t ∧ (t.decRem = 0 → t.cur = [])) ∨
       decBitLoop v (consumedBits v s) s = .raised t)) := by
  unfold decodeStep at h
  split at h
  · next h0 => cases h; exact .inl ⟨h0, rfl⟩
  · next h0 =>
    split at h
    · next hr => cases h; exact .inr (.inl ⟨h0, by simpa using hr, rfl⟩)
    · next hr =>
      refine .inr (.inr ⟨h0, by simpa using hr, ?_⟩)
      rcases outcome_eq_next h with h | h
      · obtain ⟨u, hu, h⟩ := bind_eq_go h
        unfold endCheck at h
        split at h
        · cases h
        · next hc =>
          cases h
          refine .inr (.inl ⟨hu, fun hz => ?_⟩)
          by_contra hne
          exact hc ⟨hz, hne⟩
      · rcases bind_eq_raised h with h | ⟨u, hu, h⟩
        · exact .inr (.inr h)
        · unfold endCheck at h
          split at h
          · next hc => cases h; exact .inl ⟨u, hu, hc.1, hc.2, rfl⟩
          · cases h

/-! ### The data write -/

/-- R159: the ways a data write ends. -/
theorem dataWrite_next {v : Word} {s t : State} (h : dataWrite v s = .next t) :
    (s.err ≠ none ∧ t = s) ∨ (s.err = none ∧ s.mode = .idle ∧ t = raise .seq v s) ∨
    (s.err = none ∧ s.mode = .enc ∧ encodeStep v s = .next t) ∨
    (s.err = none ∧ s.mode = .dec ∧ decodeStep v s = .next t) := by
  rcases unlessError_next h with h | ⟨he, h⟩
  · exact .inl h
  · cases hm : s.mode with
    | idle => rw [hm] at h; cases h; exact .inr (.inl ⟨he, rfl, rfl⟩)
    | enc => rw [hm] at h; exact .inr (.inr (.inl ⟨he, rfl, h⟩))
    | dec => rw [hm] at h; exact .inr (.inr (.inr ⟨he, rfl, h⟩))

/-! ### The code table family -/

theorem execTblClear_next {s t : State} (h : execTblClear s = .next t) :
    (s.err ≠ none ∧ t = s) ∨ (s.err = none ∧ s.mode ≠ .idle ∧ t = raise .seq (cmdWord .tblClear) s) ∨
    (s.err = none ∧ s.mode = .idle ∧ t = { s with table := [], tblInfo := 0 }) := by
  rcases unlessError_next h with h | ⟨he, h⟩
  · exact .inl h
  · rcases requireMode_next h with ⟨hm, h⟩ | ⟨hm, h⟩
    · exact .inr (.inl ⟨he, hm, h⟩)
    · cases h; exact .inr (.inr ⟨he, hm, rfl⟩)

/-- R93: the checks in order, and the update. -/
theorem addEntry_cases (sym len : Byte) (w : Word) (s : State) :
    (len = 0 ∧ addEntry sym len w s = raise .tblLen w s) ∨
    (len ≠ 0 ∧ (tableGet s.table sym).isSome = true ∧ addEntry sym len w s = raise .tblDup w s) ∨
    (len ≠ 0 ∧ tableGet s.table sym = none ∧ tableConflict s.table (stageCode s.cw len.toNat) = true ∧
      addEntry sym len w s = raise .tblPrefix w s) ∨
    (len ≠ 0 ∧ tableGet s.table sym = none ∧ tableConflict s.table (stageCode s.cw len.toNat) = false ∧
      addEntry sym len w s = { s with table := tableSet s.table sym (stageCode s.cw len.toNat) }) := by
  unfold addEntry
  by_cases h0 : len = 0
  · exact .inl ⟨h0, by rw [if_pos h0]⟩
  · rw [if_neg h0]
    by_cases h1 : (tableGet s.table sym).isSome = true
    · exact .inr (.inl ⟨h0, h1, by rw [if_pos h1]⟩)
    · have h1' : tableGet s.table sym = none := by simpa using h1
      rw [if_neg h1]
      by_cases h2 : tableConflict s.table (stageCode s.cw len.toNat) = true
      · exact .inr (.inr (.inl ⟨h0, h1', h2, by rw [if_pos h2]⟩))
      · exact .inr (.inr (.inr ⟨h0, h1', by simpa using h2, by rw [if_neg h2]⟩))

theorem execTblAdd_next {sym len : Byte} {s t : State} (h : execTblAdd sym len s = .next t) :
    (s.err ≠ none ∧ t = s) ∨ (s.err = none ∧ s.mode ≠ .idle ∧ t = raise .seq (cmdWord (.tblAdd sym len)) s) ∨
    (s.err = none ∧ s.mode = .idle ∧ t = addEntry sym len (cmdWord (.tblAdd sym len)) s) := by
  rcases unlessError_next h with h | ⟨he, h⟩
  · exact .inl h
  · rcases requireMode_next h with ⟨hm, h⟩ | ⟨hm, h⟩
    · exact .inr (.inl ⟨he, hm, h⟩)
    · cases h; exact .inr (.inr ⟨he, hm, rfl⟩)

theorem execTblRead_next {sym : Byte} {s t : State} (h : execTblRead sym s = .next t) :
    (s.err ≠ none ∧ t = s) ∨
    (s.err = none ∧ t = { s with tblInfo := tblInfoOf sym (tableGet s.table sym),
                                 cw := stagingOf ((tableGet s.table sym).getD []) }) := by
  rcases unlessError_next h with h | ⟨he, h⟩
  · exact .inl h
  · cases h; exact .inr ⟨he, rfl⟩

/-- R37, R94: the fields of TBL_INFO. -/
theorem tblInfo_fields (sym : Byte) (e : Option Bits) :
   (tblInfoOf sym e).getLsbD 31 = e.isSome ∧ (tblInfoOf sym e).extractLsb' 16 15 = 0#15 ∧
   (tblInfoOf sym e).extractLsb' 8 8 = BitVec.ofNat 8 (e.getD []).length ∧ (tblInfoOf sym e).extractLsb' 0 8 = sym := by
  refine ⟨?_, ?_, ?_, ?_⟩
  · simp only [tblInfoOf, BitVec.getLsbD_or, getLsbD_field]
    rw [BitVec.getLsbD_of_ge sym _ (by omega), BitVec.getLsbD_of_ge (BitVec.ofNat 8 _) _ (by omega)]
    simp
  · apply BitVec.eq_of_getLsbD_eq; intro i hi
    simp only [tblInfoOf, BitVec.getLsbD_extractLsb', BitVec.getLsbD_or, getLsbD_field]
    rw [BitVec.getLsbD_of_ge sym _ (by omega), BitVec.getLsbD_of_ge (BitVec.ofNat 8 _) _ (by omega)]
    simp; omega
  · apply BitVec.eq_of_getLsbD_eq; intro i hi
    simp only [tblInfoOf, BitVec.getLsbD_extractLsb', BitVec.getLsbD_or, getLsbD_field]
    rw [BitVec.getLsbD_of_ge sym (8+i-0) (by omega)]
    simp [hi, show 8 + i < 32 by omega, show ¬ 31 ≤ 8 + i by omega]
  · apply BitVec.eq_of_getLsbD_eq; intro i hi
    simp only [tblInfoOf, BitVec.getLsbD_extractLsb', BitVec.getLsbD_or, getLsbD_field]
    simp [hi, show i < 32 by omega, show ¬ 31 ≤ i by omega, show ¬ 8 ≤ i by omega]

/-! ### Opening and closing a stream -/

theorem execEncStart_next {s t : State} (h : execEncStart s = .next t) :
    (s.err ≠ none ∧ t = s) ∨ (s.err = none ∧ s.mode ≠ .idle ∧ t = raise .seq (cmdWord .encStart) s) ∨
    (s.err = none ∧ s.mode = .idle ∧
      t = { s with mode := .enc, acc := [], outq := [], bitcnt := 0, symcnt := 0, decRem := 0 }) := by
  rcases unlessError_next h with h | ⟨he, h⟩
  · exact .inl h
  · rcases requireMode_next h with ⟨hm, h⟩ | ⟨hm, h⟩
    · exact .inr (.inl ⟨he, hm, h⟩)
    · cases h; exact .inr (.inr ⟨he, hm, rfl⟩)

theorem execDecStart_next {s t : State} (h : execDecStart s = .next t) :
    (s.err ≠ none ∧ t = s) ∨ (s.err = none ∧ s.mode ≠ .idle ∧ t = raise .seq (cmdWord .decStart) s) ∨
    (s.err = none ∧ s.mode = .idle ∧
      t = { s with mode := .dec, cur := [], outq := [], decRem := s.decBits, bitcnt := 0, symcnt := 0 }) := by
  rcases unlessError_next h with h | ⟨he, h⟩
  · exact .inl h
  · rcases requireMode_next h with ⟨hm, h⟩ | ⟨hm, h⟩
    · exact .inr (.inl ⟨he, hm, h⟩)
    · cases h; exact .inr (.inr ⟨he, hm, rfl⟩)

theorem execDecFinish_next {s t : State} (h : execDecFinish s = .next t) :
    (s.err ≠ none ∧ t = s) ∨ (s.err = none ∧ s.mode ≠ .dec ∧ t = raise .seq (cmdWord .decFinish) s) ∨
    (s.err = none ∧ s.mode = .dec ∧ s.decRem ≠ 0 ∧ t = raise .truncated (cmdWord .decFinish) s) ∨
    (s.err = none ∧ s.mode = .dec ∧ s.decRem = 0 ∧ t = { s with mode := .idle }) := by
  rcases unlessError_next h with h | ⟨he, h⟩
  · exact .inl h
  · rcases requireMode_next h with ⟨hm, h⟩ | ⟨hm, h⟩
    · exact .inr (.inl ⟨he, hm, h⟩)
    · cases h
      by_cases h0 : s.decRem = 0
      · exact .inr (.inr (.inr ⟨he, hm, h0, by rw [finishState, if_neg (not_not.mpr h0)]⟩))
      · exact .inr (.inr (.inl ⟨he, hm, h0, by rw [finishState, if_pos h0]⟩))

/-! ### Every operation at once -/

/-- A data write: the three rows whose access is a write of `v` to DATA_IN (R78). -/
def IsDataWrite (i : Instr) (v : Word) : Prop := i = .encByte v ∨ i = .decByte v ∨ i = .dinIdle v

/-- The ways an operation can take a state to a next one, said once. -/
inductive Effect (i : Instr) (s t : State) : Prop
  /-- No effect: NOP, REG_WI, and what the error state ignores. -/
  | ignored (h : t = s)
  | abort (hi : i = .abort) (h : t = abortState s)
  | pop (hi : i = .outPop ∨ i = .regRd .dataOut) (h : t = popOutput s)
  | read (r : Reg) (hi : i = .regRd r) (h : t = respond (readReg r s) s)
  | ctrl (v : Word) (hi : i = .ctrlWr v)
      (h : t = { s with ieErr := v.getLsbD 0, ieOut := v.getLsbD 1, ieIn := v.getLsbD 2 })
  | decBits (v : Word) (hi : i = .decBitsWr v) (h : t = { s with decBits := v })
  | stage (k : Fin 8) (v : Word) (hi : i = .cwWr k v) (h : t = { s with cw := s.cw.set k v })
  /-- An error raised before anything else has changed. -/
  | raised (c : Cause) (w : Word) (he : s.err = none) (hc : i.selectedIn s.mode = true → c ∈ mayRaise i)
      (hw : encode i = writeOf .cmd w ∨ encode i = writeOf .dataIn w) (h : t = raise c w s)
  | tblClear (he : s.err = none) (hm : s.mode = .idle) (hi : i = .tblClear)
      (h : t = { s with table := [], tblInfo := 0 })
  | tblAdd (sym len : Byte) (he : s.err = none) (hm : s.mode = .idle) (hi : i = .tblAdd sym len) (hl : len ≠ 0)
      (hg : tableGet s.table sym = none) (hc : tableConflict s.table (stageCode s.cw len.toNat) = false)
      (h : t = { s with table := tableSet s.table sym (stageCode s.cw len.toNat) })
  | tblRead (sym : Byte) (he : s.err = none) (hi : i = .tblRead sym)
      (h : t = { s with tblInfo := tblInfoOf sym (tableGet s.table sym),
                        cw := stagingOf ((tableGet s.table sym).getD []) })
  | encStart (he : s.err = none) (hm : s.mode = .idle) (hi : i = .encStart)
      (h : t = { s with mode := .enc, acc := [], outq := [], bitcnt := 0, symcnt := 0, decRem := 0 })
  | encFlush (u : State) (he : s.err = none) (hm : s.mode = .enc) (hi : i = .encFlush) (hu : flushAcc s = .go u)
      (h : t = { u with mode := .idle })
  | decStart (he : s.err = none) (hm : s.mode = .idle) (hi : i = .decStart)
      (h : t = { s with mode := .dec, cur := [], outq := [], decRem := s.decBits, bitcnt := 0, symcnt := 0 })
  | decFinish (he : s.err = none) (hm : s.mode = .dec) (hi : i = .decFinish) (h0 : s.decRem = 0)
      (h : t = { s with mode := .idle })
  | encoded (v : Word) (c : Bits) (u : State) (he : s.err = none) (hm : s.mode = .enc) (hi : IsDataWrite i v)
      (hr : hasRoom Config.encRoom s = true) (hg : tableGet s.table (dinByte v) = some c)
      (hu : appendBits c s = .go u) (h : t = countSymbol c u)
  | decoded (v : Word) (he : s.err = none) (hm : s.mode = .dec) (hi : IsDataWrite i v) (h0 : s.decRem ≠ 0)
      (hr : hasRoom Config.decRoom s = true) (hu : decBitLoop v (consumedBits v s) s = .go t)
      (hc : t.decRem = 0 → t.cur = [])
  | truncated (v : Word) (u : State) (he : s.err = none) (hm : s.mode = .dec) (hi : IsDataWrite i v)
      (h0 : s.decRem ≠ 0) (hr : hasRoom Config.decRoom s = true)
      (hu : decBitLoop v (consumedBits v s) s = .go u) (hc : u.cur ≠ []) (h : t = raise .truncated v u)
  | noChild (v : Word) (pre : Bits) (u : State) (he : s.err = none) (hm : s.mode = .dec) (hi : IsDataWrite i v)
      (hn : pre.length < min 8 s.decRem.toNat) (hu : decBitLoop v pre s = .go u) (h : t = raise .noChild v u)

theorem IsDataWrite.encode_eq {i : Instr} {v : Word} (h : IsDataWrite i v) : encode i = writeOf .dataIn v := by
  rcases h with rfl | rfl | rfl <;> rfl

/-- The errors a data write can raise, by mode (R202). -/
def dataErrors : Mode → List Cause
  | .idle => [.seq]
  | .enc => [.overrun, .missingCode]
  | .dec => [.seq, .overrun, .noChild, .truncated]

theorem IsDataWrite.mayRaise_eq {i : Instr} {v : Word} {m : Mode} (h : IsDataWrite i v)
    (hs : i.selectedIn m = true) : mayRaise i = dataErrors m := by
  rcases h with rfl | rfl | rfl <;> cases m <;> first | rfl | cases hs

/-- R159 and the rules it names: what a data write that answers a next state has done. -/
theorem dataWrite_effect {i : Instr} {v : Word} {s t : State} (hi : IsDataWrite i v) (h : dataWrite v s = .next t) :
    Effect i s t := by
  rcases dataWrite_next h with ⟨-, h⟩ | ⟨he, hm, h⟩ | ⟨he, hm, h⟩ | ⟨he, hm, h⟩
  · exact .ignored h
  · exact .raised _ _ he (fun hs => by rw [hi.mayRaise_eq hs, hm]; simp [dataErrors]) (.inr hi.encode_eq) h
  · rcases encodeStep_next h with ⟨-, h⟩ | ⟨-, -, h⟩ | ⟨hr, c, u, hg, hu, h⟩
    · exact .raised _ _ he (fun hs => by rw [hi.mayRaise_eq hs, hm]; simp [dataErrors]) (.inr hi.encode_eq) h
    · exact .raised _ _ he (fun hs => by rw [hi.mayRaise_eq hs, hm]; simp [dataErrors]) (.inr hi.encode_eq) h
    · exact .encoded v c u he hm hi hr hg hu h
  · rcases decodeStep_next h with ⟨-, h⟩ | ⟨-, -, h⟩ | ⟨h0, hr, ⟨u, hu, -, hc, h⟩ | ⟨hu, hc⟩ | hu⟩
    · exact .raised _ _ he (fun hs => by rw [hi.mayRaise_eq hs, hm]; simp [dataErrors]) (.inr hi.encode_eq) h
    · exact .raised _ _ he (fun hs => by rw [hi.mayRaise_eq hs, hm]; simp [dataErrors]) (.inr hi.encode_eq) h
    · exact .truncated v u he hm hi h0 hr hu hc h
    · exact .decoded v he hm hi h0 hr hu hc
    · obtain ⟨pre, u, hn, hw, h⟩ := decBitLoop_raised hu
      rw [consumedBits_length] at hn
      exact .noChild v pre u he hm hi hn hw h

/-- The inversion lemma of `exec`: what an operation that answers a next state has done. -/
theorem exec_effect {i : Instr} {s t : State} (h : exec i s = .next t) : Effect i s t := by
  cases i with
  | nop => cases h; exact .ignored rfl
  | abort => cases h; exact .abort rfl rfl
  | tblClear =>
    rcases execTblClear_next h with ⟨-, h⟩ | ⟨he, -, h⟩ | ⟨he, hm, h⟩
    · exact .ignored h
    · exact .raised _ _ he (fun _ => by simp [mayRaise]) (.inl rfl) h
    · exact .tblClear he hm rfl h
  | tblAdd sym len =>
    rcases execTblAdd_next h with ⟨-, h⟩ | ⟨he, -, h⟩ | ⟨he, hm, h⟩
    · exact .ignored h
    · exact .raised _ _ he (fun _ => by simp [mayRaise]) (.inl rfl) h
    · rcases addEntry_cases sym len (cmdWord (.tblAdd sym len)) s with ⟨a, e⟩ | ⟨a, b, e⟩ | ⟨a, b, c, e⟩ | ⟨a, b, c, e⟩
      · exact .raised _ _ he (fun _ => by simp [mayRaise]) (.inl rfl) (h.trans e)
      · exact .raised _ _ he (fun _ => by simp [mayRaise]) (.inl rfl) (h.trans e)
      · exact .raised _ _ he (fun _ => by simp [mayRaise]) (.inl rfl) (h.trans e)
      · exact .tblAdd sym len he hm rfl a b c (h.trans e)
  | tblRead sym =>
    rcases execTblRead_next h with ⟨-, h⟩ | ⟨he, h⟩
    · exact .ignored h
    · exact .tblRead sym he rfl h
  | encStart =>
    rcases execEncStart_next h with ⟨-, h⟩ | ⟨he, -, h⟩ | ⟨he, hm, h⟩
    · exact .ignored h
    · exact .raised _ _ he (fun _ => by simp [mayRaise]) (.inl rfl) h
    · exact .encStart he hm rfl h
  | encFlush =>
    rcases execEncFlush_next h with ⟨-, h⟩ | ⟨he, -, h⟩ | ⟨he, hm, u, hu, h⟩
    · exact .ignored h
    · exact .raised _ _ he (fun _ => by simp [mayRaise]) (.inl rfl) h
    · exact .encFlush u he hm rfl hu h
  | decStart =>
    rcases execDecStart_next h with ⟨-, h⟩ | ⟨he, -, h⟩ | ⟨he, hm, h⟩
    · exact .ignored h
    · exact .raised _ _ he (fun _ => by simp [mayRaise]) (.inl rfl) h
    · exact .decStart he hm rfl h
  | decFinish =>
    rcases execDecFinish_next h with ⟨-, h⟩ | ⟨he, -, h⟩ | ⟨he, -, -, h⟩ | ⟨he, hm, h0, h⟩
    · exact .ignored h
    · exact .raised _ _ he (fun _ => by simp [mayRaise]) (.inl rfl) h
    · exact .raised _ _ he (fun _ => by simp [mayRaise]) (.inl rfl) h
    · exact .decFinish he hm rfl h0 h
  | encByte v => exact dataWrite_effect (.inl rfl) h
  | decByte v => exact dataWrite_effect (.inr (.inl rfl)) h
  | dinIdle v => exact dataWrite_effect (.inr (.inr rfl)) h
  | outPop => cases h; exact .pop (.inl rfl) rfl
  | ctrlWr v => cases h; exact .ctrl v rfl rfl
  | decBitsWr v => cases h; exact .decBits v rfl rfl
  | cwWr k v => cases h; exact .stage k v rfl rfl
  | regRd r =>
    cases h
    by_cases hr : r = .dataOut
    · subst hr; exact .pop (.inr rfl) rfl
    · exact .read r rfl (readAccess_of_ne hr s)
  | regWi r v => cases h; exact .ignored rfl

/-! ### The bus -/

/-- R53: the ways a host access ends. -/
theorem performAccess_cases (a : Access) (s : State) :
    (s.rstAsserted = true ∧ performAccess a s = .refused .duringReset) ∨
    (s.rstAsserted = false ∧ ∃ i, decode s.mode a = .ok i ∧ performAccess a s = exec i s) ∨
    (s.rstAsserted = false ∧ ∃ e, decode s.mode a = .error e ∧ performAccess a s = rejected e s) := by
  unfold performAccess
  cases hr : s.rstAsserted with
  | true => simp
  | false =>
    cases hd : decode s.mode a with
    | ok i => exact .inr (.inl ⟨rfl, i, rfl, rfl⟩)
    | error e => exact .inr (.inr ⟨rfl, e, rfl, rfl⟩)

/-- R53: outside reset an access runs the operation it decodes to. -/
theorem performAccess_of_ok {s : State} {a : Access} {i : Instr} (hr : s.rstAsserted = false)
    (hd : decode s.mode a = .ok i) : performAccess a s = exec i s := by
  unfold performAccess
  rw [if_neg (by simp [hr]), hd]

end Sys2Proof.Machine
end

