-- ==== Sys2Proof/Laws/Host.lean ====
section
/-! SUPPORT. The host reference's functions (spec/49_host_reference.md R172, R175, R179, R180, R184), one lemma for each. -/

namespace Sys2Proof.HostRef

open Sys2Proof.Machine

/-- The symbols at the leaves, left to right. -/
def HTree.syms : HTree → List Byte
  | .leaf s _ _ => [s]
  | .node l r _ _ => l.syms ++ r.syms

theorem HTree.syms_pos (t : HTree) : 1 ≤ t.syms.length := by
  induction t with
  | leaf => simp [syms]
  | node l r f o h1 h2 => simp [syms]; omega

/-- R175: the walk visits every leaf once. -/
theorem walk_syms (t : HTree) (p : Bits) : (walk t p).map Prod.fst = t.syms := by
  induction t generalizing p with
  | leaf => rfl
  | node l r f o h1 h2 => simp [walk, HTree.syms, h1, h2]

/-- R175: the path recorded at a leaf goes on from where the walk started. -/
theorem walk_path (t : HTree) (p : Bits) : ∀ e ∈ walk t p, p <+: e.2 ∧ e.2.length ≤ p.length + (t.syms.length - 1) := by
  induction t generalizing p with
  | leaf => intro e he; simp [walk] at he; subst he; simp [HTree.syms]
  | node l r f o h1 h2 =>
    have := l.syms_pos
    have := r.syms_pos
    intro e he
    simp only [walk, List.mem_append] at he
    rcases he with he | he
    · obtain ⟨a, b⟩ := h1 _ e he
      refine ⟨(List.prefix_append _ _).trans a, ?_⟩
      simp [HTree.syms] at b ⊢; omega
    · obtain ⟨a, b⟩ := h2 _ e he
      refine ⟨(List.prefix_append _ _).trans a, ?_⟩
      simp [HTree.syms] at b ⊢; omega

/-- R172: taking the least node out loses none. -/
theorem takeLeast_perm (x : HTree) (ts : List HTree) : ((takeLeast x ts).1 :: (takeLeast x ts).2).Perm (x :: ts) := by
  induction ts generalizing x with
  | nil => exact .refl _
  | cons t ts ih =>
    simp only [takeLeast]
    split
    · exact (List.Perm.swap _ _ _).trans ((ih t).cons x)
    · refine (List.Perm.swap _ _ _).trans (((ih x).cons t).trans (List.Perm.swap _ _ _))

theorem leaves_syms (n : Nat) (f : Freq) : (leaves n f).flatMap HTree.syms = f.map Prod.fst ∧ (leaves n f).length = f.length := by
  induction f generalizing n with
  | nil => exact ⟨rfl, rfl⟩
  | cons e f ih => obtain ⟨s, k⟩ := e; simp [leaves, HTree.syms, ih]

/-- R183 (a). -/
theorem takeBytes_append (a b : List Byte) (n : Nat) (h : a.length = n) : takeBytes n (a ++ b) = .ok (a, b) := by
  subst h; simp [takeBytes]

/-- R179: an int32 in range reads back. -/
theorem int32Value_le32 (n : Nat) (h : n < 2 ^ 31) : int32Value (le32 n) = n := by
  have e : (le32 n).foldr (fun b n => b.toNat + 256 * n) 0 = n := by
    simp [le32]; omega
  rw [int32Value, e, BitVec.toInt_eq_toNat_of_lt]
  · simp; omega
  · simp; omega

theorem readInt32_le32 (n : Nat) (h : n < 2 ^ 31) (rest : List Byte) : readInt32 (le32 n ++ rest) = .ok ((n : Int), rest) := by
  rw [readInt32, takeBytes_append _ _ _ (by simp [le32])]
  simp [int32Value_le32 n h]

/-! ### Driving the engine -/

/-- An access of the driver runs the operation it decodes to. -/
theorem access_of_exec {a : Access} {i : Instr} {s t : State} (hr : s.rstAsserted = false)
    (hd : decode s.mode a = .ok i) (hx : exec i s = .next t) : access a s = .ok t := by
  rw [access, performAccess_of_ok hr hd, hx]

/-- A staging write changes the one word. -/
theorem wr_cw {s : State} (hr : s.rstAsserted = false) (k : Fin 8) (v : Word) :
    wr (.cw k) v s = .ok { s with cw := s.cw.set k v } :=
  access_of_exec (i := .cwWr k v) hr (by rw [decode_writeOf rfl]; rfl) rfl

/-- R80: the staging writes of `tbl.load` change the staging buffer alone, and put the codeword's words there. -/
theorem stage_ok (c : Bits) (n : Nat) (hn : n ≤ 8) {s : State} (hr : s.rstAsserted = false) :
    ∃ t, stage c n s = .ok t ∧ t = { s with cw := t.cw } ∧
      ∀ (k : Nat) (h : k < 8), k < n → t.cw[k] = packBits 32 (c.drop (32 * k)) := by
  induction n with
  | zero => exact ⟨s, rfl, rfl, fun k _ h => absurd h (Nat.not_lt_zero k)⟩
  | succ n ih =>
    obtain ⟨t, ht, hf, hk⟩ := ih (by omega)
    have hrt : t.rstAsserted = false := by rw [hf]; exact hr
    have hlt : n < 8 := hn
    refine ⟨{ t with cw := t.cw.set n (packBits 32 (c.drop (32 * n))) }, ?_, ?_, ?_⟩
    · simp only [stage, ht, dif_pos hlt]
      exact wr_cw hrt ⟨n, hlt⟩ _
    · rw [hf]
    · intro k h hkn
      by_cases e : k = n
      · subst e; simp
      · simp only [Vector.getElem_set_ne _ _ (Ne.symm e)]
        exact hk k h (by omega)

/-- R80, R93: in IDLE with no error `tbl.load` of a new symbol with a codeword that clashes with none adds the entry, and
changes nothing else but the staging buffer. -/
theorem tblLoad_ok {e : Byte × Bits} {s : State} (hr : s.rstAsserted = false) (he : s.err = none) (hm : s.mode = .idle)
    (hl : 1 ≤ e.2.length ∧ e.2.length ≤ Config.codeLenMax) (hg : tableGet s.table e.1 = none)
    (hc : tableConflict s.table e.2 = false) :
    ∃ cw, tblLoad e s = .ok { s with cw := cw, table := tableSet s.table e.1 e.2 } := by
  simp only [Config.codeLenMax] at hl
  obtain ⟨t, ht, hf, hk⟩ := stage_ok e.2 ((e.2.length + 31) / 32) (by omega) hr
  have hcode : stageCode t.cw e.2.length = e.2 :=
    stageCode_of_words (by omega) fun k h hlt => hk k h (by omega)
  have hlen : (BitVec.ofNat 8 e.2.length).toNat = e.2.length := by simp; omega
  refine ⟨t.cw, ?_⟩
  simp only [tblLoad, ht]
  have hrt : t.rstAsserted = false := by rw [hf]; exact hr
  refine access_of_exec (i := .tblAdd e.1 (BitVec.ofNat 8 e.2.length)) hrt ?_ ?_
  · show decode t.mode (writeOf .cmd _) = _
    rw [decode_writeOf rfl, decodeWrite, cmdWord, decodeCmd_cmdFields]
    rfl
  · have het : t.err = none := by rw [hf]; exact he
    have hmt : t.mode = .idle := by rw [hf]; exact hm
    have htt : t.table = s.table := by rw [hf]
    simp only [exec, execTblAdd, unlessError_of_noError het, requireMode_of_eq hmt]
    have hz : BitVec.ofNat 8 e.2.length ≠ 0 := by
      intro h; rw [h] at hlen; simp at hlen; rw [← hlen] at hl; simp at hl
    rw [addEntry, if_neg hz, htt, hg, hlen, hcode, hc]
    simp only [Option.isSome_none, Bool.false_eq_true, if_false]
    rw [hf]

end Sys2Proof.HostRef
end

