-- ==== Sys2Proof/Laws/PerInstr.lean ====
section
/-! SUPPORT. Statements made per instruction. EncodedForm: the access that encodes an operation is inside the interface
(spec/20_memory.md R51, 30_encoding.md R79): 32 bits wide, at an offset that is a multiple of 4. -/

namespace Sys2Proof.Laws.EncodedForm

/-- R51, R79. -/
def Statement (i : Instr) : Prop := (encode i).size = 4 ∧ (encode i).off.toNat % 4 = 0

theorem offset_mod (r : Reg) : (regOffset r).toNat % 4 = 0 := by
  have key : ∀ w : BitVec 6, (w.setWidth 8 <<< 2).toNat % 4 = 0 := by decide
  exact key _

theorem nop : Statement .nop := ⟨rfl, offset_mod _⟩
theorem abort : Statement .abort := ⟨rfl, offset_mod _⟩
theorem tblClear : Statement .tblClear := ⟨rfl, offset_mod _⟩
theorem tblAdd (sym len : Byte) : Statement (.tblAdd sym len) := ⟨rfl, offset_mod _⟩
theorem tblRead (sym : Byte) : Statement (.tblRead sym) := ⟨rfl, offset_mod _⟩
theorem encStart : Statement .encStart := ⟨rfl, offset_mod _⟩
theorem encFlush : Statement .encFlush := ⟨rfl, offset_mod _⟩
theorem decStart : Statement .decStart := ⟨rfl, offset_mod _⟩
theorem decFinish : Statement .decFinish := ⟨rfl, offset_mod _⟩
theorem encByte (v : Word) : Statement (.encByte v) := ⟨rfl, offset_mod _⟩
theorem decByte (v : Word) : Statement (.decByte v) := ⟨rfl, offset_mod _⟩
theorem dinIdle (v : Word) : Statement (.dinIdle v) := ⟨rfl, offset_mod _⟩
theorem outPop : Statement .outPop := ⟨rfl, offset_mod _⟩
theorem ctrlWr (v : Word) : Statement (.ctrlWr v) := ⟨rfl, offset_mod _⟩
theorem decBitsWr (v : Word) : Statement (.decBitsWr v) := ⟨rfl, offset_mod _⟩
theorem cwWr (k : Fin 8) (v : Word) : Statement (.cwWr k v) := ⟨rfl, offset_mod _⟩
theorem regRd (r : Reg) : Statement (.regRd r) := ⟨rfl, offset_mod _⟩
theorem regWi (r : Reg) (v : Word) : Statement (.regWi r v) := ⟨rfl, offset_mod _⟩

end Sys2Proof.Laws.EncodedForm
end

