-- ==== Sys2Proof/Laws/Runs.lean ====
section
/-! SUPPORT. Runs with no error (spec/70_reset_and_hazards.md R242): how they begin and how they compose. -/

namespace Sys2Proof.Machine

/-- The first access of a run with no error answers a next state, from which the rest runs. -/
theorem runClean_cons {a : Access} {as : List Access} {s t : State} (h : runClean (a :: as) s = some t) :
    s.err = none ∧ ∃ u, performAccess a s = .next u ∧ runClean as u = some t := by
  unfold runClean at h
  split at h
  · next he =>
    split at h
    · next u hu => exact ⟨he, u, hu, h⟩
    all_goals cases h
  · cases h

/-- A run with no error throughout starts with none. -/
theorem runClean_start {as : List Access} {s t : State} (h : runClean as s = some t) : s.err = none := by
  cases as with
  | nil =>
    unfold runClean at h
    split at h
    · assumption
    · cases h
  | cons a as => exact (runClean_cons h).1

/-- A run with no error goes through a state between any two parts of its script. -/
theorem runClean_append {as bs : List Access} {s t : State} (h : runClean (as ++ bs) s = some t) :
    ∃ u, runClean as s = some u ∧ runClean bs u = some t := by
  induction as generalizing s with
  | nil => exact ⟨s, by simp [runClean, runClean_start h], h⟩
  | cons a as ih =>
    obtain ⟨he, v, hv, h⟩ := runClean_cons h
    obtain ⟨u, h1, h2⟩ := ih h
    exact ⟨u, by simp [runClean, he, hv, h1], h2⟩

/-- A run with no error is a run. -/
theorem runScript_of_runClean {as : List Access} {s t : State} (h : runClean as s = some t) : runScript as s = .next t := by
  induction as generalizing s with
  | nil =>
    have he := runClean_start h
    rw [runClean, if_pos he] at h
    cases h; rfl
  | cons a as ih =>
    obtain ⟨-, u, hu, h⟩ := runClean_cons h
    rw [runScript, hu]; exact ih h

end Sys2Proof.Machine
end

