-- ==== Sys2Proof/Laws/Streams.lean ====
section
/-! SUPPORT. What the operations beside the data writes do inside a stream (spec/41_encode.md R116, 42_decode.md R138). -/

namespace Sys2Proof.Machine

@[simp] theorem validBytes_append (a b : List Word) : validBytes (a ++ b) = validBytes a ++ validBytes b := by
  simp [validBytes]

/-- R31, R75: the word of a read of DATA_OUT gives back the byte it took from OUTQ, if any. -/
theorem popOutput_word (s : State) :
    ∃ w, (popOutput s).returned = s.returned ++ [w] ∧ validBytes [w] ++ (popOutput s).outq = s.outq := by
  cases h : s.outq with
  | nil => exact ⟨0, by rw [popOutput_nil h]; rfl, by rw [popOutput_nil h]; simp [validBytes, respond, h]⟩
  | cons b rest =>
    refine ⟨0x80000000#32 ||| field 0 b, by rw [popOutput_cons h]; rfl, ?_⟩
    have h2 : (0x80000000#32 ||| field 0 b).extractLsb' 0 8 = b := by
      apply BitVec.eq_of_getLsbD_eq
      intro i hi
      have h0 : ∀ i < 8, (0x80000000#32).getLsbD (0 + i) = false := by decide
      simp only [BitVec.getLsbD_extractLsb', BitVec.getLsbD_or, getLsbD_field, h0 i hi]
      simp [hi, show i < 32 by omega]
    rw [popOutput_cons h, validBytes, List.filter_cons_of_pos (by simp)]
    simp [respond, h2]

/-- An operation beside the data writes completes in every state. Of the stream it changes OUTQ alone: the
bytes `bs` that leave OUTQ are those the host takes by it. -/
theorem exec_besideStream {i : Instr} {s : State} (hi : besideStream i = true) :
    ∃ t ws bs, exec i s = .next t ∧ t.returned = s.returned ++ ws ∧ s.outq = bs ++ t.outq ∧
      (∀ is rest, takenBytes (i :: is) (ws ++ rest) = bs ++ takenBytes is rest ∧ dataBytes (i :: is) = dataBytes is) ∧
      t = { s with outq := t.outq, returned := t.returned, ieErr := t.ieErr, ieOut := t.ieOut, ieIn := t.ieIn,
                   decBits := t.decBits, cw := t.cw, tblInfo := t.tblInfo } := by
  cases i with
  | nop => exact ⟨s, [], [], rfl, by simp, by simp, fun _ _ => ⟨rfl, rfl⟩, rfl⟩
  | outPop =>
    obtain ⟨w, hr, hq⟩ := popOutput_word s
    exact ⟨popOutput s, [w], validBytes [w], rfl, hr, hq.symm,
      fun is rest => ⟨validBytes_append [w] (popWords is rest), rfl⟩,
      by rw [popOutput_frame]⟩
  | ctrlWr v => exact ⟨_, [], [], rfl, by simp, by simp, fun _ _ => ⟨rfl, rfl⟩, rfl⟩
  | decBitsWr v => exact ⟨_, [], [], rfl, by simp, by simp, fun _ _ => ⟨rfl, rfl⟩, rfl⟩
  | cwWr k v => exact ⟨_, [], [], rfl, by simp, by simp, fun _ _ => ⟨rfl, rfl⟩, rfl⟩
  | tblRead sym =>
    by_cases he : s.err = none
    · exact ⟨_, [], [], by rw [exec, execTblRead, unlessError_of_noError he], by simp, by simp,
        fun _ _ => ⟨rfl, rfl⟩, rfl⟩
    · exact ⟨s, [], [], unlessError_of_error he _, by simp, by simp, fun _ _ => ⟨rfl, rfl⟩, rfl⟩
  | regRd r =>
    have hne : r ≠ .dataOut := by
      rintro rfl; cases hi
    exact ⟨respond (readReg r s) s, [readReg r s], [], by rw [exec, execRegRd, readAccess_of_ne hne], rfl, rfl, fun _ _ => ⟨rfl, rfl⟩, rfl⟩
  | regWi r v => exact ⟨s, [], [], rfl, by simp, by simp, fun _ _ => ⟨rfl, rfl⟩, rfl⟩
  | abort | tblClear | tblAdd | encStart | encFlush | decStart | decFinish | encByte | decByte | dinIdle => cases hi

end Sys2Proof.Machine
end

