-- ==== Sys2Proof/Laws/Tree.lean ====
section
/-! SUPPORT. The stored trie of a code table (spec/42_decode.md R137, 40_code_table.md R93): what one insertion does to
every path, and when it fails. -/

namespace Sys2Proof.Machine

theorem trieAt_empty (p : Bits) : trieAt .empty p = .empty := by
  induction p with
  | nil => rfl
  | cons b p ih => simpa [trieAt, trieChild] using ih

theorem trieAt_leaf (x : Byte) (p : Bits) (hp : p ≠ []) : trieAt (.leaf x) p = .empty := by
  cases p with
  | nil => exact absurd rfl hp
  | cons b p => simpa [trieAt, trieChild] using trieAt_empty p

/-- An insertion adds one leaf and the nodes on the way to it. -/
theorem trieInsert_some {tr tr' : Trie} {c : Bits} {s : Byte} (h : trieInsert tr c s = some tr') (p : Bits) :
   (∀ x, trieAt tr' p = .leaf x ↔ (trieAt tr p = .leaf x ∨ (p = c ∧ x = s))) ∧
   (trieAt tr' p = .empty ↔ (trieAt tr p = .empty ∧ ¬ p <+: c)) := by
  induction c generalizing tr tr' p with
  | nil =>
    cases tr with
    | empty =>
      cases h
      cases p with
      | nil => simp [trieAt, eq_comm]
      | cons b p => simp [trieAt_leaf, trieAt_empty]
    | leaf y => cases h
    | node l r => cases h
  | cons b c ih =>
    have key : ∀ (l r : Trie), trieChild tr false = l → trieChild tr true = r → (∀ x, tr ≠ .leaf x) →
       ((b = false ∧ ∃ l', trieInsert l c s = some l' ∧ tr' = .node l' r) ∨ (b = true ∧ ∃ r', trieInsert r c s = some r' ∧ tr' = .node l r')) →
       (∀ x, trieAt tr' p = .leaf x ↔ (trieAt tr p = .leaf x ∨ (p = b :: c ∧ x = s))) ∧
   (trieAt tr' p = .empty ↔ (trieAt tr p = .empty ∧ ¬ p <+: b :: c)) := by
      rintro l r rfl rfl hnl hh
      cases p with
      | nil =>
        rcases hh with ⟨rfl, l', h1, rfl⟩ | ⟨rfl, l', h1, rfl⟩ <;> simp [trieAt, hnl]
      | cons b' p =>
        rcases hh with ⟨rfl, l', h1, rfl⟩ | ⟨rfl, l', h1, rfl⟩
        · cases b'
          · simpa [trieAt, trieChild] using ih h1 p
          · simp [trieAt, trieChild]
        · cases b'
          · simp [trieAt, trieChild]
          · simpa [trieAt, trieChild] using ih h1 p
    cases tr with
    | leaf y => cases h
    | empty =>
      apply key .empty .empty rfl rfl (by simp)
      cases b
      · obtain ⟨l', h1, h2⟩ := Option.map_eq_some_iff.mp h
        exact .inl ⟨rfl, l', h1, h2.symm⟩
      · obtain ⟨l', h1, h2⟩ := Option.map_eq_some_iff.mp h
        exact .inr ⟨rfl, l', h1, h2.symm⟩
    | node l r =>
      apply key l r rfl rfl (by simp)
      cases b
      · obtain ⟨l', h1, h2⟩ := Option.map_eq_some_iff.mp h
        exact .inl ⟨rfl, l', h1, h2.symm⟩
      · obtain ⟨l', h1, h2⟩ := Option.map_eq_some_iff.mp h
        exact .inr ⟨rfl, l', h1, h2.symm⟩

/-- An insertion fails at a leaf on its way, or where something is at its end (R93). -/
theorem trieInsert_none {tr : Trie} {c : Bits} {s : Byte} :
   trieInsert tr c s = none ↔ (∃ q x, q <+: c ∧ trieAt tr q = .leaf x) ∨ trieAt tr c ≠ .empty := by
  induction c generalizing tr with
  | nil =>
    cases tr <;> simp [trieInsert, trieAt]
  | cons b c ih =>
    have key (hnl : ∀ x, tr ≠ .leaf x) : (trieInsert tr (b :: c) s = none ↔ trieInsert (trieChild tr b) c s = none) →
       (trieInsert tr (b :: c) s = none ↔ (∃ q x, q <+: b :: c ∧ trieAt tr q = .leaf x) ∨ trieAt tr (b :: c) ≠ .empty) := by
      intro hh
      rw [hh, ih]
      constructor
      · rintro (⟨q, x, hq, hx⟩ | h)
        · exact .inl ⟨b :: q, x, by simpa using hq, hx⟩
        · exact .inr h
      · rintro (⟨q, x, hq, hx⟩ | h)
        · cases q with
          | nil => exact absurd hx (hnl x)
          | cons b' q =>
            have hq := List.cons_prefix_cons.mp hq
            obtain rfl := hq.1
            exact .inl ⟨q, x, hq.2, hx⟩
        · exact .inr h
    cases tr with
    | leaf y => simp only [trieInsert, true_iff]; exact .inl ⟨[], y, List.nil_prefix, rfl⟩
    | empty => apply key (by simp); cases b <;> simp [trieInsert, trieChild]
    | node l r => apply key (by simp); cases b <;> simp [trieInsert, trieChild]

end Sys2Proof.Machine
end

