-- ==== Sys2Proof/Tests/Slice0.lean ====
section
/-! SUPPORT. The model's own tests. Expected values are copied from spec/95_test_vectors.md (the vector is named at each
test) or from the encodings of 30_encoding.md and 10_state.md; none is the model's own answer. Witnesses at the end: for
every obligation with hypotheses, a state and operands that meet them all, clause by clause. -/

namespace Sys2Proof.Tests

open Sys2Proof Sys2Proof.Machine

/-! ### Helpers -/

/-- The next state of an outcome. -/
def nextOf : Outcome → Option State
  | .next s => some s
  | .fault _ => none
  | .refused _ => none

/-- A property of the next state: false where there is none. -/
def next (o : Outcome) (p : State → Bool) : Bool := (nextOf o).any p

/-- "1" is true. -/
def bits (s : List Nat) : Bits := s.map fun n => n == 1

/-- The table E4 of 95_test_vectors.md section 0. -/
def e4Table : Table := [(0, bits [1, 1, 0]), (1, bits [1, 1, 1]), (2, bits [1, 0]), (3, bits [0])]

/-- `E4` loaded. -/
def e4 : State := { State.reset with table := e4Table }

/-- `E4` loaded ; `enc.start`. -/
def e4Enc : State := { e4 with mode := .enc }

/-- `E4` loaded ; `dec.begin n`. -/
def e4Dec (n : Word) : State := { e4 with mode := .dec, decBits := n, decRem := n }

/-- `L255` loaded. -/
def l255 : State :=
  { State.reset with table := [(9, List.replicate 255 true)], cw := Vector.replicate 8 0xFFFFFFFF#32 }

/-- CT2: reset, then an illegal command word. -/
def ct2 : State := { State.reset with err := some .badCmd, errInfo := 0x00000002#32 }

/-! ### WellFormed: a term each check refuses (30_encoding.md R78, 43_control.md R157, R158) -/

theorem test_illFormed_read_of_data_out : Instr.wellFormed (.regRd .dataOut) = false := by decide
theorem test_illFormed_read_of_no_reserved_word : Instr.wellFormed (.regRd (.reserved 0x05#6)) = false := by decide
theorem test_illFormed_write_of_no_reserved_word : Instr.wellFormed (.regWi (.reserved 0x10#6) 0) = false := by decide
theorem test_illFormed_ignored_write_of_ctrl : Instr.wellFormed (.regWi .ctrl 0) = false := by decide
theorem test_wellFormed_reserved_boundaries :
    Instr.wellFormed (.regRd (.reserved 0x0E#6)) ∧ Instr.wellFormed (.regWi (.reserved 0x18#6) 1) ∧
      Instr.wellFormed (.regWi (.reserved 0x3F#6) 1) ∧ Instr.wellFormed (.regRd (.reserved 0x17#6)) = false := by decide
theorem test_notSelected_encByte_in_idle : Instr.selectedIn .idle (.encByte 0) = false := by decide

/-! ### Decoding: for every row a word written out from the spec's encoding (30_encoding.md R70, R72, R78) -/

/-- `W 0x0C, w` from the fields RSV, LEN, SYM, OPC of R70. -/
def cmdAccess (w : Word) : Access := .write 0x0C#8 4 w

theorem test_decode_nop : decode .enc (cmdAccess 0b00000000000000000000000000000000#32) = .ok .nop := by rfl
theorem test_decode_abort : decode .dec (cmdAccess 0b00000000000000000000000000000001#32) = .ok .abort := by rfl
theorem test_decode_tblClear : decode .idle (cmdAccess 0b00000000000000000000000000010000#32) = .ok .tblClear := by rfl
theorem test_decode_tblAdd : decode .idle (cmdAccess 0b00000000100000010100000100010001#32) = .ok (.tblAdd 65 129) := by
  rfl
theorem test_decode_tblRead : decode .idle (cmdAccess 0b00000000000000001000000100010010#32) = .ok (.tblRead 129) := by
  rfl
theorem test_decode_encStart : decode .idle (cmdAccess 0b00000000000000000000000000100000#32) = .ok .encStart := by rfl
theorem test_decode_encFlush : decode .enc (cmdAccess 0b00000000000000000000000000100001#32) = .ok .encFlush := by rfl
theorem test_decode_decStart : decode .idle (cmdAccess 0b00000000000000000000000000110000#32) = .ok .decStart := by rfl
theorem test_decode_decFinish : decode .dec (cmdAccess 0b00000000000000000000000000110001#32) = .ok .decFinish := by rfl
theorem test_decode_encByte : decode .enc (.write 0b00010000#8 4 0xFFFFFF02#32) = .ok (.encByte 0xFFFFFF02#32) := by rfl
theorem test_decode_decByte : decode .dec (.write 0b00010000#8 4 0x000000DF#32) = .ok (.decByte 0x000000DF#32) := by rfl
theorem test_decode_dinIdle : decode .idle (.write 0b00010000#8 4 0x00000041#32) = .ok (.dinIdle 0x00000041#32) := by rfl
theorem test_decode_outPop : decode .enc (.read 0b00010100#8 4) = .ok .outPop := by rfl
theorem test_decode_ctrlWr : decode .dec (.write 0b00000100#8 4 0x00000007#32) = .ok (.ctrlWr 0x00000007#32) := by rfl
theorem test_decode_decBitsWr : decode .idle (.write 0b00011000#8 4 0x00000013#32) = .ok (.decBitsWr 0x00000013#32) := by
  rfl
theorem test_decode_cwWr : decode .idle (.write 0b01010100#8 4 0xC0000000#32) = .ok (.cwWr 5 0xC0000000#32) := by rfl
theorem test_decode_regRd : decode .idle (.read 0b00110100#8 4) = .ok (.regRd .errInfo) := by rfl
theorem test_decode_regWi : decode .idle (.write 0b00001000#8 4 0x00000001#32) = .ok (.regWi .status 0x00000001#32) := by
  rfl

/-- R45, R154: the words about the staging buffer and the reserved windows. -/
theorem test_decode_window_edges :
    decode .idle (.read 0x40#8 4) = .ok (.regRd (.cw 0)) ∧ decode .idle (.read 0x5C#8 4) = .ok (.regRd (.cw 7)) ∧
      decode .idle (.read 0x3C#8 4) = .ok (.regRd (.reserved 0x0F#6)) ∧
      decode .idle (.read 0x60#8 4) = .ok (.regRd (.reserved 0x18#6)) ∧
      decode .idle (.write 0xFC#8 4 5) = .ok (.regWi (.reserved 0x3F#6) 5) := ⟨rfl, rfl, rfl, rfl, rfl⟩

/-- TB10, TB11, CT9, CT10: words one bit away from a command are illegal (R73). -/
theorem test_decode_illegal_words :
    decodeCmd 0x01030011#32 = none ∧ decodeCmd 0x00010012#32 = none ∧ decodeCmd 0x00000120#32 = none ∧
      decodeCmd 0x00000100#32 = none ∧ decodeCmd 0x000000FF#32 = none := by decide

/-- R51: another width or an offset that is no multiple of 4 is rejected by name. -/
theorem test_decode_outside_the_interface :
    decode .idle (.read 0x14#8 1) = .error .accessSize ∧ decode .idle (.write 0x0E#8 4 0) = .error .misaligned :=
  ⟨rfl, rfl⟩

/-! ### The opcode table's words and the step -/

theorem test_tableWord_commands :
    decodeTableWord 32 0x00000010 = some .tblClear ∧ decodeTableWord 32 0x00050211 = some (.tblAdd 2 5) ∧
      decodeTableWord 32 0x00000712 = some (.tblRead 7) ∧ decodeTableWord 32 0x00000031 = some .decFinish := by decide

theorem test_tableWord_offsets :
    decodeTableWord 8 0x14 = some .outPop ∧ decodeTableWord 8 0x10 = some (.dinIdle 0) ∧
      decodeTableWord 8 0x04 = some (.ctrlWr 0) ∧ decodeTableWord 8 0x18 = some (.decBitsWr 0) ∧
      decodeTableWord 8 0x44 = some (.cwWr 1 0) ∧ decodeTableWord 8 0x00 = some (.regRd .id) ∧
      decodeTableWord 8 0x38 = some (.regWi (.reserved 0x0E#6) 0) := by decide

theorem test_tableWord_data_row : decodeTableWord 32 0x00000710 = some (.encByte 0x00000700#32) := by decide

/-- The step after `withFetchWord` runs the operation: ENC_START from reset (EN1), and MISSING_CODE for a data write in
ENC with an empty table (EN12). -/
theorem test_step_runs_the_placed_word :
    next (step (State.reset.withFetchWord 32 0x20)) (fun t => t.mode == .enc && t.pending == []) ∧
      next (step (State.reset.withFetchWord 32 0x710)) (fun t => t.err == some .missingCode) := by decide

/-- R242: with nothing pending a step changes nothing. -/
theorem test_step_idle : nextOf (step State.reset) = some State.reset := by decide

/-- R230: an access is refused while `rst_n` is asserted. -/
theorem test_no_access_during_reset :
    performAccess (.read 0x00#8 4) (assertReset e4Enc) = .refused .duringReset := by rfl

/-- R230, R46: reset clears the table and the mode; CT17. -/
theorem test_reset_release :
    next (step { e4Enc with pending := [.resetRelease], rstAsserted := true })
      (fun t => t == State.reset) := by decide

/-! ### The numbers of MODE and ERR -/

/-- R200. -/
theorem test_error_codes :
    [none, some Cause.missingCode, some .noChild, some .truncated, some .tblLen, some .tblDup, some .tblPrefix,
      some .overrun, some .seq, some .badCmd].map errCode = [0, 1, 2, 3, 4, 5, 6, 7, 8, 9] := by decide

/-- R22, R26. -/
theorem test_mode_codes : [Mode.idle, .enc, .dec].map modeCode = [0, 1, 2] := by decide

/-! ### Control -/

/-- CT1. -/
theorem test_nop : nextOf (exec .nop { e4Enc with acc := bits [1, 1, 0] }) = some { e4Enc with acc := bits [1, 1, 0] } := by
  decide

/-- EN14. -/
theorem test_abort_in_enc :
    next (exec .abort { e4Enc with outq := [0xDE], bitcnt := 8, symcnt := 3 })
      (fun t => readReg .status t == 0 && t.outq == [] && t.acc == [] && t.bitcnt == 8 && t.symcnt == 3) := by decide

/-- CT2b. -/
theorem test_abort_in_error :
    next (exec .abort ct2) (fun t => readReg .status t == 0 && readReg .errInfo t == 0) := by decide

/-- CT2, CT3: BAD_CMD, and the first error is kept. -/
theorem test_illegal_command :
    next (performAccess (cmdAccess 0x00000002#32) State.reset)
      (fun t => readReg .status t == 0x00000009#32 && readReg .errInfo t == 0x00000002#32) ∧
    next (performAccess (cmdAccess 0x000000FF#32) ct2) (fun t => t == ct2) := by decide

/-- CT5. -/
theorem test_dinIdle :
    next (exec (.dinIdle 0x41) State.reset) (fun t => t.err == some .seq && t.errInfo == 0x00000041#32) := by decide

/-- EN3, the first read of the drain. -/
theorem test_outPop_valid :
    next (exec .outPop { e4 with outq := [0xDF, 0xD4, 0x80] })
      (fun t => t.returned == [0x800000DF#32] && t.outq == [0xD4, 0x80]) := by decide

/-- CT14. -/
theorem test_outPop_empty : next (exec .outPop State.reset) (fun t => t.returned == [0x00000000#32]) := by decide

/-- CT6. -/
theorem test_ctrlWr :
    next (exec (.ctrlWr 0xFFFFFFFF) { State.reset with mode := .enc })
      (fun t => readReg .ctrl t == 0x00000007#32 && readReg .status t == 0x00010050#32) := by decide

/-- DE13. -/
theorem test_decBitsWr :
    next (exec (.decBitsWr 3) { e4Dec 19 with decRem := 11 })
      (fun t => readReg .decBits t == 3 && readReg .decRem t == 11) := by decide

/-- CT16: CW1 holds staging bit 32 in its bit 31 (R39). -/
theorem test_cwWr :
    next (exec (.cwWr 1 0x80000000#32) State.reset)
      (fun t => readReg (.cw 1) t == 0x80000000#32 && stagingBit t.cw 32 && !stagingBit t.cw 31) := by decide

/-- CT12. -/
theorem test_regRd_id : next (exec (.regRd .id) State.reset) (fun t => t.returned == [0x48554601#32]) := by decide

/-- EN11. -/
theorem test_regRd_cursor :
    next (exec (.regRd .cursor) { e4Enc with acc := bits [1, 0] }) (fun t => t.returned == [0x00800200#32]) := by decide

/-- CT13. -/
theorem test_regWi : nextOf (exec (.regWi .id 0) State.reset) = some State.reset := by decide

/-! ### The code table -/

/-- TB8: refused in DEC. -/
theorem test_tblClear_in_dec :
    next (exec .tblClear (e4Dec 4))
      (fun t => readReg .status t == 0x00000028#32 && t.errInfo == 0x00000010#32 && t.decRem == 4 &&
        readReg .tblCount t == 4) := by decide

/-- TB16. -/
theorem test_tblClear : next (exec .tblClear e4) (fun t => readReg .tblCount t == 0) := by decide

/-- TB0: the codeword "110" from CW0 = 0xC0000000. -/
theorem test_tblAdd :
    next (exec (.tblAdd 0 3) { State.reset with cw := (Vector.replicate 8 0).set 0 0xC0000000#32 })
      (fun t => tableGet t.table 0 == some (bits [1, 1, 0]) && readReg .tblCount t == 1) := by decide

/-- TB3b: "11" is a prefix of "110". -/
theorem test_tblAdd_prefix :
    next (exec (.tblAdd 5 2)
        { State.reset with table := [(0, bits [1, 1, 0])], cw := (Vector.replicate 8 0).set 0 0xC0000000#32 })
      (fun t => t.err == some .tblPrefix && t.errInfo == 0x00020511#32 && readReg .tblCount t == 1) := by decide

/-- TB14: in ENC, with the stream undisturbed. -/
theorem test_tblRead_in_enc :
    next (exec (.tblRead 2) { e4Enc with acc := bits [1, 1, 0] })
      (fun t => t.tblInfo == 0x80000202#32 && readReg (.cw 0) t == 0x80000000#32 &&
        readReg .cursor t == 0x00C00300#32 && readReg .status t == 0x00000050#32) := by decide

set_option maxRecDepth 8192 in
/-- TB7: staging bit 255 is beyond the codeword. -/
theorem test_tblRead_longest :
    next (exec (.tblRead 9) l255)
      (fun t => t.tblInfo == 0x8000FF09#32 && readReg (.cw 6) t == 0xFFFFFFFF#32 &&
        readReg (.cw 7) t == 0xFFFFFFFE#32) := by decide

/-! ### Encoding -/

/-- EN1. -/
theorem test_encStart :
    next (exec .encStart { e4 with bitcnt := 5, symcnt := 5 })
      (fun t => readReg .status t == 0x00000050#32 && t.bitcnt == 0 && t.symcnt == 0) := by decide

/-- EN9b. -/
theorem test_encStart_in_enc :
    next (exec .encStart { State.reset with mode := .enc })
      (fun t => readReg .status t == 0x00000018#32 && t.errInfo == 0x00000020#32) := by decide

set_option maxRecDepth 8192 in
/-- EN8b: one more 255-bit codeword on level 31 and 7 waiting bits. -/
theorem test_encByte_longest :
    next (exec (.encByte 9)
        { l255 with mode := .enc, outq := List.replicate 31 0xFF, acc := List.replicate 7 true, bitcnt := 255 })
      (fun t => t.outq == List.replicate 63 0xFF && readReg .cursor t == 0x00FC0600#32 && t.bitcnt == 510 &&
        readReg .status t == 0x00003F90#32) := by decide

/-- EN13: both counters wrap. -/
theorem test_encByte_wraps :
    next (exec (.encByte 0) { e4Enc with bitcnt := 0xFFFFFFFE#32, symcnt := 0xFFFFFFFF#32 })
      (fun t => t.bitcnt == 0x00000001#32 && t.symcnt == 0x00000000#32) := by decide

/-- EN8d. -/
theorem test_encFlush :
    next (exec .encFlush { l255 with mode := .enc, outq := List.replicate 31 0xFF, acc := List.replicate 7 true })
      (fun t => t.outq == List.replicate 31 0xFF ++ [0xFE] && readReg .status t == 0x00002080#32) := by decide

/-- EN9. -/
theorem test_encFlush_in_idle :
    next (exec .encFlush State.reset) (fun t => t.err == some .seq && t.errInfo == 0x00000021#32) := by decide

/-! ### Decoding -/

/-- DE1. -/
theorem test_decStart :
    next (exec .decStart { e4 with decBits := 19 })
      (fun t => t.decRem == 19 && readReg .status t == 0x00000060#32) := by decide

/-- DE15b. -/
theorem test_decStart_in_enc :
    next (exec .decStart { State.reset with mode := .enc })
      (fun t => t.err == some .seq && t.errInfo == 0x00000030#32) := by decide

/-- DE2. -/
theorem test_decByte :
    next (exec (.decByte 0xDF) (e4Dec 19))
      (fun t => t.outq == [0, 1] && readReg .cursor t == 0x00000002#32 && t.decRem == 11 && t.bitcnt == 8 &&
        t.symcnt == 2 && readReg .status t == 0x000002E0#32) := by decide

/-- DE16: NO_CHILD at the failing bit's index. -/
theorem test_decByte_no_child :
    next (exec (.decByte 0x1C)
        { State.reset with mode := .dec, decRem := 8, table := [(0, bits [0, 0]), (1, bits [0, 1]), (2, bits [1, 0])] })
      (fun t => t.err == some .noChild && t.errInfo == 0x0000001C#32 && t.bitcnt == 5 && t.symcnt == 2 &&
        t.decRem == 3 && t.cur == bits [1] && t.outq == []) := by decide

/-- DE5, the DEC_FINISH. -/
theorem test_decFinish_truncated :
    next (exec .decFinish { e4Dec 19 with decRem := 3, bitcnt := 16, symcnt := 7, outq := [0, 1, 1, 2, 2, 2, 3] })
      (fun t => readReg .status t == 0x00000023#32 && t.errInfo == 0x00000031#32 && t.decRem == 3 && t.outq == []) := by
  decide

/-- DE9c. -/
theorem test_decFinish : next (exec .decFinish (e4Dec 0)) (fun t => readReg .status t == 0x00000000#32) := by decide

/-! ### The host reference -/

/-- H3: the container of the input [5, 9]. -/
theorem test_host_h3 :
    (HostRef.compressBytes [5, 9] State.reset).map Prod.fst = .ok
      [0x02, 0, 0, 0, 0x05, 0x01, 0, 0, 0, 0x00, 0x09, 0x01, 0, 0, 0, 0x80, 0x02, 0, 0, 0, 0x40] := by rfl

/-- H5: the lower frequency becomes the left child. -/
theorem test_host_h5 :
    (HostRef.build [(7, 2), (8, 1)]).map HostRef.generate = .ok [(8, bits [0]), (7, bits [1])] := by rfl

/-- H7. -/
theorem test_host_h7 :
    (HostRef.compressBytes [] State.reset).map Prod.fst = .error .emptyInputError := by rfl

/-- R189: a file that does not exist or cannot be read, and one that cannot be written, are IOError; R186: the path that
is exactly ".zipped" is ambiguous. -/
theorem test_host_files :
    HostRef.readFile { stored := [(['a'], [5])], unreadable := [['a']], unwritable := [] } ['a'] = .error .ioError ∧
      HostRef.readFile { stored := [], unreadable := [], unwritable := [] } ['a'] = .error .ioError ∧
      HostRef.placeFile { stored := [], unreadable := [], unwritable := [['a']] } ['a'] [] = .error .ioError ∧
      HostRef.unzippedPath HostRef.zipped = .error .ambiguousOutputPathError ∧
      HostRef.unzippedPath ('a' :: HostRef.zipped) = .ok ['a'] := ⟨rfl, rfl, rfl, rfl, rfl⟩

/-! ### Witnesses: the hypotheses of each obligation met together -/

/-- A short table in the spec's form, with a codeword of 2 bits. -/
def shortTable : Table := [(0, bits [0]), (1, bits [1, 0])]

theorem shortTable_ok : TableOk shortTable := ⟨by decide, by decide, by decide⟩

theorem e4Table_ok : TableOk e4Table := ⟨by decide, by decide, by decide⟩

/-- In a decode stream, inside the codeword "10". -/
def inDec : State := { State.reset with table := shortTable, mode := .dec, decRem := 9, cur := bits [1] }

/-- In an encode stream with 7 bits waiting and as many bytes in OUTQ as ENC_BYTE admits. -/
def inEnc : State :=
  { State.reset with table := shortTable, mode := .enc, acc := List.replicate 7 true, outq := List.replicate 31 0xFF }

theorem witness_DecodeOfEncodeIsTheInstruction :
    Instr.wellFormed (.tblAdd 255 255) ∧ Instr.selectedIn .dec (.tblAdd 255 255) ∧
      Instr.wellFormed (.encByte 0xFFFFFFFF) ∧ Instr.selectedIn .enc (.encByte 0xFFFFFFFF) ∧
      Instr.wellFormed (.decByte 0) ∧ Instr.selectedIn .dec (.decByte 0) ∧
      Instr.wellFormed (.dinIdle 1) ∧ Instr.selectedIn .idle (.dinIdle 1) ∧
      Instr.wellFormed (.regRd (.reserved 0x3F#6)) ∧ Instr.wellFormed (.regWi .dataOut 7) := by decide

theorem witness_EncodeOfDecodeIsTheAccess :
    decode .enc (.write 0x10#8 4 5) = .ok (.encByte 5) ∧ decode .idle (.read 0xFC#8 4) = .ok (.regRd (.reserved 0x3F#6)) :=
  ⟨rfl, rfl⟩

theorem witness_IllegalWordsRaiseBadCmd :
    decodeCmd 0x00000002#32 = none ∧ State.reset.rstAsserted = false ∧ State.reset.err = none ∧
      ct2.rstAsserted = false ∧ ct2.err ≠ none := by decide

theorem witness_StepPerformsTheNextAccess :
    ∃ s : State, s.pending = [.access (encode .encStart)] ∧ s.rstAsserted = false ∧
      decode s.mode (encode .encStart) = .ok .encStart ∧ Instr.wellFormed .encStart ∧
      Instr.selectedIn s.mode .encStart :=
  ⟨{ State.reset with pending := [.access (encode .encStart)] }, rfl, rfl, rfl, rfl, rfl⟩

theorem witness_OtherAccessesAreRefused :
    State.reset.rstAsserted = false ∧ Access.size (.read 0x14#8 1) ≠ 4 ∧ Access.size (.write 0x00#8 8 0) ≠ 4 ∧
      Access.size (.read 0xFF#8 4) = 4 ∧ (Access.off (.read 0xFF#8 4)).toNat % 4 ≠ 0 ∧
      (Access.off (.read 0x01#8 4)).toNat % 4 ≠ 0 := by decide

theorem witness_ResetReleaseGivesTheResetValues :
    (assertReset e4Enc).rstAsserted = true ∧
      { e4Enc with pending := [HostEvent.resetAssert] }.pending = .resetAssert :: [] ∧
      { e4Enc with pending := [.resetAssert, .access (.read 0x00#8 4)] }.pending =
        .resetAssert :: .access (.read 0x00#8 4) :: [] ∧
      { e4Enc with pending := [HostEvent.resetRelease] }.pending = .resetRelease :: [] := by decide

theorem witness_CommandDispatch :
    (ct2.rstAsserted = false ∧ ct2.err ≠ none ∧ (0x00000000#32 : Word) ≠ 0x00000001#32) ∧
      (State.reset.rstAsserted = false ∧ State.reset.err = none ∧ decodeCmd 0x000000FF#32 = none) ∧
      decodeCmd 0x00000020#32 = some .encStart := by decide

theorem witness_DataWriteDispatch :
    (ct2.rstAsserted = false ∧ ct2.err ≠ none) ∧ (State.reset.rstAsserted = false ∧ State.reset.err = none ∧
      State.reset.mode = .idle) ∧ (e4Enc.err = none ∧ e4Enc.mode = .enc) ∧ inDec.err = none ∧ inDec.mode = .dec := by
  decide

theorem witness_NopAndIgnoredWritesChangeNothing :
    State.reset.rstAsserted = false ∧ Reg.wellFormed (.reserved 0x0E#6) ∧ Reg.writeIgnored (.reserved 0x0E#6) ∧
      Reg.wellFormed .dataOut ∧ Reg.writeIgnored .dataOut := by decide

theorem witness_OutPopTakesTheOldestByte :
    State.reset.rstAsserted = false ∧ State.reset.outq = [] ∧ { e4 with outq := [0xFF, 0x00] }.outq = 0xFF :: [0x00] := by decide

theorem witness_StagingAndBitCountWritesStore :
    exec (.decBitsWr 0xFFFFFFFF) ct2 = .next { ct2 with decBits := 0xFFFFFFFF } := rfl

theorem witness_RegisterReadsChangeNothing :
    Reg.wellFormed (.cw 7) ∧ (Reg.cw 7) ≠ .dataOut ∧ Reg.wellFormed (.reserved 0x3F#6) ∧
      State.reset.rstAsserted = false := by decide

theorem witness_ReservedOffsetsReadZeroAndIgnoreWrites :
    State.reset.rstAsserted = false ∧ (∀ off ∈ [0x38#8, 0x3C#8, 0x60#8, 0xFC#8], off.toNat % 4 = 0 ∧
      (off = 0x38#8 ∨ off = 0x3C#8 ∨ 0x60 ≤ off.toNat)) ∧ (0x0C#8 : Byte).toNat % 4 = 0 ∧ (0x10#8 : Byte).toNat % 4 = 0 ∧
      (∀ off ∈ [0x00#8, 0x08#8, 0x14#8, 0x34#8], off.toNat % 4 = 0) := by decide

set_option maxRecDepth 4096 in
theorem witness_StatusFields : outqLevel { e4Enc with outq := List.replicate 127 0xFF } ≤ 127 ∧
    outqLevel State.reset ≤ 127 := by decide

/-- A state in each error and each mode meets the hypothesis. -/
theorem witness_StatusFields_all :
    (∀ e ∈ [none, some Cause.missingCode, some .noChild, some .truncated, some .tblLen, some .tblDup, some .tblPrefix,
      some .overrun, some .seq, some .badCmd], outqLevel { e4 with err := e } ≤ 127) ∧
      ∀ m ∈ [Mode.idle, .enc, .dec], outqLevel { e4 with mode := m } ≤ 127 := by decide

theorem witness_InputReadySaysWhetherADataWriteIsAccepted :
    Config.InRange { outDepth := 33 } ∧ Config.InRange { outDepth := 127 } ∧ inEnc.cfg.InRange ∧
      inEnc.rstAsserted = false ∧ inEnc.err = none ∧
      nextOf (performAccess (.write 0x10#8 4 7) inEnc) = some (raise .missingCode 7 inEnc) := by decide

set_option maxRecDepth 4096 in
theorem witness_CursorFields :
    ∃ s : State, s.cur.length = 254 ∧ s.acc.length = 7 :=
  ⟨{ l255 with cur := List.replicate 254 true, acc := List.replicate 7 true }, by decide, by decide⟩

theorem witness_TableCountCountsValidEntries : Table.wf e4.table ∧ Table.wf State.reset.table := by decide

theorem witness_InterruptLevel : ct2.ieErr = false ∧ ct2.ieOut = false ∧ ct2.ieIn = false := by decide

theorem witness_TableClearEmptiesTheTable :
    (e4.err = none ∧ e4.mode = .idle) ∧ e4Enc.err = none ∧ e4Enc.mode ≠ .idle := by decide

theorem witness_TableAddChecksAndAdds :
    (e4Enc.err = none ∧ Table.wf e4Enc.table ∧ e4Enc.mode ≠ .idle) ∧
      (e4.err = none ∧ Table.wf e4.table ∧ e4.mode = .idle) ∧
      ((1 : Byte) ≠ 0 ∧ tableGet e4.table 0 ≠ none) ∧
      (tableGet e4.table 7 = none ∧ tableGet e4.table 3 = some (bits [0]) ∧ bits [0] <+: stageCode e4.cw 1) ∧
      (State.reset.err = none ∧ State.reset.mode = .idle ∧ (255 : Byte) ≠ 0 ∧ tableGet State.reset.table 0 = none) := by
  decide

/-- The last clause: no loaded codeword clashes. -/
theorem witness_TableAddChecksAndAdds_adds :
    ¬ ∃ other c, tableGet State.reset.table other = some c ∧
      (stageCode State.reset.cw 255 <+: c ∨ c <+: stageCode State.reset.cw 255) := by
  rintro ⟨other, c, h, -⟩
  cases h

set_option maxRecDepth 8192 in
/-- The last clause: two buffers that differ in staging bit 255 only. -/
theorem witness_StagedCodewordBits : 1 ≤ (255 : Nat) ∧ (255 : Nat) ≤ 255 ∧ (254 : Nat) < 255 ∧ (7 : Fin 8).val = 254 / 32 ∧
      ∀ i, i < 255 → stagingBit (l255.cw.set 7 0xFFFFFFFE#32) i = stagingBit l255.cw i := by decide

set_option maxRecDepth 4096 in
theorem witness_TableReadShowsTheEntry :
    ct2.err ≠ none ∧ e4Enc.err = none ∧ tableGet e4Enc.table 7 = none ∧ l255.err = none ∧
      tableGet l255.table 9 = some (List.replicate 255 true) ∧ (List.replicate 255 true).length ≤ 255 := by decide

theorem witness_TableReadReturnsWhatTableAddLoaded :
    ∃ s t u, exec (.tblAdd 0 3) s = .next t ∧ s.err = none ∧ t.err = none ∧ exec (.tblRead 0) t = .next u :=
  ⟨{ State.reset with cw := (Vector.replicate 8 0).set 0 0xC0000000#32 }, _, _, rfl, rfl, rfl, rfl⟩

theorem witness_EntryOrderDoesNotMatter : Table.wf e4Table ∧ (9 : Byte) ≠ 4 := by decide

theorem witness_EncodeStartOpensAStream :
    (e4.err = none ∧ e4.mode = .idle) ∧ inDec.err = none ∧ inDec.mode ≠ .idle := by decide

/-- Level 32 overruns, level 31 with 7 bits waiting does not. -/
theorem witness_EncodeByteAppendsTheCodeword :
    (inEnc.err = none ∧ inEnc.mode = .enc ∧ inEnc.cfg.InRange) ∧
      outqLevel { inEnc with outq := List.replicate 32 0xFF } > inEnc.cfg.outDepth - 33 ∧
      outqLevel inEnc ≤ inEnc.cfg.outDepth - 33 ∧ tableGet inEnc.table 7 = none ∧
      tableGet inEnc.table 1 = some (bits [1, 0]) ∧ (bits [1, 0]).length ≤ 255 ∧ inEnc.acc.length ≤ 7 := by decide

theorem witness_EncodeByteExtendsThePayload :
    inEnc.err = none ∧ inEnc.mode = .enc ∧ next (exec (.encByte 1) inEnc) (fun t => t.err == none) := by decide

theorem witness_EncodeFlushPadsAndCloses :
    (e4.err = none ∧ e4.mode ≠ .enc) ∧ (e4Enc.err = none ∧ e4Enc.mode = .enc ∧ e4Enc.acc = []) ∧
      inEnc.err = none ∧ inEnc.mode = .enc ∧ inEnc.acc ≠ [] ∧
      outqLevel { inEnc with outq := List.replicate 63 0xFF } < inEnc.cfg.outDepth := by decide

theorem witness_PackedPayloadLayout : (pack (bits [1, 1, 0, 1, 1, 1, 1, 1, 1]))[1]? = some 0x80 := by decide

/-- What the spec's host does, `put.w` with its poll of STATUS (R80), and more reads and writes beside it. -/
def encHostOps : List Instr :=
  [.cwWr 0 0xFFFFFFFF, .regRd .status, .encByte 0x103, .outPop, .regRd (.cw 0), .regRd .status, .encByte 0xFFFFFF02,
    .tblRead 2, .ctrlWr 7, .regWi .id 1, .nop]

/-- The like in a decode stream: a new DEC_BITS is for the next one (R238). -/
def decHostOps : List Instr :=
  [.regRd .status, .decByte 0xDF, .outPop, .regRd (.reserved 0x3F#6), .decBitsWr 5, .regRd .status, .decByte 0xFF]

/-- EN5 with polls of STATUS, a read of a staging word whose bit 31 is 1 and a read of DATA_OUT inside the stream. -/
theorem witness_EncodeStreamDeliversThePackedPayload :
    ∃ s1 t u, e4.err = none ∧ e4.mode = .idle ∧ encodeOps encHostOps ∧
      encodeBits e4.table (dataBytes encHostOps) = some (bits [0, 1, 0]) ∧
      exec .encStart e4 = .next s1 ∧ execAll encHostOps s1 = .next t ∧
      t.err = none ∧ exec .encFlush t = .next u :=
  ⟨_, _, _, rfl, rfl, by simp [encodeOps, encHostOps, besideStream]; decide, rfl, rfl, rfl, rfl, rfl⟩

theorem witness_DecodeStartOpensAStream :
    (e4.err = none ∧ e4.mode = .idle) ∧ inEnc.err = none ∧ inEnc.mode ≠ .idle := by decide

/-- From inside "10": the bit 0 reaches the leaf, the bit 1 has no child; from the root the bit 1 is internal. -/
theorem witness_DecodeBitWalksTheTree :
    TableOk inDec.table ∧ (IsLeaf inDec.table (inDec.cur ++ [false]) 1 ∧ outqLevel inDec < inDec.cfg.outDepth) ∧
      ¬ IsNode inDec.table (inDec.cur ++ [true]) ∧
      IsInternal { inDec with cur := [] }.table ([] ++ [true]) :=
  ⟨shortTable_ok, by decide, by decide, by
    refine ⟨by decide, ?_⟩
    rintro ⟨s, hs⟩
    simp [IsLeaf, inDec, shortTable, bits] at hs⟩

/-- With no bits left; at level 57; a whole byte with bits left; the last bit at the root and off it; a missing child. -/
theorem witness_DecodeByteWalksItsBits :
    (inDec.err = none ∧ inDec.mode = .dec ∧ inDec.cfg.InRange) ∧
      ({ inDec with decRem := 0 }.decRem = 0) ∧ (inDec.decRem ≠ 0 ∧ outqLevel inDec ≤ inDec.cfg.outDepth - 8) ∧
      outqLevel { inDec with outq := List.replicate 57 0xFF } > inDec.cfg.outDepth - 8 ∧
      (walkBits inDec.table inDec.cur ((byteBits 0x00).take (min 8 9)) = some ([1, 0, 0, 0, 0, 0, 0, 0], []) ∧
        min 8 9 < inDec.decRem.toNat) ∧
      (walkBits inDec.table inDec.cur ((byteBits 0x00).take (min 8 1)) = some ([1], []) ∧
        walkBits inDec.table inDec.cur ((byteBits 0x40).take (min 8 2)) = some ([1], bits [1]) ∧ bits [1] ≠ []) ∧
      ((byteBits 0x60).take (min 8 9) = [false, true] ++ true :: List.replicate 5 false ∧
        walkBits inDec.table inDec.cur [false, true] = some ([1], bits [1]) ∧
        walkBits inDec.table (bits [1]) [true] = none) := by decide

theorem witness_DecodeFinishCloses :
    (inEnc.err = none ∧ inEnc.mode ≠ .dec) ∧ (inDec.err = none ∧ inDec.mode = .dec ∧ inDec.decRem ≠ 0) ∧
      { inDec with decRem := 0, cur := [] }.decRem = 0 := by decide

theorem witness_DecodeByteConservesTheBitCount :
    inDec.mode = .dec ∧ next (exec (.decByte 0x00) inDec) (fun t => t.err == none) ∧
      next (exec (.decByte 0x60) inDec) (fun t => t.err == some .noChild) := by decide

theorem witness_WalkInvertsEncoding :
    TableOk e4Table ∧ encodeBits e4Table [0, 3] = some (bits [1, 1, 0, 0]) := ⟨e4Table_ok, by decide⟩

/-- DE14's shape: 9 bits in two bytes, with polls of STATUS and a read of DATA_OUT between them and pad bits that are 1. -/
theorem witness_DecodeStreamReturnsTheSymbols :
    ∃ s s1 t, s.err = none ∧ s.mode = .idle ∧ TableOk s.table ∧ decodeOps decHostOps ∧
      encodeBits s.table [0, 1, 1] = some (bits [1, 1, 0, 1, 1, 1, 1, 1] ++ bits [1]) ∧
      (bits [1, 1, 0, 1, 1, 1, 1, 1] ++ bits [1]).length < 2 ^ 32 ∧
      s.decBits = BitVec.ofNat 32 (bits [1, 1, 0, 1, 1, 1, 1, 1] ++ bits [1]).length ∧
      (dataBytes decHostOps).length = ((bits [1, 1, 0, 1, 1, 1, 1, 1] ++ bits [1]).length + 7) / 8 ∧
      bits [1, 1, 0, 1, 1, 1, 1, 1] ++ bits [1] <+: unpack (dataBytes decHostOps) ∧
      exec .decStart s = .next s1 ∧ execAll decHostOps s1 = .next t ∧
      t.err ≠ some .overrun :=
  ⟨{ e4 with decBits := 9 }, _, _, rfl, rfl, e4Table_ok, by simp [decodeOps, decHostOps, besideStream]; decide, by decide, by decide, by decide, by decide,
    by decide, rfl, rfl, by decide⟩

theorem witness_StoredTrieAgreesWithTheTable : TableOk e4Table ∧ bits [1, 1] ≠ [] := ⟨e4Table_ok, by decide⟩

theorem witness_PrefixClashIsARebuildClash :
    TableOk shortTable ∧ trieOf shortTable = some (.node (.leaf 0) (.node (.leaf 1) .empty)) ∧ bits [1, 1] ≠ [] :=
  ⟨shortTable_ok, by decide, by decide⟩

/-- A raise in DEC after bits were consumed, one in ENC, and in DEC one of a command and one of an illegal word, each as
an operation and as an access. -/
theorem witness_ErrorEntryKeepsTheRest :
    (inDec.err = none ∧ next (exec (.decByte 0x60) inDec) (fun t => t.err == some .noChild) ∧
      next (performAccess (.write 0x10#8 4 0x60) inDec) (fun t => t.err == some .noChild)) ∧
    (inEnc.err = none ∧ inEnc.mode ≠ .dec ∧ next (exec (.encByte 7) inEnc) (fun t => t.err == some .missingCode) ∧
      next (performAccess (.write 0x10#8 4 7) inEnc) (fun t => t.err == some .missingCode)) ∧
    (next (exec .decStart inDec) (fun t => t.err == some .seq) ∧ (∀ v, Instr.decStart ≠ .decByte v) ∧
      Access.off (.write 0x0C#8 4 0x30) ≠ 0x10#8 ∧
      next (performAccess (.write 0x0C#8 4 0x30) inDec) (fun t => t.err == some .seq)) ∧
    inDec.rstAsserted = false ∧ decodeCmd 0x00000002#32 = none ∧
      next (performAccess (.write 0x0C#8 4 0x00000002#32) inDec) (fun t => t.err == some .badCmd) :=
  ⟨by decide, by decide, ⟨by decide, by simp, by decide, by decide⟩, by decide⟩

theorem witness_OnlyTheListedErrorsAreRaised :
    inEnc.err = none ∧ Instr.selectedIn inEnc.mode (.encByte 7) ∧
      next (exec (.encByte 7) inEnc) (fun t => t.err == some .missingCode) := by decide

theorem witness_ErrorInfoIsTheWordWritten :
    inEnc.err = none ∧ next (performAccess (.write 0x10#8 4 7) inEnc) (fun t => t.err != none && t.errInfo == 7) ∧
      next (performAccess (.write 0x0C#8 4 2) inEnc) (fun t => t.err != none && t.errInfo == 2) := by decide

theorem witness_ErrorStateIgnoresCommandsAndData :
    ct2.err ≠ none ∧ ct2.rstAsserted = false ∧ (0x000000FF#32 : Word) ≠ 0x00000001#32 := by decide

theorem witness_FirstErrorIsKept :
    ct2.err ≠ none ∧ next (performEvent (.access (.write 0x0C#8 4 0xFF)) ct2) (fun t => t.err == ct2.err) ∧
      next (performEvent (.access (.write 0x0C#8 4 1)) ct2) (fun t => t.err == none) ∧
      HostEvent.access (.write 0x0C#8 4 1) ≠ .resetAssert ∧ HostEvent.access (.write 0x0C#8 4 1) ≠ .resetRelease := by
  decide

theorem witness_ModeChangesOnlyAsListed :
    next (performEvent (.access (.write 0x0C#8 4 0x20)) e4) (fun t => t.mode != e4.mode) ∧
      next (performEvent .resetRelease e4Enc) (fun t => t.mode != e4Enc.mode) := by decide

theorem witness_TableChangesOnlyInIdle :
    next (performEvent (.access (.write 0x0C#8 4 0x10)) e4) (fun t => t.table != e4.table) ∧
      next (performEvent .resetRelease e4) (fun t => t.table != e4.table) := by decide

theorem witness_ConfigurationRegisterWriters :
    next (exec (.tblRead 0) e4) (fun t => t.tblInfo != e4.tblInfo && t.cw != e4.cw) ∧
      next (exec (.ctrlWr 4) e4) (fun t => t.ieIn != e4.ieIn) ∧
      next (exec (.decBitsWr 4) e4) (fun t => t.decBits != e4.decBits) := by decide

theorem witness_OperationsKeepTheInterface :
    next (exec .outPop e4) (fun t => t.returned == e4.returned ++ [0]) ∧
      next (exec .nop e4) (fun t => t.returned == e4.returned) := by decide

/-- The invariant holds in a state inside a decode stream and in one inside an encode stream. -/
theorem witness_inv_inDec : Inv inDec :=
  ⟨by decide, shortTable_ok, by decide, by decide, by decide, by decide, by decide, by decide, by decide, by decide,
    by decide, by decide, by decide, by decide⟩

theorem witness_inv_inEnc : Inv inEnc :=
  ⟨by decide, shortTable_ok, by decide, by decide, by decide, by decide, by decide, by decide, by decide, by decide,
    by decide, by decide, by decide, by decide⟩

theorem witness_EveryStepKeepsTheInvariant :
    ∃ s t, Inv s ∧ step s = .next t ∧ t.outq.length = 8 :=
  ⟨{ inDec with pending := [.access (.write 0x10#8 4 0)] }, _, { witness_inv_inDec with }, rfl, by decide⟩

theorem witness_NoPushFindsTheFifoFull :
    Inv inEnc ∧ ¬ outqLevel { inEnc with outq := List.replicate 64 0xFF } < inEnc.cfg.outDepth :=
  ⟨witness_inv_inEnc, by decide⟩

theorem witness_EveryOperationCompletes :
    ∃ s, Inv s ∧ s.pending = [.access (.read 0xFC#8 4)] ∧ s.rstAsserted = false ∧ Access.size (.read 0xFC#8 4) = 4 ∧
      (Access.off (.read 0xFC#8 4)).toNat % 4 = 0 :=
  ⟨{ inEnc with pending := [.access (.read 0xFC#8 4)] }, { witness_inv_inEnc with }, rfl, rfl, by decide, by decide⟩

/-- The symbol 3 encoded, with a read of DATA_OUT and a TBL_READ inside the stream; "110110" decoded. -/
theorem witness_CompleteStreamRunsOnOneTable :
    (∃ t, CompleteStream (encode .encStart) [.write 0x10#8 4 3, .read 0x14#8 4, encode (.tblRead 2)] (encode .encFlush)
      e4 t) ∧
    ∃ t, CompleteStream (encode .decStart) [.write 0x10#8 4 0xD8] (encode .decFinish) { e4 with decBits := 6 } t :=
  ⟨⟨_, .enc, by decide, rfl⟩, ⟨_, .dec, by decide, rfl⟩⟩

/-- A completed decompression of "110110": two reads take the two symbols. -/
theorem witness_CompletedRun :
    ∃ t, CompletedRun [.write 0x18#8 4 6, encode .decStart, .write 0x10#8 4 0xD8, encode .decFinish, .read 0x14#8 4,
      .read 0x14#8 4] e4 t ∧ t.returned = [0x80000000#32, 0x80000000#32] :=
  ⟨_, ⟨⟨[.write 0x18#8 4 6], encode .decStart, [.write 0x10#8 4 0xD8], encode .decFinish, [.read 0x14#8 4, .read 0x14#8 4],
    _, _, rfl, rfl, ⟨.dec, by decide, rfl⟩, rfl, by simp⟩, by decide, by decide⟩, by decide⟩

/-- R242: no stream is complete that an ABORT ends, with or without an error before it. -/
theorem test_aborted_stream_is_not_complete :
    (∀ body s t, ¬ CompleteStream (encode .encStart) body (encode .abort) s t) ∧
      runClean [encode .encStart, .write 0x10#8 4 7, encode .abort] e4 = none := by
  refine ⟨fun body s t h => ?_, by decide⟩
  have hne : encode .abort ≠ encode .encFlush ∧ encode .abort ≠ encode .decFinish := by decide
  generalize ha : encode .abort = a at h hne
  cases h.ends with
  | enc => exact hne.1 rfl

theorem witness_BuildGivesOneLeafPerSymbol : ([] : HostRef.Freq) = [] ∧ ([(65, 10)] : HostRef.Freq) ≠ [] := by decide

theorem witness_GeneratedTableIsAccepted :
    (∃ tree, (([(7, 2), (8, 1)] : HostRef.Freq).map Prod.fst).Nodup ∧ HostRef.build [(7, 2), (8, 1)] = .ok tree) ∧
      inDec.rstAsserted = false ∧ ct2.rstAsserted = false :=
  ⟨⟨_, by decide, rfl⟩, by decide⟩

/-- H3's container. -/
theorem witness_ReadingAContainerReversesWriting :
    ∃ c : HostRef.Container, 1 ≤ c.codes.length ∧ c.codes.length ≤ 256 ∧
      (∀ e ∈ c.codes, 1 ≤ e.2.length ∧ e.2.length ≤ 255) ∧ c.bitCount < 2 ^ 31 ∧
      c.payload.length = (c.bitCount + 7) / 8 :=
  ⟨{ codes := [(5, bits [0]), (9, bits [1])], bitCount := 2, payload := [0x40] }, by decide⟩

end Sys2Proof.Tests
end

