-- ==== Sys2Proof/Proofs/Scope.lean ====
section
/-! PROOFS. The decoder reads back every access the encoder writes, what one step does with the next pending event,
and the statements of spec/00_scope.md. -/

namespace Sys2Proof

/-- R73, R78: a write of a legal command word to CMD decodes to its command in every mode. -/
theorem decode_writeOf_cmd {m : Mode} {w : Word} {i : Instr} (h : decodeCmd w = some i) :
    decode m (writeOf .cmd w) = .ok i := by
  rw [decode_writeOf rfl, decodeWrite, h]

/-- R78: only the read of DATA_OUT is no REG_RD. -/
theorem decodeRead_of_ne {r : Reg} (h : r ≠ .dataOut) : decodeRead r = .regRd r := by
  cases r with
  | dataOut => exact absurd rfl h
  | _ => rfl

/-- R158: a write of an RO or a reserved register decodes to the write that is ignored. -/
theorem decodeWrite_of_writeIgnored {m : Mode} {r : Reg} {v : Word} (h : r.writeIgnored = true) :
    decodeWrite m r v = .ok (.regWi r v) := by
  cases r with
  | ctrl | cmd | dataIn | decBits | cw => cases h
  | _ => rfl

/-- R70 to R79: the decoder reads back an operation from the access that encodes it, in a mode that selects its row. -/
theorem decode_encode {m : Mode} {i : Instr} (hwf : i.wellFormed = true) (hsel : i.selectedIn m = true) :
    decode m (encode i) = .ok i := by
  cases i with
  | nop | abort | tblClear | tblAdd | tblRead | encStart | encFlush | decStart | decFinish =>
    exact decode_writeOf_cmd (by simp [cmdWord, decodeCmd_cmdFields])
  | encByte v | decByte v | dinIdle v =>
    obtain rfl := eq_of_beq hsel
    exact decode_writeOf rfl
  | outPop => exact decode_readOf rfl
  | ctrlWr v | decBitsWr v | cwWr k v => exact decode_writeOf rfl
  | regRd r =>
    obtain ⟨hr, hne⟩ : r.wellFormed = true ∧ r ≠ .dataOut := by simpa [Instr.wellFormed] using hwf
    rw [encode, decode_readOf hr, decodeRead_of_ne hne]
  | regWi r v =>
    obtain ⟨hr, hign⟩ : r.wellFormed = true ∧ r.writeIgnored = true := by simpa [Instr.wellFormed] using hwf
    rw [encode, decode_writeOf hr, decodeWrite_of_writeIgnored hign]

namespace Machine

/-- R242: with nothing pending the engine does not change. -/
theorem step_of_pending_nil {s : State} (h : s.pending = []) : step s = .next s := by
  rw [step, nextEvent, h]

/-- R53: a step takes the next pending event off the list and performs it. -/
theorem step_of_pending_cons {s : State} {e : HostEvent} {rest : List HostEvent} (h : s.pending = e :: rest) :
    step s = performEvent e { s with pending := rest } := by
  rw [step, nextEvent, h]

/-- R10, R53: outside reset a step with an access pending runs the operation the access decodes to. -/
theorem step_of_pending_access {s : State} {a : Access} {rest : List HostEvent} {i : Instr}
    (hp : s.pending = .access a :: rest) (hr : s.rstAsserted = false) (hd : decode s.mode a = .ok i) :
    step s = exec i { s with pending := rest } :=
  (step_of_pending_cons hp).trans (performAccess_of_ok hr hd)

end Machine

open Machine

/-- Settles O6: a step performs the event it takes off, and the access that encodes a well-formed operation of the mode
decodes to that operation. -/
theorem stepPerformsTheNextAccess : Obligations.StepPerformsTheNextAccess :=
  ⟨fun _ _ _ _ hp hr hd => step_of_pending_access hp hr hd,
    fun _ _ _ hp hr hwf hsel => step_of_pending_access hp hr (decode_encode hwf hsel),
    fun _ hp => step_of_pending_nil hp⟩

end Sys2Proof
end

