-- ==== Sys2Proof/Proofs/State.lean ====
section
/-! PROOFS. The statements of spec/10_state.md: the invariant of R44 over every event, which operation writes which
register, and what the status registers read. -/

namespace Sys2Proof

/-! ### The access of an operation (R51, R72, R78) -/

/-- R72: a legal command word is the word that encodes its command. -/
theorem encode_of_decodeCmd {w : Word} {i : Instr} (h : decodeCmd w = some i) : encode i = writeOf .cmd w := by
  obtain ⟨hrsv, hcases⟩ := decodeCmd_cases h
  have heta := cmdFields_eta w hrsv
  rcases hcases with ⟨ho, rfl⟩ | ⟨ho, hl, rfl⟩ | ⟨hs, hl, hcases⟩
  · simpa [encode, cmdWord, ho] using congrArg (writeOf .cmd) heta
  · simpa [encode, cmdWord, ho, hl] using congrArg (writeOf .cmd) heta
  · rw [hs, hl] at heta
    rcases hcases with ⟨ho, rfl⟩ | ⟨ho, rfl⟩ | ⟨ho, rfl⟩ | ⟨ho, rfl⟩ | ⟨ho, rfl⟩ | ⟨ho, rfl⟩ | ⟨ho, rfl⟩ <;>
      (rw [ho] at heta; exact congrArg (writeOf .cmd) heta)

/-- R78: a read is the access that encodes the operation it decodes to. -/
theorem encode_decodeRead (r : Reg) : encode (decodeRead r) = readOf r := by cases r <;> rfl

/-- R78: a write is the access that encodes the operation it decodes to. -/
theorem encode_of_decodeWrite {m : Mode} {r : Reg} {v : Word} {i : Instr} (h : decodeWrite m r v = .ok i) :
    encode i = writeOf r v := by
  cases r with
  | cmd =>
    cases hd : decodeCmd v with
    | none => simp [decodeWrite, hd] at h
    | some j =>
      obtain rfl : j = i := by simpa [decodeWrite, hd] using h
      exact encode_of_decodeCmd hd
  | dataIn => cases m <;> cases h <;> rfl
  | _ => cases h; rfl

/-- R73, R77, R78: an access is the one that encodes the operation it decodes to. -/
theorem encode_of_decode {m : Mode} {a : Access} {i : Instr} (h : decode m a = .ok i) : encode i = a := by
  unfold decode at h
  split at h
  · cases h
  · next hsz =>
    split at h
    · cases h
    · next hal =>
      have hsz' : a.size = 4 := not_not.mp hsz
      have hal' : regOffset (regOfOffset a.off) = a.off := regOffset_regOfOffset (not_not.mp hal)
      cases a with
      | read off size =>
        cases h
        rw [encode_decodeRead, readOf, show size = 4 from hsz']
        exact congrArg (Access.read · 4) hal'
      | write off size v =>
        rw [encode_of_decodeWrite h, writeOf, show size = 4 from hsz']
        exact congrArg (Access.write · 4 v) hal'

/-- R51: an offset that is a multiple of 4 is that of the register it names. -/
theorem regOffset_regOfOffset_of_mod {off : Byte} (h : off.toNat % 4 = 0) : regOffset (regOfOffset off) = off := by
  apply regOffset_regOfOffset
  apply BitVec.eq_of_toNat_eq
  simpa using h

theorem regOfOffset_wellFormed (off : Byte) : (regOfOffset off).wellFormed = true := regOfWord_wellFormed _

/-- R45: the reserved offsets name reserved words. -/
theorem regOfOffset_reserved : ∀ off : Byte, off.toNat % 4 = 0 → off = 0x38#8 ∨ off = 0x3C#8 ∨ 0x60 ≤ off.toNat →
    regOfOffset off = .reserved (off.extractLsb' 2 6) := by
  decide

/-! ### Reading one field of a word of placed fields -/

/-- A placed field reads back at its place. -/
theorem extractLsb'_field_same {n : Nat} (lo : Nat) (x : BitVec n) (h : lo + n ≤ 32) :
    (field lo x).extractLsb' lo n = x := by
  apply BitVec.eq_of_getLsbD_eq
  intro i hi
  rw [BitVec.getLsbD_extractLsb', getLsbD_field]
  simp [hi, show lo + i < 32 by omega]

/-- A placed field reads 0 at every place above or below it. -/
theorem extractLsb'_field_other {n : Nat} (lo : Nat) (x : BitVec n) (lo' n' : Nat) (h : lo' + n' ≤ lo ∨ lo + n ≤ lo') :
    (field lo x).extractLsb' lo' n' = 0#n' := by
  apply BitVec.eq_of_getLsbD_eq
  intro i hi
  rcases h with h | h
  · simp [getLsbD_field, show ¬ lo ≤ lo' + i by omega]
  · simp [getLsbD_field, BitVec.getLsbD_of_ge x (lo' + i - lo) (by omega)]

/-- A number that fits is the value of its field. -/
theorem toNat_ofNat_of_lt {n x : Nat} (h : x < 2 ^ n) : (BitVec.ofNat n x).toNat = x := by
  rw [BitVec.toNat_ofNat, Nat.mod_eq_of_lt h]

/-- A bit of a word is its field of length 1. -/
theorem getLsbD_of_extractLsb' {w : Word} {i : Nat} {b : Bool} (h : w.extractLsb' i 1 = BitVec.ofBool b) :
    w.getLsbD i = b := by
  have := congrArg (·.getLsbD 0) h
  simpa using this

namespace Machine

/-! ### What an access and a read of DATA_OUT can do -/

/-- R53, R152: what a host access that answers a next state has done: an operation, an illegal command word ignored in
the error state, or BAD_CMD. -/
theorem performAccess_next {a : Access} {s t : State} (h : performAccess a s = .next t) :
    (∃ i, decode s.mode a = .ok i ∧ Effect i s t) ∨ t = s ∨
      (s.err = none ∧ ∃ w, a = writeOf .cmd w ∧ t = raise .badCmd w s) := by
  rcases performAccess_cases a s with ⟨-, hp⟩ | ⟨-, i, hd, hp⟩ | ⟨-, e, hd, hp⟩
  · rw [hp] at h; cases h
  · exact .inl ⟨i, hd, exec_effect (hp ▸ h)⟩
  · rw [hp] at h
    rcases decode_error hd with rfl | rfl | ⟨w, rfl, ha, -⟩
    · cases h
    · cases h
    · rcases unlessError_next h with ⟨-, rfl⟩ | ⟨he, h⟩
      · exact .inr (.inl rfl)
      · cases h
        exact .inr (.inr ⟨he, w, ha, rfl⟩)

/-- R31, R156: a read of DATA_OUT takes the oldest byte off OUTQ, if there is one. -/
theorem popOutput_outq (s : State) : (popOutput s).outq = s.outq.tail := by
  cases h : s.outq with
  | nil => rw [popOutput_nil h, respond_outq, h, List.tail_nil]
  | cons b rest => rw [popOutput_cons h, respond_outq, List.tail_cons]

/-- R156, R157: what a read of a register does. -/
theorem exec_decodeRead (r : Reg) (s : State) : exec (decodeRead r) s = .next (readAccess r s) := by
  cases r <;> rfl

/-- R51, R78: a read at an offset that is a multiple of 4 reads the register it names. -/
theorem performAccess_read {s : State} {off : Byte} (hr : s.rstAsserted = false) (h : off.toNat % 4 = 0) :
    performAccess (.read off 4) s = .next (readAccess (regOfOffset off) s) := by
  have hread : Access.read off 4 = readOf (regOfOffset off) := by rw [readOf, regOffset_regOfOffset_of_mod h]
  rw [hread, performAccess_of_ok hr (decode_readOf (regOfOffset_wellFormed off)), exec_decodeRead]

/-- R158: a write to an RO or a reserved register changes nothing. -/
theorem performAccess_write_ignored {s : State} {off : Byte} {v : Word} (hr : s.rstAsserted = false)
    (h : off.toNat % 4 = 0) (hi : (regOfOffset off).writeIgnored = true) : performAccess (.write off 4 v) s = .next s := by
  have hwrite : Access.write off 4 v = writeOf (regOfOffset off) v := by
    rw [writeOf, regOffset_regOfOffset_of_mod h]
  have hd : decode s.mode (writeOf (regOfOffset off) v) = .ok (.regWi (regOfOffset off) v) :=
    (decode_writeOf (regOfOffset_wellFormed off)).trans (decodeWrite_of_writeIgnored hi)
  rw [hwrite, performAccess_of_ok hr hd]
  rfl

/-- R159: a write of DATA_IN is the data write, whatever the mode that selects its row. -/
theorem performAccess_dataIn {s : State} {v : Word} (hr : s.rstAsserted = false) :
    performAccess (.write 0x10#8 4 v) s = dataWrite v s := by
  have hd : ∀ m, decode m (.write 0x10#8 4 v) = decodeWrite m .dataIn v := fun m => decode_writeOf (r := .dataIn) rfl
  cases hm : s.mode with
  | idle | enc | dec => rw [performAccess_of_ok hr (by rw [hd, hm]; rfl)]; rfl

/-! ### What a walk over bits keeps (R133, R134) -/

section WalkFrame

variable {n : Nat} {s t : State} (h : WalkFrame n s t)
include h

theorem WalkFrame.cfg_eq : t.cfg = s.cfg := by rw [h]
theorem WalkFrame.err_eq : t.err = s.err := by rw [h]
theorem WalkFrame.mode_eq : t.mode = s.mode := by rw [h]
theorem WalkFrame.table_eq : t.table = s.table := by rw [h]
theorem WalkFrame.tblInfo_eq : t.tblInfo = s.tblInfo := by rw [h]
theorem WalkFrame.bitcnt_eq : t.bitcnt = s.bitcnt + BitVec.ofNat 32 n := by rw [h]
theorem WalkFrame.decRem_eq : t.decRem = s.decRem - BitVec.ofNat 32 n := by rw [h]

end WalkFrame

/-! ### The invariant of R44 -/

/-- R41, R44 (d): a cursor at the root or at an internal node holds at most CURSOR_MAX bits. -/
theorem curLen_of_tableInner {t : Table} {p : Bits} (ht : LengthsOk t) (h : p = [] ∨ tableInner t p = true) :
    p.length ≤ Config.cursorMax := by
  rcases h with rfl | h
  · simp
  · obtain ⟨e, he, -, hlt⟩ := tableInner_iff.mp h
    have := (ht e he).2
    simp only [Config.codeLenMax, Config.cursorMax] at *
    omega

/-- R204: error entry gives a state that meets the invariant; of the state before it only what it keeps matters. -/
theorem raise_inv {s : State} (hd : s.cfg.InRange) (ht : TableOk s.table) (hc : s.cur.length ≤ Config.cursorMax)
    (hr : s.mode ≠ .dec → s.decRem = 0) (hi : s.tblInfo.extractLsb' 16 15 = 0) (e : Cause) (w : Word) :
    Inv (raise e w s) where
  depth := hd
  table := ht
  curRoot := nofun
  curInner := nofun
  curLen := hc
  accEmpty := fun _ => rfl
  accLen := Nat.zero_le _
  outqLen := Nat.zero_le _
  flushRoom := fun _ => Nat.lt_of_lt_of_le (Nat.zero_lt_succ 32) hd.1
  errEmpty := fun _ => rfl
  endRoot := nofun
  remZero := hr
  noErrInfo := nofun
  tblInfoZero := hi

/-- R204: error entry keeps the invariant. -/
theorem Inv.raise {s : State} (h : Inv s) (e : Cause) (w : Word) : Inv (raise e w s) :=
  raise_inv h.depth h.table h.curLen h.remZero h.tblInfoZero e w

/-- R46, R230: reset gives a state that meets the invariant, whatever the engine held. -/
theorem resetEngine_inv {s : State} (hd : s.cfg.InRange) : Inv (resetEngine s) where
  depth := hd
  table := tableOk_nil
  curRoot := fun _ _ => rfl
  curInner := fun _ _ => .inl rfl
  curLen := Nat.zero_le _
  accEmpty := fun _ => rfl
  accLen := Nat.zero_le _
  outqLen := Nat.zero_le _
  flushRoom := nofun
  errEmpty := fun h => absurd rfl h
  endRoot := fun _ _ _ => rfl
  remZero := fun _ => rfl
  noErrInfo := fun _ => rfl
  tblInfoZero := by rw [resetEngine_tblInfo]; decide

/-- R151: ABORT keeps the invariant. -/
theorem Inv.abortState {s : State} (h : Inv s) : Inv (abortState s) where
  depth := h.depth
  table := h.table
  curRoot := fun _ _ => rfl
  curInner := nofun
  curLen := Nat.zero_le _
  accEmpty := fun _ => rfl
  accLen := Nat.zero_le _
  outqLen := Nat.zero_le _
  flushRoom := nofun
  errEmpty := fun h => absurd rfl h
  endRoot := nofun
  remZero := fun _ => rfl
  noErrInfo := fun _ => rfl
  tblInfoZero := h.tblInfoZero

/-- R156: a read of DATA_OUT keeps the invariant, for OUTQ gets no longer. -/
theorem Inv.popOutput {s : State} (h : Inv s) : Inv (popOutput s) := by
  have hle : (Machine.popOutput s).outq.length ≤ s.outq.length := by simp [popOutput_outq]
  rw [popOutput_frame]
  exact { h with
    outqLen := hle.trans h.outqLen
    flushRoom := fun hm => hle.trans_lt (h.flushRoom hm)
    errEmpty := fun he => by simp [popOutput_outq, h.errEmpty he] }

/-- R113, R114: with ENC_ROOM free bytes, appending a codeword leaves at most 7 bits waiting and one byte free. -/
theorem appendBits_leaves_room {c : Bits} {s u : State} (ha : s.acc.length ≤ 7) (hc : c.length ≤ Config.codeLenMax)
    (hr : hasRoom Config.encRoom s = true) (hu : appendBits c s = .go u) :
    u.acc.length ≤ 7 ∧ u.outq.length < s.cfg.outDepth := by
  have hr := hasRoom_iff.mp hr
  simp only [Config.encRoom, Config.codeLenMax] at hr hc
  rw [appendBits_eq c s ha (by omega)] at hu
  cases hu
  simp only [List.length_drop, List.length_append, packBytes_length]
  omega

/-- R113: an accepted symbol keeps the invariant. -/
theorem Inv.encoded {c : Bits} {s u : State} (h : Inv s) (he : s.err = none) (hm : s.mode = .enc)
    (hr : hasRoom Config.encRoom s = true) (hc : c.length ≤ Config.codeLenMax) (hu : appendBits c s = .go u) :
    Inv (countSymbol c u) := by
  obtain ⟨hacc, houtq⟩ := appendBits_leaves_room h.accLen hc hr hu
  rw [appendBits_go hu]
  exact { h with
    accEmpty := fun hor => absurd hor (by simp [he, hm])
    accLen := hacc
    outqLen := Nat.le_of_lt houtq
    flushRoom := fun _ => houtq
    errEmpty := fun hne => absurd he hne }

/-- R115: ENC_FLUSH keeps the invariant. -/
theorem Inv.encFlush {s u : State} (h : Inv s) (he : s.err = none) (hm : s.mode = .enc) (hu : flushAcc s = .go u) :
    Inv { u with mode := .idle } := by
  have hcur : s.cur = [] := h.curRoot he (by simp [hm])
  have hrem : s.decRem = 0 := h.remZero (by simp [hm])
  have hflush : u.acc = [] ∧ u.outq.length ≤ s.cfg.outDepth := by
    rcases flushAcc_go hu with ⟨ha, rfl⟩ | ⟨-, hl, rfl⟩
    · exact ⟨ha, h.outqLen⟩
    · exact ⟨rfl, by simpa using hl⟩
  obtain ⟨hacc, houtq⟩ := hflush
  rw [flushAcc_frame hu]
  exact { h with
    curRoot := fun _ _ => hcur
    curInner := nofun
    accEmpty := fun _ => hacc
    accLen := by simp [hacc]
    outqLen := houtq
    flushRoom := nofun
    errEmpty := fun hne => absurd he hne
    endRoot := nofun
    remZero := fun _ => hrem }

section Walk

variable {v : Word} {bs : Bits} {s u : State} (h : Inv s) (he : s.err = none) (hm : s.mode = .dec)
  (hu : decBitLoop v bs s = .go u)
include h he hm hu

/-- R134: from a state that meets the invariant the walk stays on the nodes of D(T), and OUTQ in its bounds. -/
theorem Inv.walk_cursor : u.outq.length ≤ s.cfg.outDepth ∧ (u.cur = [] ∨ tableInner s.table u.cur = true) := by
  have hstart : s.cur = [] ∨ tableInner s.table s.cur = true := (h.curInner he hm).imp_right tableInner_iff.mpr
  have hend := decBitLoop_go_cursor hu h.outqLen hstart
  rwa [(decBitLoop_go_frame hu).cfg_eq, (decBitLoop_go_frame hu).table_eq] at hend

/-- R133: a walk that passes the end check keeps the invariant. -/
theorem Inv.decoded (hend : u.decRem = 0 → u.cur = []) : Inv u := by
  obtain ⟨houtq, hcur⟩ := h.walk_cursor he hm hu
  have hframe := decBitLoop_go_frame hu
  rw [hframe.decRem_eq] at hend
  rw [hframe]
  exact { h with
    curRoot := fun _ hne => absurd hm hne
    curInner := fun _ _ => hcur.imp_right tableInner_iff.mp
    curLen := curLen_of_tableInner h.table.lengths hcur
    outqLen := houtq
    flushRoom := fun henc => absurd (hm.symm.trans henc) (by decide)
    errEmpty := fun hne => absurd he hne
    endRoot := fun _ _ => hend
    remZero := fun hne => absurd hm hne }

/-- R133, R134: an error raised after a walk keeps the invariant. -/
theorem Inv.walk_raise (e : Cause) (w : Word) : Inv (Machine.raise e w u) := by
  have hcur := curLen_of_tableInner h.table.lengths (h.walk_cursor he hm hu).2
  have hframe := decBitLoop_go_frame hu
  exact raise_inv (hframe.cfg_eq ▸ h.depth) (hframe.table_eq ▸ h.table) hcur
    (fun hne => absurd (hframe.mode_eq.trans hm) hne) (hframe.tblInfo_eq ▸ h.tblInfoZero) e w

end Walk

/-- R44: every operation keeps the invariant. -/
theorem Effect.inv {i : Instr} {s t : State} (h : Effect i s t) (hs : Inv s) : Inv t := by
  cases h with
  | ignored h => exact h ▸ hs
  | abort _ h => exact h ▸ hs.abortState
  | pop _ h => exact h ▸ hs.popOutput
  | read _ _ h | ctrl _ _ h | decBits _ _ h | stage _ _ _ h => rw [h]; exact { hs with }
  | raised c w _ _ _ h => exact h ▸ hs.raise c w
  | tblClear he hm _ h =>
    rw [h]
    exact { hs with
      table := tableOk_nil
      curInner := fun _ hdec => absurd (hm.symm.trans hdec) (by decide)
      tblInfoZero := BitVec.extractLsb'_zero }
  | tblAdd sym len he hm _ hl hg hc h =>
    have hlen : 1 ≤ len.toNat := Nat.one_le_iff_ne_zero.mpr fun h0 => hl (BitVec.eq_of_toNat_eq h0)
    rw [h]
    exact { hs with
      table := tableSet_tableOk hs.table (by simpa [Config.codeLenMax] using ⟨hlen, Nat.le_of_lt_succ len.isLt⟩) hc
      curInner := fun _ hdec => absurd (hm.symm.trans hdec) (by decide) }
  | tblRead sym _ _ h =>
    rw [h]
    exact { hs with tblInfoZero := (tblInfo_fields sym _).2.1 }
  | encStart he hm _ h =>
    rw [h]
    exact { hs with
      curRoot := fun _ _ => hs.curRoot he (by simp [hm])
      curInner := nofun
      accEmpty := fun _ => rfl
      accLen := Nat.zero_le _
      outqLen := Nat.zero_le _
      flushRoom := fun _ => Nat.lt_of_lt_of_le (Nat.zero_lt_succ 32) hs.depth.1
      errEmpty := fun _ => rfl
      endRoot := nofun
      remZero := fun _ => rfl }
  | encFlush u he hm _ hu h => exact h ▸ hs.encFlush he hm hu
  | decStart he hm _ h =>
    have hacc : s.acc = [] := hs.accEmpty (.inl (by simp [hm]))
    rw [h]
    exact { hs with
      curRoot := fun _ _ => rfl
      curInner := fun _ _ => .inl rfl
      curLen := Nat.zero_le _
      accEmpty := fun _ => hacc
      outqLen := Nat.zero_le _
      flushRoom := nofun
      errEmpty := fun _ => rfl
      endRoot := fun _ _ _ => rfl
      remZero := fun hne => absurd rfl hne }
  | decFinish he hm _ h0 h =>
    have hacc : s.acc = [] := hs.accEmpty (.inl (by simp [hm]))
    rw [h]
    exact { hs with
      curRoot := fun _ _ => hs.endRoot he hm h0
      curInner := nofun
      accEmpty := fun _ => hacc
      flushRoom := nofun
      endRoot := nofun
      remZero := fun _ => h0 }
  | encoded v c u he hm _ hr hg hu h =>
    exact h ▸ hs.encoded he hm hr (hs.table.lengths _ (mem_of_tableGet hg)).2 hu
  | decoded v he hm _ _ _ hu hc => exact hs.decoded he hm hu hc
  | truncated v u he hm _ _ _ hu _ h => exact h ▸ hs.walk_raise he hm hu .truncated v
  | noChild v pre u he hm _ _ hu h => exact h ▸ hs.walk_raise he hm hu .noChild v

/-- R44, R152: every access that answers a next state keeps the invariant. -/
theorem performAccess_inv {a : Access} {s t : State} (hs : Inv s) (h : performAccess a s = .next t) : Inv t := by
  rcases performAccess_next h with ⟨i, -, heff⟩ | rfl | ⟨-, w, -, rfl⟩
  · exact heff.inv hs
  · exact hs
  · exact hs.raise .badCmd w

/-- R44, R230: every event keeps the invariant. -/
theorem performEvent_inv {e : HostEvent} {s t : State} (hs : Inv s) (h : performEvent e s = .next t) : Inv t := by
  cases e with
  | access a => exact performAccess_inv hs h
  | resetAssert | resetRelease => cases h; exact resetEngine_inv hs.depth

/-! ### Which operation writes which register -/

/-- The part of the state that only a few operations write: MODE, T, and the registers the host configures. -/
structure Settings where
  mode : Mode
  table : Table
  tblInfo : Word
  cw : Vector Word 8
  enables : Bool × Bool × Bool
  decBits : Word

/-- The settings of a state. -/
def State.settings (s : State) : Settings where
  mode := s.mode
  table := s.table
  tblInfo := s.tblInfo
  cw := s.cw
  enables := (s.ieErr, s.ieOut, s.ieIn)
  decBits := s.decBits

/-- The ways an operation can change the settings, each with the operation that does it. -/
inductive SettingsChange (i : Instr) (s t : State) : Prop
  | same (h : t.settings = s.settings)
  | mode (hi : ModeChange i s.mode t.mode) (h : t.settings = { s.settings with mode := t.mode })
  | tblClear (he : s.err = none) (hm : s.mode = .idle) (hi : i = .tblClear)
      (h : t.settings = { s.settings with table := t.table, tblInfo := t.tblInfo })
  | tblAdd (sym len : Byte) (he : s.err = none) (hm : s.mode = .idle) (hi : i = .tblAdd sym len)
      (h : t.settings = { s.settings with table := t.table })
  | tblRead (sym : Byte) (hi : i = .tblRead sym)
      (h : t.settings = { s.settings with tblInfo := t.tblInfo, cw := t.cw })
  | cw (k : Fin 8) (v : Word) (hi : i = .cwWr k v) (h : t.settings = { s.settings with cw := t.cw })
  | ctrl (v : Word) (hi : i = .ctrlWr v) (h : t.settings = { s.settings with enables := t.settings.enables })
  | decBits (v : Word) (hi : i = .decBitsWr v) (h : t.settings = { s.settings with decBits := t.decBits })

theorem WalkFrame.settings_eq {n : Nat} {s t : State} (h : WalkFrame n s t) : t.settings = s.settings := by
  rw [h]; rfl

/-- R22, R25, R32, R37, R39, R40: how an operation changes the settings. -/
theorem Effect.settingsChange {i : Instr} {s t : State} (h : Effect i s t) : SettingsChange i s t := by
  cases h with
  | ignored h => exact .same (h ▸ rfl)
  | read _ _ h | raised _ _ _ _ _ h => exact .same (h ▸ rfl)
  | pop _ h => exact .same (by rw [h, popOutput_frame]; rfl)
  | encoded _ _ _ _ _ _ _ _ hu h => exact .same (by rw [h, appendBits_go hu]; rfl)
  | decoded _ _ _ _ _ _ hu _ => exact .same (decBitLoop_go_frame hu).settings_eq
  | truncated _ _ _ _ _ _ _ hu _ h | noChild _ _ _ _ _ _ _ hu h =>
    exact .same (h ▸ (decBitLoop_go_frame hu).settings_eq)
  | abort hi h => subst h; exact .mode (by simp [ModeChange, hi]) rfl
  | encStart _ hm hi h | decStart _ hm hi h | decFinish _ hm hi _ h =>
    subst h; exact .mode (by simp [ModeChange, hi, hm]) rfl
  | encFlush u _ hm hi hu h =>
    rw [h, flushAcc_frame hu]; exact .mode (by simp [ModeChange, hi, hm]) rfl
  | tblClear he hm hi h => subst h; exact .tblClear he hm hi rfl
  | tblAdd sym len he hm hi _ _ _ h => subst h; exact .tblAdd sym len he hm hi rfl
  | tblRead sym _ hi h => subst h; exact .tblRead sym hi rfl
  | stage k v hi h => subst h; exact .cw k v hi rfl
  | ctrl v hi h => subst h; exact .ctrl v hi rfl
  | decBits v hi h => subst h; exact .decBits v hi rfl

/-- R22: an operation changes MODE only as listed. -/
theorem Effect.modeChange {i : Instr} {s t : State} (h : Effect i s t) (hne : t.mode ≠ s.mode) :
    ModeChange i s.mode t.mode := by
  cases h.settingsChange with
  | mode hi _ => exact hi
  | same h | tblClear _ _ _ h | tblAdd _ _ _ _ _ h | tblRead _ _ h | cw _ _ _ h | ctrl _ _ h | decBits _ _ h =>
    exact absurd (congrArg Settings.mode h) hne

/-- R40: an operation changes T only in IDLE, with no error, and it is TBL_CLEAR or TBL_ADD. -/
theorem Effect.tableChange {i : Instr} {s t : State} (h : Effect i s t) (hne : t.table ≠ s.table) :
    s.mode = .idle ∧ s.err = none ∧ (i = .tblClear ∨ ∃ sym len, i = .tblAdd sym len) := by
  cases h.settingsChange with
  | tblClear he hm hi _ => exact ⟨hm, he, .inl hi⟩
  | tblAdd sym len he hm hi _ => exact ⟨hm, he, .inr ⟨sym, len, hi⟩⟩
  | same h | mode _ h | tblRead _ _ h | cw _ _ _ h | ctrl _ _ h | decBits _ _ h =>
    exact absurd (congrArg Settings.table h) hne

/-- R49, R203: an operation that raises an error records the word its access writes to CMD or DATA_IN. -/
theorem Effect.err_none_or_recorded {i : Instr} {s t : State} (h : Effect i s t) (he : s.err = none) :
    t.err = none ∨ encode i = writeOf .cmd t.errInfo ∨ encode i = writeOf .dataIn t.errInfo := by
  cases h with
  | ignored h => exact .inl (h ▸ he)
  | abort _ h => exact .inl (h ▸ rfl)
  | read _ _ h | ctrl _ _ h | decBits _ _ h | stage _ _ _ h | tblClear _ _ _ h | tblAdd _ _ _ _ _ _ _ _ h
  | tblRead _ _ _ h | encStart _ _ _ h | decStart _ _ _ h | decFinish _ _ _ _ h => exact .inl (h ▸ he)
  | pop _ h => exact .inl (by rw [h, popOutput_frame]; exact he)
  | encFlush _ _ _ _ hu h => exact .inl (by rw [h, flushAcc_frame hu]; exact he)
  | encoded _ _ _ _ _ _ _ _ hu h => exact .inl (by rw [h, appendBits_go hu]; exact he)
  | decoded _ _ _ _ _ _ hu _ => exact .inl ((decBitLoop_go_frame hu).err_eq.trans he)
  | raised _ _ _ _ hw h => exact .inr (h ▸ hw)
  | truncated _ _ _ _ hi _ _ _ _ h | noChild _ _ _ _ _ hi _ _ h => exact .inr (.inr (h ▸ hi.encode_eq))

/-! ### STATUS and CURSOR (R26, R38) -/

/-- R38: the fields of CURSOR do not overlap. -/
theorem cursorWord_fields (s : State) :
    (cursorWord s).extractLsb' 0 8 = BitVec.ofNat 8 s.cur.length ∧
    (cursorWord s).extractLsb' 8 3 = BitVec.ofNat 3 s.acc.length ∧
    (cursorWord s).extractLsb' 11 5 = 0#5 ∧
    (cursorWord s).extractLsb' 16 8 = pad8 s.acc ∧
    (cursorWord s).extractLsb' 24 8 = 0#8 := by
  simp (disch := omega) [cursorWord, BitVec.extractLsb'_or, extractLsb'_field_same, extractLsb'_field_other]

/-- R26: the fields of STATUS do not overlap. -/
theorem statusWord_fields (s : State) :
    (statusWord s).extractLsb' 0 4 = errCode s.err ∧
    (statusWord s).extractLsb' 4 2 = modeCode s.mode ∧
    (statusWord s).extractLsb' 6 1 = BitVec.ofBool (inRdy s) ∧
    (statusWord s).extractLsb' 7 1 = BitVec.ofBool (outAvail s) ∧
    (statusWord s).extractLsb' 8 7 = BitVec.ofNat 7 (outqLevel s) ∧
    (statusWord s).extractLsb' 15 1 = BitVec.ofBool (decEnd s) ∧
    (statusWord s).extractLsb' 16 1 = BitVec.ofBool (irq s) ∧
    (statusWord s).extractLsb' 17 15 = 0#15 := by
  simp (disch := omega) [statusWord, BitVec.extractLsb'_or, extractLsb'_field_same, extractLsb'_field_other]

/-- R26: DEC_END. -/
theorem decEnd_eq (s : State) : decEnd s = decide (s.mode = .dec ∧ s.decRem = 0 ∧ s.err = none) := by
  rw [Bool.eq_iff_iff]
  simp [decEnd, and_assoc]

/-! ### IN_RDY (R27) -/

theorem inRdy_of_idle {s : State} (hm : s.mode = .idle) : inRdy s = false := by simp [inRdy, hm]

theorem inRdy_of_enc {s : State} (he : s.err = none) (hm : s.mode = .enc) :
    inRdy s = hasRoom Config.encRoom s := by
  simp [inRdy, he, hm]

theorem inRdy_of_dec {s : State} (he : s.err = none) (hm : s.mode = .dec) :
    inRdy s = (s.decRem != 0 && hasRoom Config.decRoom s) := by
  simp [inRdy, he, hm]

/-- R27: IN_RDY, condition by condition. -/
theorem inRdy_iff {s : State} (hd : s.cfg.InRange) :
    inRdy s = true ↔ s.err = none ∧
      ((s.mode = .enc ∧ outqLevel s ≤ s.cfg.outDepth - 33) ∨
        (s.mode = .dec ∧ s.decRem ≠ 0 ∧ outqLevel s ≤ s.cfg.outDepth - 8)) := by
  have henc : hasRoom Config.encRoom s = true ↔ outqLevel s ≤ s.cfg.outDepth - 33 :=
    hasRoom_iff.trans (Nat.le_sub_iff_add_le hd.1).symm
  have hdec : hasRoom Config.decRoom s = true ↔ outqLevel s ≤ s.cfg.outDepth - 8 :=
    hasRoom_iff.trans (Nat.le_sub_iff_add_le ((by decide : 8 ≤ 33).trans hd.1)).symm
  rw [← henc, ← hdec]
  simp [inRdy, and_assoc]

/-- R27, R113: an encode step raises SEQ or OVERRUN exactly when IN_RDY was 0. -/
theorem encodeStep_notReady_iff {v : Word} {s t : State} (he : s.err = none) (hm : s.mode = .enc)
    (h : encodeStep v s = .next t) : inRdy s = false ↔ t.err = some .seq ∨ t.err = some .overrun := by
  rw [inRdy_of_enc he hm]
  rcases encodeStep_next h with ⟨hr, rfl⟩ | ⟨hr, -, rfl⟩ | ⟨hr, c, u, -, hu, rfl⟩
  · simp [hr]
  · simp [hr]
  · have hu' : u.err = none := by rw [appendBits_go hu]; exact he
    simp [hr, hu']

/-- R27, R133: a decode step raises SEQ or OVERRUN exactly when IN_RDY was 0. -/
theorem decodeStep_notReady_iff {v : Word} {s t : State} (he : s.err = none) (hm : s.mode = .dec)
    (h : decodeStep v s = .next t) : inRdy s = false ↔ t.err = some .seq ∨ t.err = some .overrun := by
  rw [inRdy_of_dec he hm]
  rcases decodeStep_next h with ⟨h0, rfl⟩ | ⟨-, hr, rfl⟩ | ⟨h0, hr, ⟨u, hu, -, -, rfl⟩ | ⟨hu, -⟩ | hu⟩
  · simp [h0]
  · simp [hr]
  · simpa [hr] using h0
  · simpa [hr, (decBitLoop_go_frame hu).err_eq, he] using h0
  · obtain ⟨pre, u, -, -, rfl⟩ := decBitLoop_raised hu
    simpa [hr] using h0

/-! ### TBL_COUNT (R36) -/

theorem mem_symbols (b : Byte) : b ∈ HostRef.symbols :=
  List.mem_map.mpr ⟨b.toNat, List.mem_range.mpr b.isLt, by simp⟩

theorem symbols_length : HostRef.symbols.length = 256 := by simp [HostRef.symbols]

theorem symbols_nodup : HostRef.symbols.Nodup := by
  refine List.Nodup.map_on (fun x hx y hy hxy => ?_) List.nodup_range
  rw [List.mem_range] at hx hy
  simpa only [toNat_ofNat_of_lt (n := 8) hx, toNat_ofNat_of_lt (n := 8) hy] using congrArg BitVec.toNat hxy

/-- R40: the symbols of a table in canonical form differ. -/
theorem Table.wf.symbols_nodup {t : Table} (h : Table.wf t) : (t.map Prod.fst).Nodup :=
  List.pairwise_map.mpr (h.imp BitVec.ne_of_lt)

/-- R40: a symbol has a valid entry exactly when it is listed. -/
theorem tableGet_isSome_iff {t : Table} {sym : Byte} : (tableGet t sym).isSome ↔ sym ∈ t.map Prod.fst := by
  rw [Option.isSome_iff_ne_none, ne_eq, tableGet_eq_none]
  simp

/-- R36, R40: the symbols with a valid entry are those a table in canonical form lists. -/
theorem tblCount_eq {t : Table} (h : Table.wf t) :
    tblCount t = (HostRef.symbols.filter fun sym => (tableGet t sym).isSome).length := by
  have hperm : (t.map Prod.fst).Perm (HostRef.symbols.filter fun sym => (tableGet t sym).isSome) :=
    (List.perm_ext_iff_of_nodup h.symbols_nodup (Machine.symbols_nodup.filter _)).mpr fun sym => by
      simp [List.mem_filter, mem_symbols, tableGet_isSome_iff]
  rw [← hperm.length_eq, List.length_map, tblCount]

/-! ### The bit count of a decode stream (R33, R35) -/

/-- R33, R35: each bit consumed moves one from DEC_REM to BITCNT, at most 8 of them. -/
def ConservesBits (s t : State) : Prop :=
  t.bitcnt + t.decRem = s.bitcnt + s.decRem ∧ t.decRem.toNat ≤ s.decRem.toNat ∧ s.decRem.toNat ≤ t.decRem.toNat + 8

theorem ConservesBits.refl (s : State) : ConservesBits s s := ⟨rfl, Nat.le_refl _, Nat.le_add_right _ _⟩

/-- R204: error entry keeps BITCNT and DEC_REM. -/
theorem ConservesBits.raise {s t : State} (h : ConservesBits s t) (e : Cause) (w : Word) :
    ConservesBits s (raise e w t) := h

/-- R133, R134: a walk over at most min(8, DEC_REM) bits. -/
theorem WalkFrame.conservesBits {n : Nat} {s t : State} (h : WalkFrame n s t) (hn : n ≤ min 8 s.decRem.toNat) :
    ConservesBits s t := by
  have hlt := s.decRem.isLt
  have hrem : t.decRem.toNat = s.decRem.toNat - n := by
    rw [h.decRem_eq, BitVec.toNat_sub_of_le (by rw [BitVec.le_def, BitVec.toNat_ofNat]; omega), BitVec.toNat_ofNat]
    omega
  refine ⟨?_, by omega, by omega⟩
  rw [h.bitcnt_eq, h.decRem_eq, BitVec.add_assoc, BitVec.add_comm (BitVec.ofNat 32 n), BitVec.sub_add_cancel]

/-- R133: a decode step conserves the bit count, however it ends. -/
theorem decodeStep_conservesBits {v : Word} {s t : State} (h : decodeStep v s = .next t) : ConservesBits s t := by
  have hn := consumedBits_length v s
  rcases decodeStep_next h with ⟨-, rfl⟩ | ⟨-, -, rfl⟩ | ⟨-, -, ⟨u, hu, -, -, rfl⟩ | ⟨hu, -⟩ | hu⟩
  · exact (ConservesBits.refl s).raise _ _
  · exact (ConservesBits.refl s).raise _ _
  · exact ((decBitLoop_go_frame hu).conservesBits hn.le).raise _ _
  · exact (decBitLoop_go_frame hu).conservesBits hn.le
  · obtain ⟨pre, u, hpre, hwalk, rfl⟩ := decBitLoop_raised hu
    exact ((decBitLoop_go_frame hwalk).conservesBits (hpre.trans_eq hn).le).raise _ _

end Machine

open Machine

/-! ### The statements -/

/-- Settles O53: the reset state is what reset makes of itself. -/
theorem resetStateMeetsTheInvariant : Obligations.ResetStateMeetsTheInvariant :=
  resetEngine_inv (s := State.reset) (by decide)

/-- Settles O54: a step with nothing pending changes nothing, and each event keeps the invariant. -/
theorem everyStepKeepsTheInvariant : Obligations.EveryStepKeepsTheInvariant := by
  intro s t hs h
  cases hp : s.pending with
  | nil =>
    rw [step_of_pending_nil hp] at h
    cases h; exact hs
  | cons e rest =>
    rw [step_of_pending_cons hp] at h
    have hs' : Inv { s with pending := rest } := { hs with }
    exact performEvent_inv hs' h

/-- Settles O46: an access is the one that encodes its operation, and an illegal command word records itself. -/
theorem errorInfoIsTheWordWritten : Obligations.ErrorInfoIsTheWordWritten := by
  intro a s t he h hne
  rcases performAccess_next h with ⟨i, hd, heff⟩ | rfl | ⟨-, w, ha, rfl⟩
  · rw [← encode_of_decode hd]
    exact (heff.err_none_or_recorded he).resolve_left hne
  · exact absurd he hne
  · exact .inl ha

/-- Settles O49: error entry keeps MODE, and of the operations only those of R22 change it. -/
theorem modeChangesOnlyAsListed : Obligations.ModeChangesOnlyAsListed := by
  refine ⟨fun e s t h hne => ?_, rfl⟩
  cases e with
  | resetAssert => cases h; exact .inl ⟨.inl rfl, rfl⟩
  | resetRelease => cases h; exact .inl ⟨.inr rfl, rfl⟩
  | access a =>
    rcases performAccess_next h with ⟨i, hd, heff⟩ | rfl | ⟨-, w, -, rfl⟩
    · exact .inr ⟨a, i, rfl, hd, heff.modeChange hne⟩
    · exact absurd rfl hne
    · exact absurd rfl hne

/-- Settles O50: error entry keeps T, and of the operations only TBL_CLEAR and TBL_ADD change it. -/
theorem tableChangesOnlyInIdle : Obligations.TableChangesOnlyInIdle := by
  intro e s t h hne
  cases e with
  | resetAssert => exact .inl rfl
  | resetRelease => exact .inr (.inl rfl)
  | access a =>
    rcases performAccess_next h with ⟨i, hd, heff⟩ | rfl | ⟨-, w, -, rfl⟩
    · obtain ⟨hm, he, hi⟩ := heff.tableChange hne
      exact .inr (.inr ⟨hm, he, a, i, rfl, hd, hi⟩)
    · exact absurd rfl hne
    · exact absurd rfl hne

/-- Settles O51: each register is written in the cases of `SettingsChange` that name it, and kept in the others. -/
theorem configurationRegisterWriters : Obligations.ConfigurationRegisterWriters := by
  intro i s t h
  have hchange := (exec_effect h).settingsChange
  refine ⟨fun hne => ?_, fun hne => ?_, fun hne => ?_, fun hne => ?_⟩
  · cases hchange with
    | tblClear _ _ hi _ => exact .inl hi
    | tblRead sym hi _ => exact .inr ⟨sym, hi⟩
    | same h | mode _ h | tblAdd _ _ _ _ _ h | cw _ _ _ h | ctrl _ _ h | decBits _ _ h =>
      exact absurd (congrArg Settings.tblInfo h) hne
  · cases hchange with
    | tblRead sym hi _ => exact .inl ⟨sym, hi⟩
    | cw k v hi _ => exact .inr ⟨k, v, hi⟩
    | same h | mode _ h | tblClear _ _ _ h | tblAdd _ _ _ _ _ h | ctrl _ _ h | decBits _ _ h =>
      exact absurd (congrArg Settings.cw h) hne
  · cases hchange with
    | ctrl v hi _ => exact ⟨v, hi⟩
    | same h | mode _ h | tblClear _ _ _ h | tblAdd _ _ _ _ _ h | tblRead _ _ h | cw _ _ _ h | decBits _ _ h =>
      exact absurd (congrArg Settings.enables h) hne
  · cases hchange with
    | decBits v hi _ => exact ⟨v, hi⟩
    | same h | mode _ h | tblClear _ _ _ h | tblAdd _ _ _ _ _ h | tblRead _ _ h | cw _ _ _ h | ctrl _ _ h =>
      exact absurd (congrArg Settings.decBits h) hne

/-- Settles O17: reserved offsets name reserved words, and no RO register takes a write. -/
theorem reservedOffsetsReadZeroAndIgnoreWrites : Obligations.ReservedOffsetsReadZeroAndIgnoreWrites := by
  intro s off v hr hal
  refine ⟨fun hoff => ?_, fun hoff => ?_, fun hoff => ?_⟩
  · have hreg := regOfOffset_reserved off hal hoff
    exact ⟨by rw [performAccess_read hr hal, hreg]; rfl, performAccess_write_ignored hr hal (by rw [hreg]; rfl)⟩
  · rw [performAccess_read hr hal]
    rcases hoff with rfl | rfl <;> rfl
  · have hro : ∀ off ∈ [0x00#8, 0x08#8, 0x14#8, 0x1C#8, 0x20#8, 0x24#8, 0x28#8, 0x2C#8, 0x30#8, 0x34#8],
        (regOfOffset off).writeIgnored = true := by decide
    exact performAccess_write_ignored hr hal (hro off hoff)

/-- Settles O19: IN_RDY by mode, and the ways a data write ends in each. -/
theorem inputReadySaysWhetherADataWriteIsAccepted : Obligations.InputReadySaysWhetherADataWriteIsAccepted := by
  refine fun s hd => ⟨inRdy_iff hd, fun v t hr he h => ?_⟩
  rw [performAccess_dataIn hr] at h
  rcases dataWrite_next h with ⟨hne, -⟩ | ⟨-, hm, rfl⟩ | ⟨-, hm, h⟩ | ⟨-, hm, h⟩
  · exact absurd he hne
  · simp [inRdy_of_idle hm]
  · exact encodeStep_notReady_iff he hm h
  · exact decodeStep_notReady_iff he hm h

/-- Settles O39: in DEC a data write is ignored or a decode step. -/
theorem decodeByteConservesTheBitCount : Obligations.DecodeByteConservesTheBitCount := by
  intro s t v hm h
  rcases dataWrite_next h with ⟨-, rfl⟩ | ⟨-, hidle, -⟩ | ⟨-, henc, -⟩ | ⟨-, -, h⟩
  · exact ConservesBits.refl t
  · exact absurd (hm.symm.trans hidle) (by decide)
  · exact absurd (hm.symm.trans henc) (by decide)
  · exact decodeStep_conservesBits h

/-- Settles O18: the fields of STATUS, each read at its place. -/
theorem statusFields : Obligations.StatusFields := by
  refine ⟨by decide, fun s hlevel => ?_⟩
  obtain ⟨herr, hmode, hinRdy, houtAvail, hoLevel, hdecEnd, hirq, hzero⟩ := statusWord_fields s
  refine ⟨herr.trans ?_, hmode.trans ?_, getLsbD_of_extractLsb' hinRdy, getLsbD_of_extractLsb' houtAvail, ?_,
    (getLsbD_of_extractLsb' hdecEnd).trans (decEnd_eq s), getLsbD_of_extractLsb' hirq, hzero⟩
  · rcases s.err with _ | c
    · rfl
    · cases c <;> rfl
  · cases s.mode <;> rfl
  · exact (congrArg BitVec.toNat hoLevel).trans (toNat_ofNat_of_lt (by omega))

/-- Settles O20: the fields of CURSOR, each read at its place. -/
theorem cursorFields : Obligations.CursorFields := by
  intro s hcur hacc
  obtain ⟨hcurLen, haccLen, hzero, hbyte, hzero'⟩ := cursorWord_fields s
  exact ⟨(congrArg BitVec.toNat hcurLen).trans (toNat_ofNat_of_lt (by omega)),
    (congrArg BitVec.toNat haccLen).trans (toNat_ofNat_of_lt (by omega)), hzero, hbyte, hzero'⟩

/-- Settles O21: a table in canonical form lists each symbol with a valid entry once. -/
theorem tableCountCountsValidEntries : Obligations.TableCountCountsValidEntries := by
  intro s hw
  have hle : tblCount s.table ≤ 256 := by
    rw [tblCount_eq hw, ← symbols_length]
    exact List.length_filter_le ..
  have hread : (readReg .tblCount s).toNat = tblCount s.table := toNat_ofNat_of_lt (by omega)
  rw [hread]
  exact ⟨tblCount_eq hw, hle⟩

end Sys2Proof
end

/-! PROOFS. The statements of spec/20_memory.md: which accesses are refused, the layout of a packed payload, what an
operation may do to the host's side of the bus, and that from a state that meets the invariant no operation faults. -/

namespace Sys2Proof

/-! ### Accesses inside and outside the interface (R51) -/

/-- R51: an access of another width gives no operation, whatever its offset. -/
theorem decode_of_size_ne {m : Mode} {a : Access} (h : a.size ≠ 4) : decode m a = .error .accessSize := if_pos h

/-- R51: a word access at an offset that is not a multiple of 4 gives no operation. -/
theorem decode_of_misaligned {m : Mode} {a : Access} (hsz : a.size = 4) (h : a.off.toNat % 4 ≠ 0) :
    decode m a = .error .misaligned := by
  have hlow : a.off.extractLsb' 0 2 ≠ 0#2 := fun h0 => h (by simpa using congrArg BitVec.toNat h0)
  unfold decode
  rw [if_neg (not_not.mpr hsz), if_pos hlow]

/-- R50, R51: an access inside the interface reads or writes a register of the window. -/
theorem access_inside {a : Access} (hsz : a.size = 4) (hal : a.off.toNat % 4 = 0) :
    ∃ r, r.wellFormed = true ∧ (a = readOf r ∨ ∃ v, a = writeOf r v) := by
  have hoff := regOffset_regOfOffset_of_mod hal
  refine ⟨regOfOffset a.off, regOfOffset_wellFormed _, ?_⟩
  cases a with
  | read off size => exact .inl (by rw [readOf, hoff, ← hsz]; rfl)
  | write off size v => exact .inr ⟨v, by rw [writeOf, hoff, ← hsz]; rfl⟩

/-- R51, R73: inside the interface only an illegal command word gives no operation. -/
theorem decode_error_inside {m : Mode} {a : Access} {e : DecodeReject} (hsz : a.size = 4) (hal : a.off.toNat % 4 = 0)
    (h : decode m a = .error e) : ∃ w, e = .illegalCommand w := by
  obtain ⟨r, hr, rfl | ⟨v, rfl⟩⟩ := access_inside hsz hal
  · rw [decode_readOf hr] at h; cases h
  · rw [decode_writeOf hr] at h
    obtain ⟨-, -, he⟩ := decodeWrite_error h
    exact ⟨v, he⟩

namespace Machine

/-- R51, R73: outside reset an access that gives no operation is answered by the reason. -/
theorem performAccess_of_error {s : State} {a : Access} {e : DecodeReject} (hr : s.rstAsserted = false)
    (hd : decode s.mode a = .error e) : performAccess a s = rejected e s := by
  unfold performAccess
  rw [if_neg (by simp [hr]), hd]

/-! ### The layout of packed bytes (R55) -/

/-- R55: bit 7 - k of byte j is bit 8j + k of the stream. -/
theorem unpack_getD {bytes : List Byte} {j k : Nat} {b : Byte} (hb : bytes[j]? = some b) (hk : k < 8) :
    (unpack bytes).getD (8 * j + k) false = b.getLsbD (7 - k) := by
  induction bytes generalizing j with
  | nil => simp at hb
  | cons x xs ih =>
    rw [show unpack (x :: xs) = byteBits x ++ unpack xs from List.flatMap_cons]
    cases j with
    | zero =>
      obtain rfl : x = b := by simpa using hb
      rw [Nat.mul_zero, Nat.zero_add, List.getD_append _ _ _ _ (by simpa using hk), byteBits_getD _ _ hk]
      simp [BitVec.getMsbD, hk]
    | succ j =>
      rw [List.getD_append_right _ _ _ _ (by simp; omega), byteBits_length,
        show 8 * (j + 1) + k - 8 = 8 * j + k by omega]
      exact ih (by simpa using hb)

/-- The pad bits 0 after a payload read as the bits past its end. -/
theorem getD_append_pad (p : Bits) (n i : Nat) : (p ++ List.replicate n false).getD i false = p.getD i false := by
  by_cases hi : i < p.length
  · rw [List.getD_append _ _ _ _ hi]
  · have hle : p.length ≤ i := by omega
    rw [List.getD_append_right _ _ _ _ hle, List.getD_eq_default _ _ hle, List.getD_eq_getElem?_getD,
      List.getElem?_getD_replicate_default_eq]

/-! ### The host's side of the bus (R54, R59) -/

/-- The part of the state that no engine register holds: OUT_DEPTH, the events to come, the reset input and the
values received (assumptions 1 to 4). -/
structure HostSide where
  cfg : Config
  pending : List HostEvent
  rstAsserted : Bool
  returned : List Word

/-- The host's side of a state. -/
def State.hostSide (s : State) : HostSide where
  cfg := s.cfg
  pending := s.pending
  rstAsserted := s.rstAsserted
  returned := s.returned

/-- R133: a walk over bits keeps the host's side. -/
theorem WalkFrame.hostSide_eq {n : Nat} {s t : State} (h : WalkFrame n s t) : t.hostSide = s.hostSide := by
  rw [h]; rfl

/-- R31, R156: of the host's side, a read of DATA_OUT changes only the values received, by the one it returns. -/
theorem popOutput_hostSide (s : State) :
    ∃ w, (popOutput s).hostSide = { s.hostSide with returned := s.returned ++ [w] } := by
  obtain ⟨w, hw, -⟩ := popOutput_word s
  exact ⟨w, by rw [popOutput_frame, hw]; rfl⟩

/-- R54, R59: an operation keeps the host's side, but for the one value that a read returns. -/
theorem Effect.hostSide {i : Instr} {s t : State} (h : Effect i s t) :
    t.hostSide = s.hostSide ∨
      ((i = .outPop ∨ ∃ r, i = .regRd r) ∧
        ∃ w, t.hostSide = { s.hostSide with returned := s.returned ++ [w] }) := by
  cases h with
  | pop hi h => exact .inr ⟨hi.imp_right fun hi => ⟨_, hi⟩, h ▸ popOutput_hostSide s⟩
  | read r hi h => exact .inr ⟨.inr ⟨r, hi⟩, readReg r s, h ▸ rfl⟩
  | ignored h => exact .inl (h ▸ rfl)
  | abort _ h | ctrl _ _ h | decBits _ _ h | stage _ _ _ h | raised _ _ _ _ _ h | tblClear _ _ _ h
  | tblAdd _ _ _ _ _ _ _ _ h | tblRead _ _ _ h | encStart _ _ _ h | decStart _ _ _ h | decFinish _ _ _ _ h =>
    exact .inl (h ▸ rfl)
  | encFlush u _ _ _ hu h => exact .inl (by rw [h, flushAcc_frame hu]; rfl)
  | encoded _ _ _ _ _ _ _ _ hu h => exact .inl (by rw [h, appendBits_go hu]; rfl)
  | decoded _ _ _ _ _ _ hu _ => exact .inl (decBitLoop_go_frame hu).hostSide_eq
  | truncated _ _ _ _ _ _ _ hu _ h | noChild _ _ _ _ _ _ _ hu h =>
    exact .inl (h ▸ (decBitLoop_go_frame hu).hostSide_eq)

/-! ### No operation faults (R56, R114, R132) -/

/-- A checked operation completes where its body does. -/
theorem unlessError_completes {s : State} {o : Outcome} (h : s.err = none → Completes o) :
    Completes (unlessError s o) := by
  by_cases he : s.err = none
  · rw [unlessError_of_noError he]
    exact h he
  · exact ⟨s, unlessError_of_error he o⟩

theorem requireMode_completes {s : State} {m : Mode} {w : Word} {o : Outcome} (h : s.mode = m → Completes o) :
    Completes (requireMode m w s o) := by
  by_cases hm : s.mode = m
  · rw [requireMode_of_eq hm]
    exact h hm
  · exact ⟨_, requireMode_of_ne hm w o⟩

/-- An operation whose steps do not fault completes, whether they go on or raise. -/
theorem outcome_completes {f : Flow} (h : ∀ e, f ≠ .fault e) : Completes f.outcome := by
  cases f with
  | go t | raised t => exact ⟨t, rfl⟩
  | fault e => exact absurd rfl (h e)

/-- R112, R114: with ENC_ROOM free bytes no codeword of the table fills the FIFO. -/
theorem encodeStep_completes {s : State} (hs : Inv s) (v : Word) : Completes (encodeStep v s) := by
  unfold encodeStep
  split
  · exact ⟨_, rfl⟩
  · next hroom =>
    split
    · exact ⟨_, rfl⟩
    · next c hg =>
      have hlen : c.length ≤ Config.codeLenMax := (hs.table.lengths _ (mem_of_tableGet hg)).2
      have hacc := hs.accLen
      have hfree := hasRoom_iff.mp (not_not.mp hroom)
      simp only [Config.encRoom, Config.codeLenMax] at hfree hlen
      rw [appendBits_eq c s hacc (by omega)]
      exact ⟨_, rfl⟩

/-- R114, R115: in an encode stream the byte that stays free takes the push of ENC_FLUSH. -/
theorem flushAcc_completes {s : State} (hr : s.outq.length < s.cfg.outDepth) : ∃ t, flushAcc s = .go t := by
  unfold flushAcc
  split
  · exact ⟨s, rfl⟩
  · rw [fifoPush_of_room hr]
    exact ⟨_, rfl⟩

/-- R134: one step of the walk pushes at most one byte. -/
theorem decBit_outq_length {b : Bool} {v : Word} {s t : State} (h : decBit b v s = .go t) :
    t.outq.length ≤ s.outq.length + 1 := by
  rcases decBit_go h with ⟨sym, -, -, rfl⟩ | ⟨-, -, rfl⟩ <;> simp

theorem decBit_ne_fault {b : Bool} {v : Word} {s : State} (hr : s.outq.length < s.cfg.outDepth) (f : Fault) :
    decBit b v s ≠ .fault f := by
  cases hl : tableLeaf s.table (s.cur ++ [b]) with
  | some sym => simp [decBit_leaf hl hr]
  | none =>
    cases hi : tableInner s.table (s.cur ++ [b]) with
    | true => simp [decBit_inner hl hi]
    | false => simp [decBit_missing hl hi]

/-- R132, R133: a walk with a free byte for each of its bits does not fault. -/
theorem decBitLoop_ne_fault {v : Word} {bs : Bits} {s : State} (hr : s.outq.length + bs.length ≤ s.cfg.outDepth)
    (f : Fault) : decBitLoop v bs s ≠ .fault f := by
  induction bs generalizing s with
  | nil => nofun
  | cons b bs ih =>
    rw [List.length_cons] at hr
    intro h
    rcases bind_eq_fault h with h | ⟨u, hu, h⟩
    · exact decBit_ne_fault (by omega) f h
    · have hpush := decBit_outq_length hu
      exact ih (by rw [(decBit_go_frame hu).cfg_eq]; omega) h

/-- R132: DEC_ROOM is a byte for each bit that a data write consumes. -/
theorem decodeStep_completes (v : Word) (s : State) : Completes (decodeStep v s) := by
  unfold decodeStep
  split
  · exact ⟨_, rfl⟩
  · split
    · exact ⟨_, rfl⟩
    · next hroom =>
      have hfree := hasRoom_iff.mp (not_not.mp hroom)
      have hbits := consumedBits_length v s
      simp only [Config.decRoom] at hfree
      refine outcome_completes fun f hf => ?_
      rcases bind_eq_fault hf with hf | ⟨u, -, hf⟩
      · exact decBitLoop_ne_fault (by omega) f hf
      · unfold endCheck at hf
        split at hf <;> cases hf

/-- R159: a data write completes in every mode. -/
theorem dataWrite_completes {s : State} (hs : Inv s) (v : Word) : Completes (dataWrite v s) := by
  refine unlessError_completes fun _ => ?_
  cases s.mode with
  | idle => exact ⟨_, rfl⟩
  | enc => exact encodeStep_completes hs v
  | dec => exact decodeStep_completes v s

theorem execEncFlush_completes {s : State} (hs : Inv s) : Completes (execEncFlush s) := by
  refine unlessError_completes fun _ => requireMode_completes fun hm => ?_
  obtain ⟨t, ht⟩ := flushAcc_completes (hs.flushRoom hm)
  rw [ht]
  exact ⟨_, rfl⟩

/-- R53: from a state that meets the invariant every operation completes. -/
theorem exec_completes {s : State} (hs : Inv s) (i : Instr) : Completes (exec i s) := by
  cases i with
  | nop | abort | outPop | ctrlWr | decBitsWr | cwWr | regRd | regWi => exact ⟨_, rfl⟩
  | tblRead => exact unlessError_completes fun _ => ⟨_, rfl⟩
  | tblClear | tblAdd | encStart | decStart | decFinish =>
    exact unlessError_completes fun _ => requireMode_completes fun _ => ⟨_, rfl⟩
  | encFlush => exact execEncFlush_completes hs
  | encByte v | decByte v | dinIdle v => exact dataWrite_completes hs v

/-- R152: an illegal command word raises or is ignored. -/
theorem illegalCommand_completes (w : Word) (s : State) : Completes (illegalCommand w s) :=
  unlessError_completes fun _ => ⟨_, rfl⟩

/-- R53: an access inside the interface completes. -/
theorem performAccess_completes {s : State} {a : Access} (hs : Inv s) (hr : s.rstAsserted = false)
    (hsz : a.size = 4) (hal : a.off.toNat % 4 = 0) : Completes (performAccess a s) := by
  cases hd : decode s.mode a with
  | ok i => exact performAccess_of_ok hr hd ▸ exec_completes hs i
  | error e =>
    obtain ⟨w, rfl⟩ := decode_error_inside hsz hal hd
    exact performAccess_of_error hr hd ▸ illegalCommand_completes w s

theorem Completes.ne_fault {o : Outcome} (h : Completes o) (f : Fault) : o ≠ .fault f := by
  obtain ⟨t, rfl⟩ := h
  nofun

/-- R51, R152: a rejected access is refused, raises or is ignored. -/
theorem rejected_ne_fault (e : DecodeReject) (s : State) (f : Fault) : rejected e s ≠ .fault f := by
  cases e with
  | accessSize | misaligned => nofun
  | illegalCommand w => exact (illegalCommand_completes w s).ne_fault f

/-- R56: from a state that meets the invariant no event pushes into a full FIFO. -/
theorem performEvent_ne_fault {s : State} (hs : Inv s) (e : HostEvent) (f : Fault) : performEvent e s ≠ .fault f := by
  cases e with
  | resetAssert | resetRelease => nofun
  | access a =>
    change performAccess a s ≠ .fault f
    rcases performAccess_cases a s with ⟨-, hp⟩ | ⟨-, i, -, hp⟩ | ⟨-, e, -, hp⟩
    · rw [hp]; nofun
    · exact hp ▸ (exec_completes hs i).ne_fault f
    · exact hp ▸ rejected_ne_fault e s f

end Machine

open Machine

/-! ### The statements -/

/-- Settles O7: the decoder rejects the width first and then the offset, each by its name. -/
theorem otherAccessesAreRefused : Obligations.OtherAccessesAreRefused :=
  fun _ _ hr => ⟨fun hsz => performAccess_of_error hr (decode_of_size_ne hsz),
    fun hsz hal => performAccess_of_error hr (decode_of_misaligned hsz hal)⟩

/-- Settles O33: the packed bytes hold the payload's bits in stream order, then the pad bits. -/
theorem packedPayloadLayout : Obligations.PackedPayloadLayout := by
  refine fun p => ⟨pack_length p, fun j b hb k hk => ?_⟩
  rw [← unpack_getD hb hk, unpack_pack, getD_append_pad]

/-- Settles O52: the fields of the host's side, in the two cases of what an operation does to it. -/
theorem operationsKeepTheInterface : Obligations.OperationsKeepTheInterface := by
  intro i s t h
  rcases (exec_effect h).hostSide with hside | ⟨hi, w, hside⟩
  · exact ⟨congrArg HostSide.cfg hside, congrArg HostSide.pending hside, congrArg HostSide.rstAsserted hside,
      .inl (congrArg HostSide.returned hside)⟩
  · exact ⟨congrArg HostSide.cfg hside, congrArg HostSide.pending hside, congrArg HostSide.rstAsserted hside,
      .inr ⟨hi, w, congrArg HostSide.returned hside⟩⟩

/-- Settles O55: with nothing pending a step answers its own state, and under the invariant no event faults. -/
theorem noPushFindsTheFifoFull : Obligations.NoPushFindsTheFifoFull := by
  refine ⟨fun s f hs => ?_, fun s b hfull => fifoPush_of_full hfull b⟩
  cases hp : s.pending with
  | nil => rw [step_of_pending_nil hp]; nofun
  | cons e rest =>
    rw [step_of_pending_cons hp]
    have hs' : Inv { s with pending := rest } := { hs with }
    exact performEvent_ne_fault hs' e f

/-- Settles O56: the checks raise, and where they pass the FIFO has room for every push. -/
theorem everyOperationCompletes : Obligations.EveryOperationCompletes := by
  refine ⟨fun s i hs => exec_completes hs i, fun s a rest hs hp hr hsz hal => ?_⟩
  rw [step_of_pending_cons hp]
  have hs' : Inv { s with pending := rest } := { hs with }
  exact performAccess_completes hs' hr hsz hal

end Sys2Proof

/-! PROOFS. The statements of spec/30_encoding.md: the decoder and the encoder invert each other, the patterns of the
command words, and what an illegal command word does. -/

namespace Sys2Proof

/-! ### The commands and their words (R70, R72, R73) -/

/-- R72: the commands without operands. -/
def plainCommands : List Instr := [.nop, .abort, .tblClear, .encStart, .encFlush, .decStart, .decFinish]

/-- R73: which operations are commands. -/
theorem command_of_decodeCmd {w : Word} {i : Instr} (h : decodeCmd w = some i) :
    i ∈ plainCommands ∨ (∃ sym len, i = .tblAdd sym len) ∨ ∃ sym, i = .tblRead sym := by
  obtain ⟨-, ⟨-, rfl⟩ | ⟨-, -, rfl⟩ | ⟨-, -, hplain⟩⟩ := decodeCmd_cases h
  · exact .inr (.inl ⟨_, _, rfl⟩)
  · exact .inr (.inr ⟨_, rfl⟩)
  · left
    rcases hplain with ⟨-, rfl⟩ | ⟨-, rfl⟩ | ⟨-, rfl⟩ | ⟨-, rfl⟩ | ⟨-, rfl⟩ | ⟨-, rfl⟩ | ⟨-, rfl⟩ <;> decide

/-- R72: a command has one word. The hypothesis says that `i` is a command: it has a word that decodes to it. -/
theorem decodeCmd_eq_some_iff {i : Instr} (hi : decodeCmd (cmdWord i) = some i) (w : Word) :
    decodeCmd w = some i ↔ w = cmdWord i := by
  constructor
  · intro h
    have hacc : writeOf .cmd w = writeOf .cmd (cmdWord i) := (encode_of_decodeCmd h).symm.trans (encode_of_decodeCmd hi)
    exact (Access.write.inj hacc).2.2
  · rintro rfl
    exact hi

/-- R72: the exact words are those of the commands without operands. -/
theorem mem_map_cmdWord_iff (w : Word) :
    w ∈ plainCommands.map cmdWord ↔ ∃ i ∈ plainCommands, decodeCmd w = some i := by
  have hround : ∀ i ∈ plainCommands, decodeCmd (cmdWord i) = some i := by decide
  rw [List.mem_map]
  exact exists_congr fun i => and_congr_right fun hi => eq_comm.trans (decodeCmd_eq_some_iff (hround i hi) w).symm

/-- R70, R72: a word the encoder writes is given by its fields. -/
theorem eq_cmdFields_iff (w : Word) (opc sym len : Byte) :
    w = cmdFields opc sym len ↔ cmdOpc w = opc ∧ cmdSym w = sym ∧ cmdLen w = len ∧ cmdRsv w = 0 := by
  rw [word_eq_iff, cmdOpc_cmdFields, cmdSym_cmdFields, cmdLen_cmdFields, cmdRsv_cmdFields]

/-- R72: TBL_ADD's mask fixes OPC and RSV. -/
theorem tblAdd_mask_iff (w : Word) : w &&& 0xFF0000FF#32 = 0x00000011#32 ↔ cmdOpc w = 0x11#8 ∧ cmdRsv w = 0 := by
  rw [word_eq_iff, cmdOpc_and, cmdSym_and, cmdLen_and, cmdRsv_and]
  change cmdOpc w &&& BitVec.allOnes 8 = 0x11#8 ∧ cmdSym w &&& 0 = 0 ∧ cmdLen w &&& 0 = 0 ∧
    cmdRsv w &&& BitVec.allOnes 8 = 0 ↔ _
  simp only [BitVec.and_allOnes, BitVec.ofNat_eq_ofNat, BitVec.and_zero, true_and]

/-- R72: TBL_READ's mask fixes OPC, LEN and RSV. -/
theorem tblRead_mask_iff (w : Word) :
    w &&& 0xFFFF00FF#32 = 0x00000012#32 ↔ cmdOpc w = 0x12#8 ∧ cmdLen w = 0 ∧ cmdRsv w = 0 := by
  rw [word_eq_iff, cmdOpc_and, cmdSym_and, cmdLen_and, cmdRsv_and]
  change cmdOpc w &&& BitVec.allOnes 8 = 0x12#8 ∧ cmdSym w &&& 0 = 0 ∧ cmdLen w &&& BitVec.allOnes 8 = 0 ∧
    cmdRsv w &&& BitVec.allOnes 8 = 0 ↔ _
  simp only [BitVec.and_allOnes, BitVec.ofNat_eq_ofNat, BitVec.and_zero, true_and]

/-- R72: the words of TBL_ADD, with its operands SYM and LEN. -/
theorem decodeCmd_tblAdd_iff (w : Word) (sym len : Byte) :
    decodeCmd w = some (.tblAdd sym len) ↔ w &&& 0xFF0000FF#32 = 0x00000011#32 ∧ sym = cmdSym w ∧ len = cmdLen w := by
  rw [decodeCmd_eq_some_iff (by simp [cmdWord, decodeCmd_cmdFields]), cmdWord, eq_cmdFields_iff, tblAdd_mask_iff]
  tauto

/-- R72: the words of TBL_READ, with its operand SYM. -/
theorem decodeCmd_tblRead_iff (w : Word) (sym : Byte) :
    decodeCmd w = some (.tblRead sym) ↔ w &&& 0xFFFF00FF#32 = 0x00000012#32 ∧ sym = cmdSym w := by
  rw [decodeCmd_eq_some_iff (by simp [cmdWord, decodeCmd_cmdFields]), cmdWord, eq_cmdFields_iff, tblRead_mask_iff]
  tauto

/-- R73: the illegal words are those that are no exact word and match neither mask. -/
theorem decodeCmd_eq_none_iff (w : Word) :
    decodeCmd w = none ↔
      w ∉ plainCommands.map cmdWord ∧ w &&& 0xFF0000FF#32 ≠ 0x00000011#32 ∧ w &&& 0xFFFF00FF#32 ≠ 0x00000012#32 := by
  rw [Option.eq_none_iff_forall_ne_some, mem_map_cmdWord_iff]
  constructor
  · intro hno
    exact ⟨fun ⟨i, _, hd⟩ => hno i hd, fun hadd => hno _ ((decodeCmd_tblAdd_iff w _ _).mpr ⟨hadd, rfl, rfl⟩),
      fun hread => hno _ ((decodeCmd_tblRead_iff w _).mpr ⟨hread, rfl⟩)⟩
  · rintro ⟨hplain, hadd, hread⟩ i hd
    rcases command_of_decodeCmd hd with hi | ⟨sym, len, rfl⟩ | ⟨sym, rfl⟩
    · exact hplain ⟨i, hi, hd⟩
    · exact hadd ((decodeCmd_tblAdd_iff w sym len).mp hd).1
    · exact hread ((decodeCmd_tblRead_iff w sym).mp hd).1

/-! ### The operation an access decodes to (R77, R78) -/

/-- R51, R78: an access that decodes reads or writes a register of the window, and decodes by it. -/
theorem decode_ok {m : Mode} {a : Access} {i : Instr} (h : decode m a = .ok i) :
    ∃ r, r.wellFormed = true ∧
      ((a = readOf r ∧ i = decodeRead r) ∨ ∃ v, a = writeOf r v ∧ decodeWrite m r v = .ok i) := by
  have hsz : a.size = 4 := by
    by_contra hsz
    rw [decode_of_size_ne hsz] at h; cases h
  have hal : a.off.toNat % 4 = 0 := by
    by_contra hal
    rw [decode_of_misaligned hsz hal] at h; cases h
  obtain ⟨r, hr, rfl | ⟨v, rfl⟩⟩ := access_inside hsz hal
  · rw [decode_readOf hr] at h
    exact ⟨r, hr, .inl ⟨rfl, (Except.ok.inj h).symm⟩⟩
  · rw [decode_writeOf hr] at h
    exact ⟨r, hr, .inr ⟨v, rfl, h⟩⟩

/-- R72, R77: a command is an operation of the spec, in every mode. -/
theorem wellFormed_selectedIn_of_decodeCmd {w : Word} {i : Instr} (h : decodeCmd w = some i) (m : Mode) :
    i.wellFormed = true ∧ i.selectedIn m = true := by
  rcases command_of_decodeCmd h with hi | ⟨sym, len, rfl⟩ | ⟨sym, rfl⟩
  · have hplain : ∀ i ∈ plainCommands, i.wellFormed = true ∧ i.selectedIn m = true := by cases m <;> decide
    exact hplain i hi
  · exact ⟨rfl, rfl⟩
  · exact ⟨rfl, rfl⟩

/-- R77, R78: a read is an operation of the spec, in every mode. -/
theorem wellFormed_selectedIn_decodeRead {r : Reg} (hr : r.wellFormed = true) (m : Mode) :
    (decodeRead r).wellFormed = true ∧ (decodeRead r).selectedIn m = true := by
  by_cases hne : r = .dataOut
  · subst hne; exact ⟨rfl, rfl⟩
  · rw [decodeRead_of_ne hne]
    exact ⟨by simp [Instr.wellFormed, hr, hne], rfl⟩

/-- R77, R78: a write is an operation of the spec, and the mode selects it. -/
theorem wellFormed_selectedIn_of_decodeWrite {m : Mode} {r : Reg} {v : Word} {i : Instr} (hr : r.wellFormed = true)
    (h : decodeWrite m r v = .ok i) : i.wellFormed = true ∧ i.selectedIn m = true := by
  cases r with
  | cmd =>
    cases hd : decodeCmd v with
    | none => simp [decodeWrite, hd] at h
    | some j =>
      obtain rfl : j = i := by simpa [decodeWrite, hd] using h
      exact wellFormed_selectedIn_of_decodeCmd hd m
  | dataIn => cases m <;> cases h <;> exact ⟨rfl, rfl⟩
  | ctrl | decBits | cw => cases h; exact ⟨rfl, rfl⟩
  | _ => cases h; exact ⟨by simp [Instr.wellFormed, Reg.writeIgnored, hr], rfl⟩

/-- R77, R78: an access decodes only to operations of the spec that the mode selects. -/
theorem wellFormed_selectedIn_of_decode {m : Mode} {a : Access} {i : Instr} (h : decode m a = .ok i) :
    i.wellFormed = true ∧ i.selectedIn m = true := by
  obtain ⟨r, hr, ⟨-, rfl⟩ | ⟨v, -, hv⟩⟩ := decode_ok h
  · exact wellFormed_selectedIn_decodeRead hr m
  · exact wellFormed_selectedIn_of_decodeWrite hr hv

namespace Machine

/-- R73, R152: what the engine does with an illegal word written to CMD. -/
theorem performAccess_illegalCommand {s : State} {w : Word} (hr : s.rstAsserted = false) (h : decodeCmd w = none) :
    performAccess (writeOf .cmd w) s = illegalCommand w s :=
  performAccess_of_error (e := .illegalCommand w) hr (by rw [decode_writeOf rfl, decodeWrite, h])

end Machine

open Machine

/-! ### The statements -/

/-- Settles O1: `decode_encode`, which goes by the constructor of the operation. -/
theorem decodeOfEncodeIsTheInstruction : Obligations.DecodeOfEncodeIsTheInstruction :=
  fun _ _ => decode_encode

/-- Settles O2: the access is the one that encodes its operation, and the decoder answers only operations of the mode. -/
theorem encodeOfDecodeIsTheAccess : Obligations.EncodeOfDecodeIsTheAccess :=
  fun _ _ _ h => ⟨encode_of_decode h, wellFormed_selectedIn_of_decode h⟩

/-- Settles O3: a command without operands has one word, and each mask fixes the fields that are no operand. -/
theorem commandWordsMatchTheirPatterns : Obligations.CommandWordsMatchTheirPatterns := fun w =>
  ⟨decodeCmd_eq_some_iff rfl w, decodeCmd_eq_some_iff rfl w, decodeCmd_eq_some_iff rfl w, decodeCmd_eq_some_iff rfl w,
    decodeCmd_eq_some_iff rfl w, decodeCmd_eq_some_iff rfl w, decodeCmd_eq_some_iff rfl w,
    decodeCmd_tblAdd_iff w, decodeCmd_tblRead_iff w⟩

/-- Settles O4: the complement of the patterns, and an illegal word written to CMD raises or is ignored. -/
theorem illegalWordsRaiseBadCmd : Obligations.IllegalWordsRaiseBadCmd :=
  ⟨decodeCmd_eq_none_iff, fun _ _ hr h => performAccess_illegalCommand hr h⟩

/-- Settles O5: eight of the accesses encode an operation of their mode; the last word would be TBL_READ with LEN = 1. -/
theorem writtenOutWordsDecode : Obligations.WrittenOutWordsDecode :=
  ⟨decode_encode (i := .tblAdd 0x00 0x03) rfl rfl, decode_encode (i := .tblAdd 0x09 0xFF) rfl rfl,
    decode_encode (i := .tblRead 0x02) rfl rfl, decode_encode (i := .encFlush) rfl rfl,
    decode_encode (i := .decFinish) rfl rfl, decode_encode (i := .decByte 0xDF) rfl rfl,
    decode_encode (i := .outPop) rfl rfl, decode_encode (i := .cwWr 7 0xFFFFFFFF) rfl rfl, rfl⟩

end Sys2Proof

/-! PROOFS. The statements of spec/40_code_table.md: TBL_CLEAR, TBL_ADD and TBL_READ, the staged codeword, and the trie
that a table's codewords build. -/

namespace Sys2Proof

namespace Machine

/-! ### The table as a map from symbols to codewords (R40, R93) -/

/-- R93: entries of different symbols may be written in either order. -/
theorem tableSet_comm {t : Table} (hw : Table.wf t) {a b : Byte} (hab : a ≠ b) (c d : Bits) :
    tableSet (tableSet t a c) b d = tableSet (tableSet t b d) a c := by
  refine table_ext (tableSet_wf (tableSet_wf hw a c) b d) (tableSet_wf (tableSet_wf hw b d) a c) fun sym => ?_
  simp only [tableGet_tableSet]
  by_cases ha : sym = a
  · subst ha
    rw [if_neg hab, if_pos rfl, if_pos rfl]
  · rw [if_neg ha, if_neg ha]

/-- R93: the codewords that a new one may clash with are those the symbols read. -/
theorem tableConflict_iff_tableGet {t : Table} (hw : Table.wf t) {c : Bits} :
    tableConflict t c = true ↔ ∃ other d, tableGet t other = some d ∧ (c <+: d ∨ d <+: c) := by
  rw [tableConflict_iff]
  constructor
  · rintro ⟨⟨other, d⟩, he, hclash⟩
    exact ⟨other, d, tableGet_of_mem hw he, hclash⟩
  · rintro ⟨other, d, hg, hclash⟩
    exact ⟨(other, d), mem_of_tableGet hg, hclash⟩

/-! ### The staging buffer (R39, R91, R94) -/

/-- R39: where staging bit `i` stands. -/
theorem stagingBit_eq_getLsbD {i : Nat} {k : Fin 8} (hk : k.val = i / 32) (cw : Vector Word 8) :
    stagingBit cw i = cw[k].getLsbD (31 - i % 32) := by
  have hlt : i / 32 < 8 := hk ▸ k.isLt
  obtain rfl : k = ⟨i / 32, hlt⟩ := Fin.ext hk
  rw [stagingBit, dif_pos hlt]
  rfl

/-- R91: bit `i` of a staged codeword is staging bit `i`. -/
theorem stageCode_getElem? {i n : Nat} (hi : i < n) (cw : Vector Word 8) :
    (stageCode cw n)[i]? = some (stagingBit cw i) := by
  simp [stageCode, hi]

/-- R91: staging bits from `n` on are not read. -/
theorem stageCode_congr {n : Nat} {cw cw' : Vector Word 8} (h : ∀ i < n, stagingBit cw i = stagingBit cw' i) :
    stageCode cw n = stageCode cw' n :=
  List.map_congr_left fun i hi => h i (List.mem_range.mp hi)

/-- R91, R94: the buffer that stages a codeword gives it back. -/
theorem stageCode_stagingOf {c : Bits} (hc : c.length ≤ 256) : stageCode (stagingOf c) c.length = c :=
  stageCode_of_words hc fun _ _ _ => by simp [stagingOf]

/-- R94: the staging buffer of an invalid entry. -/
theorem stagingOf_nil (k : Fin 8) : (stagingOf [])[k] = 0 := by simp [stagingOf, packBits, natOfBits]

/-! ### What TBL_ADD does, check by check (R93) -/

/-- R72, R93: the word TBL_ADD records. -/
theorem cmdWord_tblAdd (sym len : Byte) :
    cmdWord (.tblAdd sym len) = 0x00000011#32 ||| (sym.setWidth 32 <<< 8) ||| (len.setWidth 32 <<< 16) := rfl

section AddEntry

variable {s : State} {sym len : Byte} (w : Word)

theorem addEntry_of_len_zero (hl : len = 0) : addEntry sym len w s = raise .tblLen w s := if_pos hl

theorem addEntry_of_loaded (hl : len ≠ 0) (hg : tableGet s.table sym ≠ none) :
    addEntry sym len w s = raise .tblDup w s := by
  rw [addEntry, if_neg hl, if_pos (Option.isSome_iff_ne_none.mpr hg)]

theorem addEntry_of_conflict (hl : len ≠ 0) (hg : tableGet s.table sym = none)
    (hc : tableConflict s.table (stageCode s.cw len.toNat) = true) : addEntry sym len w s = raise .tblPrefix w s := by
  rw [addEntry, if_neg hl, if_neg (by simp [hg]), if_pos hc]

theorem addEntry_of_new (hl : len ≠ 0) (hg : tableGet s.table sym = none)
    (hc : tableConflict s.table (stageCode s.cw len.toNat) ≠ true) :
    addEntry sym len w s = { s with table := tableSet s.table sym (stageCode s.cw len.toNat) } := by
  rw [addEntry, if_neg hl, if_neg (by simp [hg]), if_neg hc]

end AddEntry

/-- R93: out of IDLE, TBL_ADD raises SEQ. -/
theorem exec_tblAdd_of_ne_idle {s : State} (he : s.err = none) (hm : s.mode ≠ .idle) (sym len : Byte) :
    exec (.tblAdd sym len) s = .next (raise .seq (cmdWord (.tblAdd sym len)) s) := by
  rw [exec, execTblAdd, unlessError_of_noError he, requireMode_of_ne hm]

/-- R93: in IDLE, TBL_ADD makes the checks of the entry. -/
theorem exec_tblAdd_of_idle {s : State} (he : s.err = none) (hm : s.mode = .idle) (sym len : Byte) :
    exec (.tblAdd sym len) s = .next (addEntry sym len (cmdWord (.tblAdd sym len)) s) := by
  rw [exec, execTblAdd, unlessError_of_noError he, requireMode_of_eq hm]

/-- R93: a TBL_ADD that raises nothing has loaded the staged codeword. -/
theorem table_eq_of_exec_tblAdd {s t : State} {sym len : Byte} (h : exec (.tblAdd sym len) s = .next t)
    (he : s.err = none) (ht : t.err = none) : t.table = tableSet s.table sym (stageCode s.cw len.toNat) := by
  rcases execTblAdd_next h with ⟨hne, -⟩ | ⟨-, -, rfl⟩ | ⟨-, -, rfl⟩
  · exact absurd he hne
  · cases ht
  · rcases addEntry_cases sym len (cmdWord (.tblAdd sym len)) s with
      ⟨-, hraise⟩ | ⟨-, -, hraise⟩ | ⟨-, -, -, hraise⟩ | ⟨-, -, -, hadd⟩
    · rw [hraise] at ht; cases ht
    · rw [hraise] at ht; cases ht
    · rw [hraise] at ht; cases ht
    · rw [hadd]

/-! ### What TBL_READ does (R94) -/

/-- R94: with no error TBL_READ shows the entry, in every mode. -/
theorem exec_tblRead_of_noError {s : State} (he : s.err = none) (sym : Byte) :
    exec (.tblRead sym) s =
      .next { s with tblInfo := tblInfoOf sym (tableGet s.table sym),
                     cw := stagingOf ((tableGet s.table sym).getD []) } := by
  rw [exec, execTblRead, unlessError_of_noError he]

/-- R94: TBL_INFO of an invalid entry. -/
theorem tblInfoOf_none (sym : Byte) : tblInfoOf sym none = sym.setWidth 32 := by
  simp [tblInfoOf, field]

/-- R94: the fields of TBL_INFO for a valid entry. -/
theorem tblInfoOf_some_fields (sym : Byte) {c : Bits} (hc : c.length ≤ 255) :
    (tblInfoOf sym (some c)).getLsbD 31 = true ∧ (tblInfoOf sym (some c)).extractLsb' 16 15 = 0#15 ∧
    ((tblInfoOf sym (some c)).extractLsb' 8 8).toNat = c.length ∧ (tblInfoOf sym (some c)).extractLsb' 0 8 = sym := by
  obtain ⟨hvalid, hzero, hlen, hsym⟩ := tblInfo_fields sym (some c)
  exact ⟨hvalid, hzero, (congrArg BitVec.toNat hlen).trans (toNat_ofNat_of_lt (Nat.lt_succ_of_le hc)), hsym⟩

/-! ### The trie of a table's codewords (R93, R137) -/

/-- R137: a rebuild adds a leaf for each entry, and the nodes on the way to it. -/
theorem trieAt_trieOfEntries {t : Table} {tr tr' : Trie} (h : trieOfEntries t tr = some tr') (p : Bits) :
    (∀ x, trieAt tr' p = .leaf x ↔ trieAt tr p = .leaf x ∨ (x, p) ∈ t) ∧
    (trieAt tr' p = .empty ↔ trieAt tr p = .empty ∧ ∀ e ∈ t, ¬ p <+: e.2) := by
  induction t generalizing tr with
  | nil => cases h; simp
  | cons e t ih =>
    obtain ⟨s, c⟩ := e
    obtain ⟨tr₁, hinsert, hrest⟩ := Option.bind_eq_some_iff.mp h
    obtain ⟨hleaf, hempty⟩ := trieInsert_some hinsert p
    obtain ⟨hleaf', hempty'⟩ := ih hrest
    refine ⟨fun x => ?_, ?_⟩
    · rw [hleaf', hleaf, List.mem_cons, Prod.mk.injEq, and_comm (a := x = s), or_assoc]
    · rw [hempty', hempty, List.forall_mem_cons, and_assoc]

/-- R137: the root from which a rebuild starts has no children. -/
theorem trieAt_root_of_ne_nil {p : Bits} (hp : p ≠ []) : trieAt (.node .empty .empty) p = .empty := by
  cases p with
  | nil => exact absurd rfl hp
  | cons b p => cases b <;> exact trieAt_empty p

/-- R137: the leaves of D(T) are its entries. -/
theorem trieAt_trieOf_eq_leaf_iff {t : Table} {tr : Trie} (h : trieOf t = some tr) (p : Bits) (x : Byte) :
    trieAt tr p = .leaf x ↔ (x, p) ∈ t := by
  have hroot : trieAt (.node .empty .empty) p ≠ .leaf x := by
    by_cases hp : p = []
    · subst hp; nofun
    · rw [trieAt_root_of_ne_nil hp]; nofun
  rw [(trieAt_trieOfEntries h p).1 x, or_iff_right hroot]

/-- R137: below the root, D(T) has the nodes on the way to its entries and no others. -/
theorem trieAt_trieOf_eq_empty_iff {t : Table} {tr : Trie} (h : trieOf t = some tr) {p : Bits} (hp : p ≠ []) :
    trieAt tr p = .empty ↔ ∀ e ∈ t, ¬ p <+: e.2 := by
  rw [(trieAt_trieOfEntries h p).2, and_iff_right (trieAt_root_of_ne_nil hp)]

/-- R93: a walk of the rebuild meets a leaf on its way, or a node at its end, exactly where the codeword clashes with a
loaded one. -/
theorem trieInsert_trieOf_none_iff {t : Table} {tr : Trie} (h : trieOf t = some tr) {c : Bits} (hc : c ≠ [])
    (s : Byte) : trieInsert tr c s = none ↔ tableConflict t c = true := by
  have hend : trieAt tr c ≠ .empty ↔ ∃ e ∈ t, c <+: e.2 := by
    simp [trieAt_trieOf_eq_empty_iff h hc]
  simp only [trieInsert_none, trieAt_trieOf_eq_leaf_iff h, hend, tableConflict_iff]
  constructor
  · rintro (⟨q, x, hq, hmem⟩ | ⟨e, he, hprefix⟩)
    · exact ⟨(x, q), hmem, .inr hq⟩
    · exact ⟨e, he, .inl hprefix⟩
  · rintro ⟨⟨x, q⟩, hmem, hprefix | hq⟩
    · exact .inr ⟨(x, q), hmem, hprefix⟩
    · exact .inl ⟨q, x, hq, hmem⟩

end Machine

open Machine

/-! ### The statements -/

/-- Settles O23: the two branches of the mode check; the recorded word is TBL_CLEAR's. -/
theorem tableClearEmptiesTheTable : Obligations.TableClearEmptiesTheTable := by
  refine fun s he => ⟨fun hm => ⟨{ s with table := [], tblInfo := 0 }, ?_, rfl, fun _ => rfl, rfl⟩, fun hm => ?_⟩
  · rw [exec, execTblClear, unlessError_of_noError he, requireMode_of_eq hm]
  · rw [exec, execTblClear, unlessError_of_noError he, requireMode_of_ne hm]
    rfl

/-- Settles O24: the checks in their order, each by its equation; the added entry by the laws of `tableSet`. -/
theorem tableAddChecksAndAdds : Obligations.TableAddChecksAndAdds := by
  intro s sym len he hw w code fail clash
  have hclash : tableConflict s.table code = true ↔ clash := tableConflict_iff_tableGet hw
  refine ⟨fun hm => exec_tblAdd_of_ne_idle he hm sym len, fun hm hl => ?_, fun hm hl hg => ?_, fun hm hl hg hc => ?_,
    fun hm hl hg hc => ⟨{ s with table := tableSet s.table sym code }, ?_, rfl, tableSet_wf hw sym code,
      fun other => tableGet_tableSet s.table sym other code, length_tableSet hg code⟩⟩
  · rw [exec_tblAdd_of_idle he hm, addEntry_of_len_zero _ hl]; rfl
  · rw [exec_tblAdd_of_idle he hm, addEntry_of_loaded _ hl hg]; rfl
  · rw [exec_tblAdd_of_idle he hm, addEntry_of_conflict _ hl hg (hclash.mpr hc)]; rfl
  · rw [exec_tblAdd_of_idle he hm, addEntry_of_new _ hl hg (mt hclash.mp hc)]

/-- Settles O25: each bit of a staged codeword is one staging bit, at its place in a word of the buffer. -/
theorem stagedCodewordBits : Obligations.StagedCodewordBits := by
  refine fun s n _ hn => ⟨stageCode_length s.cw n, fun i k hi hk => ?_, fun t h => stageCode_congr fun i hi => ?_⟩
  · rw [stageCode_getElem? hi, stagingBit_eq_getLsbD hk]; rfl
  · have hlt : i / 32 < 8 := by omega
    have hk : (⟨i / 32, hlt⟩ : Fin 8).val = i / 32 := rfl
    rw [stagingBit_eq_getLsbD hk, stagingBit_eq_getLsbD hk]
    exact h i _ hi hk

/-- Settles O26: TBL_INFO by its fields and the staging buffer by its bits, for an invalid and for a valid entry. -/
theorem tableReadShowsTheEntry : Obligations.TableReadShowsTheEntry := by
  refine fun s sym => ⟨fun he => unlessError_of_error he _, fun he =>
    ⟨_, exec_tblRead_of_noError he sym, rfl, fun hg => ?_, fun c hg hc => ?_⟩⟩
  · simp only [hg]
    exact ⟨tblInfoOf_none sym, stagingOf_nil⟩
  · simp only [hg]
    obtain ⟨hvalid, hzero, hlen, hsym⟩ := tblInfoOf_some_fields sym hc
    exact ⟨hvalid, hzero, hlen, hsym, stagingBit_stagingOf c⟩

/-- Settles O27: the entry read is the codeword loaded, of LEN bits, and the buffer that stages it gives it back. -/
theorem tableReadReturnsWhatTableAddLoaded : Obligations.TableReadReturnsWhatTableAddLoaded := by
  intro s t u sym len hadd hs ht hread
  have hlen : (stageCode s.cw len.toNat).length = len.toNat := stageCode_length s.cw len.toNat
  have hle : len.toNat ≤ 255 := Nat.le_of_lt_succ len.isLt
  have hg : tableGet t.table sym = some (stageCode s.cw len.toNat) := by
    rw [table_eq_of_exec_tblAdd hadd hs ht, tableGet_tableSet, if_pos rfl]
  rw [exec_tblRead_of_noError ht, hg] at hread
  cases hread
  constructor
  · have hback := stageCode_stagingOf (c := stageCode s.cw len.toNat) (by omega)
    rwa [hlen] at hback
  · obtain ⟨-, -, hfield, -⟩ := tblInfoOf_some_fields sym (c := stageCode s.cw len.toNat) (by omega)
    exact BitVec.eq_of_toNat_eq (hfield.trans hlen)

/-- Settles O28: the two tables are canonical and every symbol reads the same in both. -/
theorem entryOrderDoesNotMatter : Obligations.EntryOrderDoesNotMatter :=
  fun _ _ _ c d hw hab => tableSet_comm hw hab c d

/-- Settles O43: the trie's leaves and nodes are the codewords and their prefixes. -/
theorem prefixClashIsARebuildClash : Obligations.PrefixClashIsARebuildClash :=
  fun _ _ s _ _ htr hc => trieInsert_trieOf_none_iff htr hc s

end Sys2Proof

/-! PROOFS. The statements of spec/41_encode.md: ENC_START, ENC_BYTE and ENC_FLUSH by their branches, the payload that a
symbol extends, and the packed payload that a whole encode stream delivers. -/

namespace Sys2Proof

namespace Machine

/-! ### Packing a payload byte by byte (R55) -/

/-- R55: whole bytes in front of a payload are packed as they are. -/
theorem pack_unpack_append (bytes : List Byte) (p : Bits) : pack (unpack bytes ++ p) = bytes ++ pack p := by
  refine unpack_inj ?_
  rw [unpack_append, unpack_pack, unpack_pack, List.append_assoc, List.length_append, unpack_length]
  congr 3
  omega

/-- R55, R115: at most 8 waiting bits are packed into one padded byte, and none into no byte. -/
theorem pack_of_length_le {a : Bits} (h : a.length ≤ 8) : pack a = if a = [] then [] else [pad8 a] := by
  split
  · next ha => rw [ha]; rfl
  · next ha =>
    have hpos := List.length_pos_iff.mpr ha
    rw [pack, show (a.length + 7) / 8 = 1 by omega, packBytes, packBytes, List.take_of_length_le h]

/-- R55: bytes 0 are bits 0. -/
theorem unpack_replicate_zero (n : Nat) : unpack (List.replicate n 0x00#8) = List.replicate (n * 8) false := by
  have hbyte : byteBits 0x00#8 = List.replicate 8 false := by decide
  rw [unpack, List.flatMap_def, List.map_replicate, hbyte, List.flatten_replicate_replicate]

/-- R116: a payload of bits 0 is packed into bytes 0, the pad bits among them. -/
theorem pack_replicate_false (m : Nat) :
    pack (List.replicate m false) = List.replicate ((m + 7) / 8) 0x00#8 := by
  refine unpack_inj ?_
  rw [unpack_pack, unpack_replicate_zero, List.length_replicate, ← List.replicate_add]
  congr 1
  omega

/-! ### Appending a codeword (R112) -/

/-- R110, R112: appending a bit string extends the bits held in OUTQ and ACC by it, and takes no byte off OUTQ. -/
theorem appendBits_payload {bs : Bits} {s t : State} (h : appendBits bs s = .go t) :
    unpack t.outq ++ t.acc = unpack s.outq ++ s.acc ++ bs ∧ s.outq <+: t.outq := by
  induction bs generalizing s with
  | nil => cases h; simp
  | cons b bs ih =>
    obtain ⟨u, hu, h⟩ := bind_eq_go h
    obtain ⟨hbit, hprefix⟩ := appendBit_payload hu
    obtain ⟨hbits, hprefix'⟩ := ih h
    exact ⟨by rw [hbits, hbit, List.append_assoc _ [b], List.singleton_append], hprefix.trans hprefix'⟩

/-- R42, R112: appending a bit string leaves at most 7 bits waiting. -/
theorem appendBits_accLen {bs : Bits} {s t : State} (h : appendBits bs s = .go t) (hl : s.acc.length ≤ 7) :
    t.acc.length ≤ 7 := by
  induction bs generalizing s with
  | nil => cases h; exact hl
  | cons b bs ih =>
    obtain ⟨u, hu, h⟩ := bind_eq_go h
    exact ih h (appendBit_accLen hu hl)

/-! ### ENC_START (R111) -/

theorem exec_encStart_of_idle {s : State} (he : s.err = none) (hm : s.mode = .idle) :
    exec .encStart s =
      .next { s with mode := .enc, acc := [], outq := [], bitcnt := 0, symcnt := 0, decRem := 0 } := by
  rw [exec, execEncStart, unlessError_of_noError he, requireMode_of_eq hm]

theorem exec_encStart_of_ne_idle {s : State} (he : s.err = none) (hm : s.mode ≠ .idle) :
    exec .encStart s = .next (raise .seq (cmdWord .encStart) s) := by
  rw [exec, execEncStart, unlessError_of_noError he, requireMode_of_ne hm]

/-! ### ENC_BYTE (R113) -/

/-- R113, R159: in ENC with no error, ENC_BYTE is the encode step. -/
theorem exec_encByte_of_enc {s : State} (he : s.err = none) (hm : s.mode = .enc) (v : Word) :
    exec (.encByte v) s = encodeStep v s := by
  rw [exec, execEncByte, dataWrite, unlessError_of_noError he, hm]

section EncodeStep

variable {s : State} {v : Word}

theorem encodeStep_of_full (hr : hasRoom Config.encRoom s = false) :
    encodeStep v s = .next (raise .overrun v s) := by
  rw [encodeStep, if_pos (by simp [hr])]

theorem encodeStep_of_missing (hr : hasRoom Config.encRoom s = true) (hg : tableGet s.table (dinByte v) = none) :
    encodeStep v s = .next (raise .missingCode v s) := by
  rw [encodeStep, if_neg (not_not.mpr hr), hg]

theorem encodeStep_of_codeword {c : Bits} (hr : hasRoom Config.encRoom s = true)
    (hg : tableGet s.table (dinByte v) = some c) :
    encodeStep v s = ((appendBits c s).bind fun u => .go (countSymbol c u)).outcome := by
  rw [encodeStep, if_neg (not_not.mpr hr), hg]

/-- R113: an encode step that raises nothing has appended and counted the codeword of its symbol. -/
theorem encodeStep_accepted {t : State} (h : encodeStep v s = .next t) (ht : t.err = none) :
    ∃ c u, tableGet s.table (dinByte v) = some c ∧ appendBits c s = .go u ∧ t = countSymbol c u := by
  rcases encodeStep_next h with ⟨-, rfl⟩ | ⟨-, -, rfl⟩ | ⟨-, haccepted⟩
  · cases ht
  · cases ht
  · exact haccepted

end EncodeStep

/-- R27, R113: ENC_ROOM as a bound on the level of OUTQ. -/
theorem hasRoom_encRoom {s : State} (hd : s.cfg.InRange) :
    hasRoom Config.encRoom s = decide (outqLevel s ≤ s.cfg.outDepth - 33) :=
  decide_eq_decide.mpr (Nat.le_sub_iff_add_le hd.1).symm

/-! ### ENC_FLUSH (R115) -/

theorem exec_encFlush_of_ne_enc {s : State} (he : s.err = none) (hm : s.mode ≠ .enc) :
    exec .encFlush s = .next (raise .seq (cmdWord .encFlush) s) := by
  rw [exec, execEncFlush, unlessError_of_noError he, requireMode_of_ne hm]

theorem exec_encFlush_of_enc {s : State} (he : s.err = none) (hm : s.mode = .enc) :
    exec .encFlush s = ((flushAcc s).bind fun u => .go { u with mode := .idle }).outcome := by
  rw [exec, execEncFlush, unlessError_of_noError he, requireMode_of_eq hm]

theorem flushAcc_of_nil {s : State} (ha : s.acc = []) : flushAcc s = .go s := if_pos ha

theorem flushAcc_of_ne_nil {s : State} (ha : s.acc ≠ []) (hr : s.outq.length < s.cfg.outDepth) :
    flushAcc s = .go { s with outq := s.outq ++ [pad8 s.acc], acc := [] } := by
  rw [flushAcc, if_neg ha, fifoPush_of_room hr, bind_go]

/-- R115: a flush appends the packed waiting bits to OUTQ. -/
theorem flushAcc_outq {s t : State} (h : flushAcc s = .go t) (hl : s.acc.length ≤ 7) :
    t.outq = s.outq ++ pack s.acc := by
  rw [pack_of_length_le (hl.trans (by decide))]
  rcases flushAcc_go h with ⟨ha, rfl⟩ | ⟨ha, -, rfl⟩
  · rw [if_pos ha, List.append_nil]
  · rw [if_neg ha]

/-! ### Errors inside a run of operations (R206) -/

/-- R206: no operation but ABORT changes ERR once an error is recorded. -/
theorem Effect.err_eq_of_error {i : Instr} {s t : State} (h : Effect i s t) (he : s.err ≠ none) (hi : i ≠ .abort) :
    t.err = s.err := by
  cases h with
  | ignored h | read _ _ h | ctrl _ _ h | decBits _ _ h | stage _ _ _ h => subst h; rfl
  | pop _ h => rw [h, popOutput_frame]
  | abort h => exact absurd h hi
  | raised _ _ h | tblClear h | tblAdd _ _ h | tblRead _ h | encStart h | encFlush _ h | decStart h | decFinish h
  | encoded _ _ _ h | decoded _ h | truncated _ _ h | noChild _ _ _ h => exact absurd h he

/-- The first operation of a run answers a next state, from which the rest runs. -/
theorem execAll_cons {i : Instr} {is : List Instr} {s t : State} (h : execAll (i :: is) s = .next t) :
    ∃ u, exec i s = .next u ∧ execAll is u = .next t := by
  unfold execAll at h
  split at h
  · next u hu => exact ⟨u, hu, h⟩
  all_goals cases h

/-- R206: operations without an ABORT that end with no error began with none. -/
theorem err_none_of_execAll {is : List Instr} {s t : State} (h : execAll is s = .next t) (hi : .abort ∉ is)
    (ht : t.err = none) : s.err = none := by
  induction is generalizing s with
  | nil => cases h; exact ht
  | cons i is ih =>
    obtain ⟨hne, hrest⟩ := not_or.mp (mt List.mem_cons.mpr hi)
    obtain ⟨u, hu, h⟩ := execAll_cons h
    by_contra he
    exact he (((exec_effect hu).err_eq_of_error he (Ne.symm hne)).symm.trans (ih h hrest))

theorem encodeOps.abort_notMem {is : List Instr} (h : encodeOps is) : .abort ∉ is := by
  intro hmem
  rcases h _ hmem with hb | ⟨v, hv⟩
  · cases hb
  · cases hv

/-! ### The body of an encode stream (R110, R116) -/

/-- R74: ENC_BYTE writes the symbol v[7:0]. -/
theorem dataBytes_encByte (v : Word) (is : List Instr) :
    dataBytes (.encByte v :: is) = dinByte v :: dataBytes is := rfl

/-- R54: ENC_BYTE returns no value. -/
theorem takenBytes_encByte (v : Word) (is : List Instr) (ws : List Word) :
    takenBytes (.encByte v :: is) ws = takenBytes is ws := rfl

/-- R110, R116: what the operations `is` do between two states of an encode stream whose symbols' codewords, in order,
are `p`: the bits of the bytes the host took, of those in OUTQ and of ACC grow by `p`, and the counters count it. -/
structure EncodeProgress (is : List Instr) (p : Bits) (s t : State) : Prop where
  payload : encodeBits s.table (dataBytes is) = some p
  mode : t.mode = s.mode
  accLen : s.acc.length ≤ 7 → t.acc.length ≤ 7
  bitcnt : t.bitcnt = s.bitcnt + BitVec.ofNat 32 p.length
  symcnt : t.symcnt = s.symcnt + BitVec.ofNat 32 (dataBytes is).length
  output : ∃ ws, t.returned = s.returned ++ ws ∧
    unpack (takenBytes is ws ++ t.outq) ++ t.acc = unpack s.outq ++ s.acc ++ p

theorem EncodeProgress.nil (s : State) : EncodeProgress [] [] s s where
  payload := rfl
  mode := rfl
  accLen := id
  bitcnt := (BitVec.add_zero _).symm
  symcnt := (BitVec.add_zero _).symm
  output := ⟨[], by simp, by simp [takenBytes, popWords, validBytes]⟩

/-- R116: an operation beside the data writes adds nothing to the payload; the bytes it takes off OUTQ are taken. -/
theorem EncodeProgress.cons_besideStream {i : Instr} {is : List Instr} {p : Bits} {s u t : State}
    (hi : besideStream i = true) (hu : exec i s = .next u) (h : EncodeProgress is p u t) :
    EncodeProgress (i :: is) p s t := by
  obtain ⟨u', ws, bs, hu', hret, hq, htaken, hframe⟩ := exec_besideStream (s := s) hi
  obtain rfl : u' = u := Host.Outcome.next.inj (hu'.symm.trans hu)
  obtain ⟨ws', hret', hbits⟩ := h.output
  obtain ⟨htaken, hdata⟩ := htaken is ws'
  have hacc : u'.acc = s.acc := by rw [hframe]
  have htable : u'.table = s.table := by rw [hframe]
  exact {
    payload := by rw [hdata, ← htable]; exact h.payload
    mode := by rw [h.mode, hframe]
    accLen := hacc ▸ h.accLen
    bitcnt := by rw [h.bitcnt, hframe]
    symcnt := by rw [h.symcnt, hdata, hframe]
    output := by
      refine ⟨ws ++ ws', by rw [hret', hret, List.append_assoc], ?_⟩
      rw [htaken, List.append_assoc, unpack_append, List.append_assoc, hbits, hq, hacc, unpack_append]
      simp only [List.append_assoc] }

/-- R110, R113: an accepted symbol adds its codeword to the payload. -/
theorem EncodeProgress.cons_encByte {v : Word} {is : List Instr} {c p : Bits} {s u t : State}
    (hg : tableGet s.table (dinByte v) = some c) (hu : appendBits c s = .go u)
    (h : EncodeProgress is p (countSymbol c u) t) : EncodeProgress (.encByte v :: is) (c ++ p) s t := by
  obtain ⟨ws, hret, hbits⟩ := h.output
  have hframe := appendBits_go hu
  have htable : u.table = s.table := by rw [hframe]
  have hpayload : encodeBits s.table (dataBytes is) = some p := htable ▸ h.payload
  exact {
    payload := by rw [dataBytes_encByte, encodeBits, hg, Option.bind_some, hpayload, Option.map_some]
    mode := by rw [h.mode, countSymbol_mode, hframe]
    accLen := fun hl => h.accLen (show u.acc.length ≤ 7 from appendBits_accLen hu hl)
    bitcnt := by
      rw [h.bitcnt, countSymbol_bitcnt, hframe, List.length_append, BitVec.ofNat_add, BitVec.add_assoc]
    symcnt := by
      rw [h.symcnt, countSymbol_symcnt, hframe, dataBytes_encByte, List.length_cons, Nat.add_comm, BitVec.ofNat_add,
        BitVec.add_assoc]
      rfl
    output := by
      refine ⟨ws, by rw [hret, countSymbol_returned, hframe], ?_⟩
      rw [takenBytes_encByte, hbits, countSymbol_outq, countSymbol_acc, (appendBits_payload hu).1,
        List.append_assoc _ c] }

/-- R116: the body of an encode stream that ends with no error. -/
theorem encodeProgress_of_execAll {is : List Instr} {s t : State} (hops : encodeOps is) (hm : s.mode = .enc)
    (h : execAll is s = .next t) (ht : t.err = none) : ∃ p, EncodeProgress is p s t := by
  induction is generalizing s with
  | nil => cases h; exact ⟨[], .nil _⟩
  | cons i is ih =>
    have hrest : encodeOps is := fun j hj => hops j (List.mem_cons_of_mem i hj)
    have he : s.err = none := err_none_of_execAll h hops.abort_notMem ht
    obtain ⟨u, hu, h⟩ := execAll_cons h
    have hue : u.err = none := err_none_of_execAll h hrest.abort_notMem ht
    rcases hops i List.mem_cons_self with hb | ⟨v, rfl⟩
    · obtain ⟨u', _, _, hu', _, _, _, hframe⟩ := exec_besideStream (s := s) hb
      obtain rfl : u' = u := Host.Outcome.next.inj (hu'.symm.trans hu)
      obtain ⟨p, hp⟩ := ih hrest (by rw [hframe]; exact hm) h
      exact ⟨p, hp.cons_besideStream hb hu⟩
    · rw [exec_encByte_of_enc he hm] at hu
      obtain ⟨c, w, hg, hw, rfl⟩ := encodeStep_accepted hu hue
      obtain ⟨p, hp⟩ := ih hrest (by rw [countSymbol_mode, appendBits_go hw]; exact hm) h
      exact ⟨c ++ p, hp.cons_encByte hg hw⟩

end Machine

open Machine

/-! ### The statements -/

/-- Settles O34: the bits of the bytes taken, of OUTQ and of ACC grow by the codewords, and ENC_FLUSH packs those that
wait. -/
theorem encodeStreamDeliversThePackedPayload : Obligations.EncodeStreamDeliversThePackedPayload := by
  refine ⟨fun s s1 t u ops p he hm hops hp hstart hrun ht hflush => ?_, pack_replicate_false⟩
  rw [exec_encStart_of_idle he hm] at hstart
  cases hstart
  obtain ⟨p', hprog⟩ := encodeProgress_of_execAll hops rfl hrun ht
  obtain rfl : p' = p := Option.some.inj (hprog.payload.symm.trans hp)
  obtain ⟨ws, hret, hbits⟩ := hprog.output
  rcases execEncFlush_next hflush with ⟨hne, -⟩ | ⟨-, hne, -⟩ | ⟨-, -, w, hw, rfl⟩
  · exact absurd ht hne
  · exact absurd hprog.mode hne
  · have houtq := flushAcc_outq hw (hprog.accLen (Nat.zero_le 7))
    have hwret : w.returned = s.returned ++ ws := by rw [flushAcc_frame hw]; exact hret
    refine ⟨?_, ?_, ?_⟩
    · calc takenBytes ops (w.returned.drop s.returned.length) ++ w.outq
        _ = takenBytes ops ws ++ t.outq ++ pack t.acc := by
          rw [hwret, List.drop_left, houtq, List.append_assoc]
        _ = pack (unpack (takenBytes ops ws ++ t.outq) ++ t.acc) := (pack_unpack_append _ _).symm
        _ = pack p' := congrArg pack hbits
    · rw [flushAcc_frame hw]; exact hprog.bitcnt.trans (BitVec.zero_add _)
    · rw [flushAcc_frame hw]; exact hprog.symcnt.trans (BitVec.zero_add _)

/-- Settles O30: the three ways an encode step ends; with ENC_ROOM free bytes the whole bytes of a codeword of at most
255 bits have room. -/
theorem encodeByteAppendsTheCodeword : Obligations.EncodeByteAppendsTheCodeword := by
  intro s v he hm hd
  rw [exec_encByte_of_enc he hm]
  have hroom := hasRoom_encRoom hd
  refine ⟨fun hlevel => ?_, fun hlevel hg => ?_, fun c hlevel hg hc ha => ?_⟩
  · rw [encodeStep_of_full (hroom.trans (decide_eq_false (Nat.not_le.mpr hlevel)))]; rfl
  · rw [encodeStep_of_missing (hroom.trans (decide_eq_true hlevel)) hg]; rfl
  · have hfree : s.outq.length + 33 ≤ s.cfg.outDepth := (Nat.le_sub_iff_add_le hd.1).mp hlevel
    rw [encodeStep_of_codeword (hroom.trans (decide_eq_true hlevel)) hg, appendBits_eq c s ha (by omega)]
    exact ⟨_, rfl, rfl, rfl, rfl⟩

/-- Settles O31: a step that raises nothing has appended the codeword, and counting keeps OUTQ and ACC. -/
theorem encodeByteExtendsThePayload : Obligations.EncodeByteExtendsThePayload := by
  intro s t v he hm h ht
  rw [exec_encByte_of_enc he hm] at h
  obtain ⟨c, u, hg, hu, rfl⟩ := encodeStep_accepted h ht
  obtain ⟨hbits, hprefix⟩ := appendBits_payload hu
  exact ⟨c, hg, hbits, hprefix⟩

/-- Settles O29: the two branches of the mode check; the recorded word is ENC_START's. -/
theorem encodeStartOpensAStream : Obligations.EncodeStartOpensAStream :=
  fun _ he => ⟨exec_encStart_of_idle he, exec_encStart_of_ne_idle he⟩

/-- Settles O32: the mode check, and in ENC the flush of no bits and of some. -/
theorem encodeFlushPadsAndCloses : Obligations.EncodeFlushPadsAndCloses := by
  refine fun s he => ⟨exec_encFlush_of_ne_enc he, fun hm ha => ?_, fun hm ha hr => ?_⟩
  · rw [exec_encFlush_of_enc he hm, flushAcc_of_nil ha]; rfl
  · rw [exec_encFlush_of_enc he hm, flushAcc_of_ne_nil ha hr]; rfl

end Sys2Proof

/-! PROOFS. The statements of spec/42_decode.md: DEC_START, DEC_FINISH and DEC_BYTE by their branches, the decode tree,
and the symbols that a whole decode stream returns. -/

namespace Sys2Proof

namespace Machine

/-! ### The nodes of the decode tree (R134, R137) -/

/-- R134: the leaves of D(T) are what the lookup finds. -/
theorem tableLeaf_eq_some_iff {t : Table} (hpf : PrefixFree t) {p : Bits} {sym : Byte} :
    tableLeaf t p = some sym ↔ IsLeaf t p sym :=
  ⟨tableLeaf_mem, tableLeaf_of_mem hpf⟩

theorem tableLeaf_eq_none_iff {t : Table} {p : Bits} : tableLeaf t p = none ↔ ¬ ∃ sym, IsLeaf t p sym := by
  rw [tableLeaf_eq_none, not_exists]
  exact ⟨fun h sym hmem => h _ hmem rfl, fun h e he hp => h e.1 (hp ▸ he)⟩

/-- R137: below the root, the nodes are the paths to the leaves. -/
theorem isNode_iff_of_ne_nil {t : Table} {p : Bits} (hp : p ≠ []) : IsNode t p ↔ ∃ e ∈ t, p <+: e.2 :=
  or_iff_right hp

/-- R134: the lookups find an internal node where no codeword ends and one goes on. -/
theorem tableInner_of_isInternal {t : Table} {p : Bits} (hp : p ≠ []) (h : IsInternal t p) :
    tableInner t p = true := by
  obtain ⟨hnode, hleaf⟩ := h
  obtain ⟨⟨sym, c⟩, he, hprefix⟩ := (isNode_iff_of_ne_nil hp).mp hnode
  refine tableInner_iff.mpr ⟨(sym, c), he, hprefix, lt_of_le_of_ne hprefix.length_le fun hlen => ?_⟩
  obtain rfl : p = c := hprefix.eq_of_length hlen
  exact hleaf ⟨sym, he⟩

/-- R134: off the nodes both lookups fail. -/
theorem lookups_of_not_isNode {t : Table} {p : Bits} (h : ¬ IsNode t p) :
    tableLeaf t p = none ∧ tableInner t p = false := by
  have hno : ∀ e ∈ t, ¬ p <+: e.2 := fun e he hprefix => h (.inr ⟨e, he, hprefix⟩)
  refine ⟨tableLeaf_eq_none.mpr fun e he hp => hno e he (hp ▸ List.prefix_refl _), ?_⟩
  refine Bool.eq_false_iff.mpr fun hinner => ?_
  obtain ⟨e, he, hprefix, -⟩ := tableInner_iff.mp hinner
  exact hno e he hprefix

/-! ### The rebuild of a table (R93, R137) -/

/-- R137: a rebuild walks the last codeword last. -/
theorem trieOfEntries_concat (t : Table) (e : Byte × Bits) (tr : Trie) :
    trieOfEntries (t ++ [e]) tr = (trieOfEntries t tr).bind fun tr' => trieInsert tr' e.2 e.1 := by
  induction t generalizing tr with
  | nil => simp [trieOfEntries]
  | cons a t ih => simp [trieOfEntries, ih, Option.bind_assoc]

/-- R40: no codeword is a prefix of a later one, nor the other way round. -/
theorem TableOk.pairwise_incomparable {t : Table} (ht : TableOk t) :
    t.Pairwise fun a b => ¬ (b.2 <+: a.2 ∨ a.2 <+: b.2) := by
  refine ht.wf.imp_of_mem fun {a b} ha hb hlt => ?_
  have hne := BitVec.ne_of_lt hlt
  rintro (h | h)
  · exact ht.prefixFree b hb a ha hne.symm h
  · exact ht.prefixFree a ha b hb hne h

/-- R40: no codeword is empty. -/
theorem TableOk.codeword_ne_nil {t : Table} (ht : TableOk t) {e : Byte × Bits} (he : e ∈ t) : e.2 ≠ [] :=
  List.ne_nil_of_length_pos (ht.lengths e he).1

/-- R93, R137: codewords of which none is empty or a prefix of another build a trie. -/
theorem trieOf_isSome {t : Table} (hne : ∀ e ∈ t, e.2 ≠ [])
    (hpw : t.Pairwise fun a b => ¬ (b.2 <+: a.2 ∨ a.2 <+: b.2)) : ∃ tr, trieOf t = some tr := by
  induction t using List.reverseRecOn with
  | nil => exact ⟨_, rfl⟩
  | append_singleton t e ih =>
    obtain ⟨hpw, -, hlast⟩ := List.pairwise_append.mp hpw
    obtain ⟨tr, htr⟩ := ih (fun a ha => hne a (List.mem_append_left _ ha)) hpw
    have hnoClash : tableConflict t e.2 ≠ true := fun hclash => by
      obtain ⟨a, ha, h⟩ := tableConflict_iff.mp hclash
      exact hlast a ha e List.mem_cons_self h
    have hinsert := mt (trieInsert_trieOf_none_iff htr (hne e (by simp)) e.1).mp hnoClash
    obtain ⟨tr', htr'⟩ := Option.ne_none_iff_exists'.mp hinsert
    exact ⟨tr', by rw [trieOf, trieOfEntries_concat, ← trieOf, htr, Option.bind_some, htr']⟩

/-! ### The walk of concatenated codewords (R138) -/

/-- R40: the entry whose codeword begins with a codeword is the entry of that codeword. -/
theorem TableOk.eq_of_prefix {t : Table} (ht : TableOk t) {a b : Byte × Bits} (ha : a ∈ t) (hb : b ∈ t)
    (h : a.2 <+: b.2) : a = b := by
  have hsym : a.1 = b.1 := not_not.mp fun hne => ht.prefixFree a ha b hb hne h
  have hget : tableGet t a.1 = some b.2 := hsym ▸ tableGet_of_mem ht.wf hb
  exact Prod.ext hsym (Option.some.inj ((tableGet_of_mem ht.wf ha).symm.trans hget))

/-- R134, R138: from a node on the way to a leaf, the rest of its codeword leads to the leaf and emits its symbol. -/
theorem walkBits_to_leaf {t : Table} (ht : TableOk t) {sym : Byte} {cur bs : Bits} (hbs : bs ≠ [])
    (h : (sym, cur ++ bs) ∈ t) : walkBits t cur bs = some ([sym], []) := by
  induction bs generalizing cur with
  | nil => exact absurd rfl hbs
  | cons b bs ih =>
    by_cases hlast : bs = []
    · subst hlast
      simp [walkBits, tableLeaf_of_mem ht.prefixFree h]
    · have hmem : (sym, cur ++ [b] ++ bs) ∈ t := by simpa using h
      have hprefix : cur ++ [b] <+: cur ++ [b] ++ bs := List.prefix_append _ _
      have hleaf : tableLeaf t (cur ++ [b]) = none := tableLeaf_eq_none_iff.mpr fun ⟨k, hk⟩ =>
        hlast (by simpa using congrArg Prod.snd (ht.eq_of_prefix hk hmem hprefix))
      have hinner := tableInner_of_isInternal (by simp) ⟨.inr ⟨_, hmem, hprefix⟩, tableLeaf_eq_none_iff.mp hleaf⟩
      rw [walkBits, hleaf, hinner]
      exact ih hlast hmem

/-- R138: the walk of a symbol's codeword from the root emits the symbol and ends at the root. -/
theorem walkBits_codeword {t : Table} (ht : TableOk t) {sym : Byte} {c : Bits} (h : tableGet t sym = some c) :
    walkBits t [] c = some ([sym], []) :=
  have hmem := mem_of_tableGet h
  walkBits_to_leaf ht (ht.codeword_ne_nil hmem) hmem

/-- R138: the walk of a payload from the root gives its symbols back. -/
theorem walkBits_of_encodeBits {t : Table} (ht : TableOk t) {ss : List Byte} {p : Bits}
    (h : encodeBits t ss = some p) : walkBits t [] p = some (ss, []) := by
  induction ss generalizing p with
  | nil => cases h; rfl
  | cons sym ss ih =>
    obtain ⟨c, hc, h⟩ := Option.bind_eq_some_iff.mp h
    obtain ⟨p', hp', rfl⟩ := Option.map_eq_some_iff.mp h
    rw [walkBits_append, walkBits_codeword ht hc, Option.bind_some, ih hp']
    rfl

/-! ### DEC_START and DEC_FINISH (R131, R136) -/

theorem exec_decStart_of_idle {s : State} (he : s.err = none) (hm : s.mode = .idle) :
    exec .decStart s =
      .next { s with mode := .dec, cur := [], outq := [], decRem := s.decBits, bitcnt := 0, symcnt := 0 } := by
  rw [exec, execDecStart, unlessError_of_noError he, requireMode_of_eq hm]

theorem exec_decStart_of_ne_idle {s : State} (he : s.err = none) (hm : s.mode ≠ .idle) :
    exec .decStart s = .next (raise .seq (cmdWord .decStart) s) := by
  rw [exec, execDecStart, unlessError_of_noError he, requireMode_of_ne hm]

theorem exec_decFinish_of_ne_dec {s : State} (he : s.err = none) (hm : s.mode ≠ .dec) :
    exec .decFinish s = .next (raise .seq (cmdWord .decFinish) s) := by
  rw [exec, execDecFinish, unlessError_of_noError he, requireMode_of_ne hm]

theorem exec_decFinish_of_dec {s : State} (he : s.err = none) (hm : s.mode = .dec) :
    exec .decFinish s = .next (finishState (cmdWord .decFinish) s) := by
  rw [exec, execDecFinish, unlessError_of_noError he, requireMode_of_eq hm]

theorem finishState_of_short {s : State} (h : s.decRem ≠ 0) (w : Word) : finishState w s = raise .truncated w s :=
  if_pos h

theorem finishState_of_zero {s : State} (h : s.decRem = 0) (w : Word) : finishState w s = { s with mode := .idle } :=
  if_neg (not_not.mpr h)

/-! ### DEC_BYTE (R133) -/

/-- R133, R134: `s` after a walk over `n` bits that emits `syms` and ends at `cur`. -/
def walked (syms : List Byte) (cur : Bits) (n : Nat) (s : State) : State :=
  { s with
    outq := s.outq ++ syms
    cur := cur
    symcnt := s.symcnt + BitVec.ofNat 32 syms.length
    bitcnt := s.bitcnt + BitVec.ofNat 32 n
    decRem := s.decRem - BitVec.ofNat 32 n }

/-- R35: a walk over `n` of the bits left leaves the others. -/
theorem toNat_decRem_walked {n : Nat} {s : State} (hn : n ≤ s.decRem.toNat) (syms : List Byte) (cur : Bits) :
    (walked syms cur n s).decRem.toNat = s.decRem.toNat - n := by
  have hlt := s.decRem.isLt
  have hofNat : (BitVec.ofNat 32 n).toNat = n := toNat_ofNat_of_lt (by omega)
  rw [walked, BitVec.toNat_sub_of_le (by rw [BitVec.le_def, hofNat]; exact hn), hofNat]

/-- R27, R133: DEC_ROOM as a bound on the level of OUTQ. -/
theorem hasRoom_decRoom {s : State} (hd : s.cfg.InRange) :
    hasRoom Config.decRoom s = decide (outqLevel s ≤ s.cfg.outDepth - 8) :=
  decide_eq_decide.mpr (Nat.le_sub_iff_add_le ((by decide : 8 ≤ 33).trans hd.1)).symm

/-- R133, R159: in DEC with no error, DEC_BYTE is the decode step. -/
theorem exec_decByte_of_dec {s : State} (he : s.err = none) (hm : s.mode = .dec) (v : Word) :
    exec (.decByte v) s = decodeStep v s := by
  rw [exec, execDecByte, dataWrite, unlessError_of_noError he, hm]

/-- R134: the walk requires a missing child only where both lookups fail. -/
theorem lookups_of_walkBits_none {t : Table} {cur : Bits} {b : Bool} (h : walkBits t cur [b] = none) :
    tableLeaf t (cur ++ [b]) = none ∧ tableInner t (cur ++ [b]) = false := by
  rw [walkBits] at h
  split at h
  · cases h
  · next hleaf =>
    split at h
    · cases h
    · next hinner => exact ⟨hleaf, Bool.eq_false_iff.mpr hinner⟩

section DecodeStep

variable {s : State} {v : Word} {syms : List Byte} {cur : Bits}

theorem decodeStep_of_zero (h0 : s.decRem = 0) : decodeStep v s = .next (raise .seq v s) := if_pos h0

theorem decodeStep_of_full (h0 : s.decRem ≠ 0) (hr : hasRoom Config.decRoom s = false) :
    decodeStep v s = .next (raise .overrun v s) := by
  rw [decodeStep, if_neg h0, if_pos (by simp [hr])]

theorem decodeStep_of_room (h0 : s.decRem ≠ 0) (hr : hasRoom Config.decRoom s = true) :
    decodeStep v s = ((decBitLoop v (consumedBits v s) s).bind (endCheck v)).outcome := by
  rw [decodeStep, if_neg h0, if_neg (not_not.mpr hr)]

/-- R132, R133: DEC_ROOM is enough for the symbols of at most 8 bits. -/
theorem decBitLoop_of_walk {bs : Bits} (hr : hasRoom Config.decRoom s = true) (hbs : bs.length ≤ 8)
    (hw : walkBits s.table s.cur bs = some (syms, cur)) :
    decBitLoop v bs s = .go (walked syms cur bs.length s) := by
  have hfree : s.outq.length + 8 ≤ s.cfg.outDepth := hasRoom_iff.mp hr
  have hsyms : syms.length ≤ bs.length := walkBits_length hw
  exact decBitLoop_eq v bs s syms cur hw (by omega)

/-- R133: a decode step whose walk meets no missing child ends with the end check. -/
theorem decodeStep_of_walk (h0 : s.decRem ≠ 0) (hr : hasRoom Config.decRoom s = true)
    (hw : walkBits s.table s.cur (consumedBits v s) = some (syms, cur)) :
    decodeStep v s = (endCheck v (walked syms cur (min 8 s.decRem.toNat) s)).outcome := by
  have hlen := consumedBits_length v s
  rw [decodeStep_of_room h0 hr, decBitLoop_of_walk hr (by omega) hw, hlen, bind_go]

/-- R133, R135: the last bit consumed is the last of the stream where no more than 8 are left. -/
theorem decRem_walked_eq_zero_iff :
    (walked syms cur (min 8 s.decRem.toNat) s).decRem = 0 ↔ min 8 s.decRem.toNat = s.decRem.toNat := by
  have hrem := toNat_decRem_walked (s := s) (Nat.min_le_right 8 _) syms cur
  rw [← BitVec.toNat_inj, hrem, show (0 : Word).toNat = 0 from rfl, Nat.sub_eq_zero_iff_le]
  exact ⟨fun hle => le_antisymm (Nat.min_le_right 8 _) hle, Eq.ge⟩

/-- R133: a walk that ends before the stream does, or at the root, raises nothing. -/
theorem decodeStep_accepted (h0 : s.decRem ≠ 0) (hr : hasRoom Config.decRoom s = true)
    (hw : walkBits s.table s.cur (consumedBits v s) = some (syms, cur))
    (hend : min 8 s.decRem.toNat < s.decRem.toNat ∨ cur = []) :
    decodeStep v s = .next (walked syms cur (min 8 s.decRem.toNat) s) := by
  rw [decodeStep_of_walk h0 hr hw, endCheck, if_neg, outcome_go]
  rintro ⟨hzero, hcur⟩
  exact hend.elim (fun hlt => hlt.ne (decRem_walked_eq_zero_iff.mp hzero)) hcur

/-- R133, R135: a walk that ends with the stream off the root raises TRUNCATED. -/
theorem decodeStep_truncated (h0 : s.decRem ≠ 0) (hr : hasRoom Config.decRoom s = true)
    (hw : walkBits s.table s.cur (consumedBits v s) = some (syms, cur))
    (hend : min 8 s.decRem.toNat = s.decRem.toNat) (hcur : cur ≠ []) :
    decodeStep v s = .next (raise .truncated v (walked syms cur (min 8 s.decRem.toNat) s)) := by
  rw [decodeStep_of_walk h0 hr hw, endCheck, if_pos ⟨decRem_walked_eq_zero_iff.mpr hend, hcur⟩, outcome_raised]

/-- R133, R134: a walk that requires a missing child raises NO_CHILD in the state before the failing bit. -/
theorem decodeStep_noChild {before rest : Bits} {b : Bool} (h0 : s.decRem ≠ 0)
    (hr : hasRoom Config.decRoom s = true) (hbits : consumedBits v s = before ++ b :: rest)
    (hw : walkBits s.table s.cur before = some (syms, cur)) (hb : walkBits s.table cur [b] = none) :
    decodeStep v s = .next (raise .noChild v (walked syms cur before.length s)) := by
  have hlen := consumedBits_length v s
  rw [hbits, List.length_append] at hlen
  obtain ⟨hleaf, hinner⟩ := lookups_of_walkBits_none hb
  have hmissing : decBit b v (walked syms cur before.length s) =
      .raised (raise .noChild v (walked syms cur before.length s)) := decBit_missing hleaf hinner
  rw [decodeStep_of_room h0 hr, hbits, decBitLoop_append, decBitLoop_of_walk hr (by omega) hw, bind_go, decBitLoop,
    hmissing]
  rfl

end DecodeStep

/-! ### Errors inside a decode stream (R206) -/

/-- R206: operations without an ABORT keep an error that is recorded. -/
theorem err_eq_of_execAll {is : List Instr} {s t : State} (h : execAll is s = .next t) (hi : .abort ∉ is)
    (he : s.err ≠ none) : t.err = s.err := by
  induction is generalizing s with
  | nil => cases h; rfl
  | cons i is ih =>
    obtain ⟨hne, hrest⟩ := not_or.mp (mt List.mem_cons.mpr hi)
    obtain ⟨u, hu, h⟩ := execAll_cons h
    have hstep := (exec_effect hu).err_eq_of_error he (Ne.symm hne)
    exact (ih h hrest (hstep ▸ he)).trans hstep

theorem decodeOps.abort_notMem {is : List Instr} (h : decodeOps is) : .abort ∉ is := by
  intro hmem
  rcases h _ hmem with hb | ⟨v, hv⟩
  · cases hb
  · cases hv

/-! ### The body of a decode stream (R130, R138) -/

/-- R74: DEC_BYTE writes the byte v[7:0]. -/
theorem dataBytes_decByte (v : Word) (is : List Instr) :
    dataBytes (.decByte v :: is) = dinByte v :: dataBytes is := rfl

/-- R54: DEC_BYTE returns no value. -/
theorem takenBytes_decByte (v : Word) (is : List Instr) (ws : List Word) :
    takenBytes (.decByte v :: is) ws = takenBytes is ws := rfl

/-- R138: an open decode stream for which the operations `is` bring the bits left, `rest`, and pad bits up to a whole
byte; the walk of `rest` from CUR emits `syms` and ends at the root. -/
structure DecodeAwaits (is : List Instr) (rest : Bits) (syms : List Byte) (s : State) : Prop where
  err : s.err = none
  mode : s.mode = .dec
  decRem : s.decRem.toNat = rest.length
  bytes : (dataBytes is).length = (rest.length + 7) / 8
  bits : rest <+: unpack (dataBytes is)
  walk : walkBits s.table s.cur rest = some (syms, [])

/-- R130, R138: what the operations `is` do between two states of a decode stream that consume `n` bits and emit `syms`:
the bytes the host took and those in OUTQ grow by `syms`, and the counters count. -/
structure DecodeProgress (is : List Instr) (n : Nat) (syms : List Byte) (s t : State) : Prop where
  err : t.err = s.err
  mode : t.mode = s.mode
  decRem : t.decRem = s.decRem - BitVec.ofNat 32 n
  bitcnt : t.bitcnt = s.bitcnt + BitVec.ofNat 32 n
  symcnt : t.symcnt = s.symcnt + BitVec.ofNat 32 syms.length
  output : ∃ ws, t.returned = s.returned ++ ws ∧ takenBytes is ws ++ t.outq = s.outq ++ syms

theorem DecodeProgress.nil (s : State) : DecodeProgress [] 0 [] s s where
  err := rfl
  mode := rfl
  decRem := (BitVec.sub_zero _).symm
  bitcnt := (BitVec.add_zero _).symm
  symcnt := (BitVec.add_zero _).symm
  output := ⟨[], by simp, by simp [takenBytes, popWords, validBytes]⟩

/-- R138: an operation beside the data writes emits nothing; the bytes it takes off OUTQ are taken. -/
theorem DecodeProgress.cons_besideStream {i : Instr} {is : List Instr} {n : Nat} {syms : List Byte} {s u t : State}
    (hi : besideStream i = true) (hu : exec i s = .next u) (h : DecodeProgress is n syms u t) :
    DecodeProgress (i :: is) n syms s t := by
  obtain ⟨u', ws, bs, hu', hret, hq, htaken, hframe⟩ := exec_besideStream (s := s) hi
  obtain rfl : u' = u := Host.Outcome.next.inj (hu'.symm.trans hu)
  obtain ⟨ws', hret', hbytes⟩ := h.output
  exact {
    err := by rw [h.err, hframe]
    mode := by rw [h.mode, hframe]
    decRem := by rw [h.decRem, hframe]
    bitcnt := by rw [h.bitcnt, hframe]
    symcnt := by rw [h.symcnt, hframe]
    output := by
      refine ⟨ws ++ ws', by rw [hret', hret, List.append_assoc], ?_⟩
      rw [(htaken is ws').1, List.append_assoc, hbytes, hq, List.append_assoc] }

/-- R133, R138: an accepted byte emits the symbols of its walk. -/
theorem DecodeProgress.cons_decByte {v : Word} {is : List Instr} {k n : Nat} {cur : Bits} {syms syms' : List Byte}
    {s t : State} (h : DecodeProgress is n syms' (walked syms cur k s) t) :
    DecodeProgress (.decByte v :: is) (k + n) (syms ++ syms') s t := by
  obtain ⟨ws, hret, hbytes⟩ := h.output
  exact {
    err := h.err
    mode := h.mode
    decRem := by rw [h.decRem, walked, BitVec.sub_sub, BitVec.ofNat_add]
    bitcnt := by rw [h.bitcnt, walked, BitVec.add_assoc, BitVec.ofNat_add]
    symcnt := by rw [h.symcnt, walked, List.length_append, BitVec.add_assoc, BitVec.ofNat_add]
    output := ⟨ws, hret, by rw [takenBytes_decByte, hbytes, walked, List.append_assoc]⟩ }

/-- R138: an operation beside the data writes leaves the bits awaited as they are. -/
theorem DecodeAwaits.of_besideStream {i : Instr} {is : List Instr} {rest : Bits} {syms : List Byte} {s u : State}
    (hi : besideStream i = true) (hu : exec i s = .next u) (h : DecodeAwaits (i :: is) rest syms s) :
    DecodeAwaits is rest syms u := by
  obtain ⟨u', ws, _, hu', _, _, htaken, hframe⟩ := exec_besideStream (s := s) hi
  obtain rfl : u' = u := Host.Outcome.next.inj (hu'.symm.trans hu)
  have hdata : dataBytes (i :: is) = dataBytes is := (htaken is ws).2
  exact {
    err := by rw [hframe]; exact h.err
    mode := by rw [hframe]; exact h.mode
    decRem := by rw [hframe]; exact h.decRem
    bytes := hdata ▸ h.bytes
    bits := hdata ▸ h.bits
    walk := by rw [hframe]; exact h.walk }

/-- R138: with no operation left no bit is awaited. -/
theorem DecodeAwaits.nil_eq {rest : Bits} {syms : List Byte} {s : State} (h : DecodeAwaits [] rest syms s) :
    rest = [] ∧ syms = [] := by
  obtain rfl : rest = [] := List.prefix_nil.mp h.bits
  obtain ⟨rfl, -⟩ := Prod.mk.inj (Option.some.inj h.walk)
  exact ⟨rfl, rfl⟩

section AwaitedByte

variable {v : Word} {is : List Instr} {rest : Bits} {syms : List Byte} {s : State}
  (h : DecodeAwaits (.decByte v :: is) rest syms s)
include h

/-- R133: a byte is awaited only while bits are left. -/
theorem DecodeAwaits.rest_length_pos : 0 < rest.length := by
  have hbytes := h.bytes
  rw [dataBytes_decByte, List.length_cons] at hbytes
  omega

theorem DecodeAwaits.decRem_ne_zero : s.decRem ≠ 0 := by
  intro h0
  have hrem := h.decRem
  rw [h0] at hrem
  exact h.rest_length_pos.ne hrem

/-- R133, R138: the byte brings the first bits awaited, and those after it bring the others. -/
theorem DecodeAwaits.byte_bits :
    consumedBits v s = rest.take 8 ∧ rest.drop 8 <+: unpack (dataBytes is) := by
  have hbits : rest <+: byteBits (dinByte v) ++ unpack (dataBytes is) := h.bits
  have hlen : (byteBits (dinByte v)).length = 8 := byteBits_length _
  constructor
  · calc consumedBits v s
      _ = (byteBits (dinByte v)).take (min 8 rest.length) := by rw [consumedBits, h.decRem]
      _ = (byteBits (dinByte v) ++ unpack (dataBytes is)).take (min 8 rest.length) :=
        (List.take_append_of_le_length (by omega)).symm
      _ = rest.take 8 := by rw [← List.take_take, ← List.prefix_iff_eq_take.mp hbits]
  · simpa [List.drop_left' hlen] using hbits.drop 8

/-- R133, R138: an awaited byte with DEC_ROOM free is accepted, and the bits after it are awaited. -/
theorem DecodeAwaits.exec_decByte (hr : hasRoom Config.decRoom s = true) :
    ∃ syms₁ syms₂ cur, syms = syms₁ ++ syms₂ ∧
      exec (.decByte v) s = .next (walked syms₁ cur (min 8 rest.length) s) ∧
      DecodeAwaits is (rest.drop 8) syms₂ (walked syms₁ cur (min 8 rest.length) s) := by
  obtain ⟨hconsumed, hbits⟩ := h.byte_bits
  have hwalk := h.walk
  rw [← List.take_append_drop 8 rest, walkBits_append] at hwalk
  obtain ⟨⟨syms₁, cur⟩, hfirst, hwalk⟩ := Option.bind_eq_some_iff.mp hwalk
  obtain ⟨⟨syms₂, cur'⟩, hlater, heq⟩ := Option.map_eq_some_iff.mp hwalk
  obtain ⟨rfl, rfl⟩ := Prod.mk.inj heq
  have hend : min 8 s.decRem.toNat < s.decRem.toNat ∨ cur = [] := by
    by_cases hlong : 8 < rest.length
    · exact .inl (by rw [h.decRem]; omega)
    · rw [List.drop_eq_nil_of_le (by omega)] at hlater
      exact .inr (congrArg Prod.snd (Option.some.inj hlater))
  refine ⟨syms₁, syms₂, cur, rfl, ?_, h.err, h.mode, ?_, ?_, hbits, hlater⟩
  · rw [exec_decByte_of_dec h.err h.mode, decodeStep_accepted h.decRem_ne_zero hr (hconsumed ▸ hfirst) hend, h.decRem]
  · rw [toNat_decRem_walked (by rw [h.decRem]; exact Nat.min_le_right _ _), h.decRem, List.length_drop]
    omega
  · have hbytes := h.bytes
    have hpos := h.rest_length_pos
    rw [dataBytes_decByte, List.length_cons] at hbytes
    rw [List.length_drop]
    omega

end AwaitedByte

/-- R138: a decode stream that the host does not overrun consumes the bits awaited and emits their symbols. -/
theorem decodeProgress_of_execAll {is : List Instr} {rest : Bits} {syms : List Byte} {s t : State}
    (hops : decodeOps is) (hs : DecodeAwaits is rest syms s) (h : execAll is s = .next t)
    (ht : t.err ≠ some .overrun) : DecodeProgress is rest.length syms s t := by
  induction is generalizing rest syms s with
  | nil =>
    obtain ⟨rfl, rfl⟩ := hs.nil_eq
    cases h
    exact .nil _
  | cons i is ih =>
    have hrest : decodeOps is := fun j hj => hops j (List.mem_cons_of_mem i hj)
    obtain ⟨u, hu, h⟩ := execAll_cons h
    rcases hops i List.mem_cons_self with hb | ⟨v, rfl⟩
    · exact (ih hrest (hs.of_besideStream hb hu) h).cons_besideStream hb hu
    · have hr : hasRoom Config.decRoom s = true := not_not.mp fun hfull => by
        rw [exec_decByte_of_dec hs.err hs.mode,
          decodeStep_of_full hs.decRem_ne_zero (Bool.eq_false_iff.mpr hfull)] at hu
        cases hu
        exact ht (err_eq_of_execAll h hrest.abort_notMem nofun)
      obtain ⟨syms₁, syms₂, cur, rfl, hu', hawaits⟩ := hs.exec_decByte hr
      obtain rfl := Host.Outcome.next.inj (hu'.symm.trans hu)
      have hlen : rest.length = min 8 rest.length + (rest.drop 8).length := by rw [List.length_drop]; omega
      rw [hlen]
      exact (ih hrest hawaits h).cons_decByte

end Machine

open Machine

/-! ### The statements -/

/-- Settles O36: the lookups of the walk find a leaf, an internal node, or neither. -/
theorem decodeBitWalksTheTree : Obligations.DecodeBitWalksTheTree := by
  refine fun s b v ht => ⟨fun sym hleaf hr => ?_, fun hinternal => ?_, fun hmissing => ?_⟩
  · exact decBit_leaf ((tableLeaf_eq_some_iff ht.prefixFree).mpr hleaf) hr
  · exact decBit_inner (tableLeaf_eq_none_iff.mpr hinternal.2) (tableInner_of_isInternal (by simp) hinternal)
  · obtain ⟨hleaf, hinner⟩ := lookups_of_not_isNode hmissing
    exact decBit_missing hleaf hinner

/-- Settles O37: the branches of the decode step; the walk over its bits is the engine's loop, and the end check tells
an accepted byte from a truncated stream. -/
theorem decodeByteWalksItsBits : Obligations.DecodeByteWalksItsBits := by
  intro s v he hm hd k bits after fail
  rw [exec_decByte_of_dec he hm]
  have hroom := hasRoom_decRoom hd
  refine ⟨fun h0 => decodeStep_of_zero h0,
    fun h0 hlevel => decodeStep_of_full h0 (hroom.trans (decide_eq_false (Nat.not_le.mpr hlevel))),
    fun h0 hlevel => ?_⟩
  have hr := hroom.trans (decide_eq_true hlevel)
  exact ⟨fun syms cur hw => ⟨decodeStep_accepted h0 hr hw, decodeStep_truncated h0 hr hw⟩,
    fun before b rest syms cur hbits hw hb => decodeStep_noChild h0 hr hbits hw hb⟩

/-- Settles O40: each codeword leads from the root to its leaf and back to the root. -/
theorem walkInvertsEncoding : Obligations.WalkInvertsEncoding :=
  fun _ _ _ ht h => walkBits_of_encodeBits ht h

/-- Settles O41: after DEC_START the payload is awaited, whose walk gives the symbols; without OVERRUN the operations
consume it. -/
theorem decodeStreamReturnsTheSymbols : Obligations.DecodeStreamReturnsTheSymbols := by
  intro s s1 t ops ss p he hm htable hops hp hlt hdecBits hbytes hbits hstart hrun ht
  rw [exec_decStart_of_idle he hm] at hstart
  cases hstart
  have hawaits : DecodeAwaits ops p ss
      { s with mode := .dec, cur := [], outq := [], decRem := s.decBits, bitcnt := 0, symcnt := 0 } :=
    { err := he
      mode := rfl
      decRem := by rw [hdecBits]; exact toNat_ofNat_of_lt hlt
      bytes := hbytes
      bits := hbits
      walk := walkBits_of_encodeBits htable hp }
  have hprog := decodeProgress_of_execAll hops hawaits hrun ht
  obtain ⟨ws, hret, houtput⟩ := hprog.output
  have hterr : t.err = none := hprog.err.trans he
  have hrem : t.decRem = 0 := by rw [hprog.decRem, hdecBits]; exact BitVec.sub_self _
  refine ⟨hterr, ?_, hrem, hprog.bitcnt.trans (BitVec.zero_add _), hprog.symcnt.trans (BitVec.zero_add _), ?_⟩
  · rw [hret, List.drop_left]
    exact houtput
  · rw [exec_decFinish_of_dec hterr hprog.mode, finishState_of_zero hrem]

/-- Settles O42: the codewords build a trie, whose leaves are the entries and whose nodes are their prefixes. -/
theorem storedTrieAgreesWithTheTable : Obligations.StoredTrieAgreesWithTheTable := by
  intro t ht
  obtain ⟨tr, htr⟩ := trieOf_isSome (fun _ he => ht.codeword_ne_nil he) ht.pairwise_incomparable
  refine ⟨tr, htr, fun p hp => ⟨fun sym => ?_, ?_⟩⟩
  · rw [trieAt_trieOf_eq_leaf_iff htr, tableLeaf_eq_some_iff ht.prefixFree]
  · rw [trieAt_trieOf_eq_empty_iff htr hp, isNode_iff_of_ne_nil hp]
    simp

/-- Settles O35: the two branches of the mode check; the recorded word is DEC_START's. -/
theorem decodeStartOpensAStream : Obligations.DecodeStartOpensAStream :=
  fun _ he => ⟨exec_decStart_of_idle he, exec_decStart_of_ne_idle he⟩

/-- Settles O38: the mode check, and in DEC the bits left; the recorded word is DEC_FINISH's. -/
theorem decodeFinishCloses : Obligations.DecodeFinishCloses := by
  refine fun s he => ⟨exec_decFinish_of_ne_dec he, fun hm h0 => ?_, fun hm h0 => ?_⟩
  · rw [exec_decFinish_of_dec he hm, finishState_of_short h0]; rfl
  · rw [exec_decFinish_of_dec he hm, finishState_of_zero h0]

end Sys2Proof

/-! PROOFS. The statements of spec/43_control.md: the dispatch of command words and data writes, NOP and ABORT, and the
reads and writes of the registers, with the fields of CTRL and DATA_OUT and the level of `irq` that they turn on. -/

namespace Sys2Proof

namespace Machine

/-! ### A word written to CMD (R152) -/

/-- R152: a legal command word runs its command. -/
theorem performAccess_command {s : State} {w : Word} {i : Instr} (hr : s.rstAsserted = false)
    (h : decodeCmd w = some i) : performAccess (writeOf .cmd w) s = exec i s :=
  performAccess_of_ok hr (decode_writeOf_cmd h)

/-- R152: in the error state a command other than ABORT is ignored. -/
theorem exec_command_of_error {s : State} {w : Word} {i : Instr} (he : s.err ≠ none) (h : decodeCmd w = some i)
    (hi : i ≠ .abort) : exec i s = .next s := by
  rcases command_of_decodeCmd h with hplain | ⟨sym, len, rfl⟩ | ⟨sym, rfl⟩
  · simp only [plainCommands, List.mem_cons, List.not_mem_nil, or_false, hi, false_or] at hplain
    rcases hplain with rfl | rfl | rfl | rfl | rfl | rfl
    · rfl
    all_goals exact unlessError_of_error he _
  · exact unlessError_of_error he _
  · exact unlessError_of_error he _

/-- R152: in the error state a word written to CMD that is not ABORT's is ignored, legal or not. -/
theorem performAccess_cmd_of_error {s : State} {w : Word} (hr : s.rstAsserted = false) (he : s.err ≠ none)
    (hw : decodeCmd w ≠ some .abort) : performAccess (writeOf .cmd w) s = .next s := by
  cases hd : decodeCmd w with
  | none => rw [performAccess_illegalCommand hr hd, illegalCommand, unlessError_of_error he]
  | some i =>
    have hi : i ≠ .abort := by rintro rfl; exact hw hd
    rw [performAccess_command hr hd, exec_command_of_error he hd hi]

/-! ### A word written to DATA_IN (R159) -/

/-- R159: in the error state a data write is dropped. -/
theorem dataWrite_of_error {s : State} (he : s.err ≠ none) (v : Word) : dataWrite v s = .next s :=
  unlessError_of_error he _

/-- R159 DIN_IDLE: in IDLE a data write raises SEQ with the word written. -/
theorem dataWrite_of_idle {s : State} (he : s.err = none) (hm : s.mode = .idle) (v : Word) :
    dataWrite v s = .next (raise .seq v s) := by
  rw [dataWrite, unlessError_of_noError he, hm]

/-! ### The level of `irq` (R210) and what ABORT leaves of it (R151) -/

theorem outAvail_iff (s : State) : outAvail s = true ↔ s.outq ≠ [] := by
  rw [outAvail, decide_eq_true_iff, outqLevel, List.length_pos_iff]

/-- R210: `irq` is 1 when one of the three enabled conditions holds. -/
theorem irq_iff (s : State) :
    irq s = true ↔ (s.ieErr = true ∧ s.err ≠ none) ∨ (s.ieOut = true ∧ s.outq ≠ []) ∨
      (s.ieIn = true ∧ inRdy s = true) := by
  simp only [irq, Bool.or_eq_true, Bool.and_eq_true, Option.isSome_iff_ne_none, outAvail_iff, or_assoc]

/-- R26: STATUS shows the level of `irq` in bit 16. -/
theorem readReg_status_irq (s : State) : (readReg .status s).getLsbD 16 = irq s := by
  obtain ⟨-, -, -, -, -, -, hirq, -⟩ := statusWord_fields s
  exact getLsbD_of_extractLsb' hirq

/-- R151: after ABORT no enabled condition holds. -/
theorem irq_abortState (s : State) : irq (abortState s) = false := by
  rw [Bool.eq_false_iff, Ne, irq_iff, inRdy_of_idle (abortState_mode s)]
  simp

/-- R151: after ABORT every field of STATUS is 0. -/
theorem statusWord_abortState (s : State) : statusWord (abortState s) = 0 := by
  rw [statusWord, irq_abortState, inRdy_of_idle (abortState_mode s), decEnd_eq]
  simp [outAvail, outqLevel, errCode, modeCode, field]

/-! ### CTRL (R25, R153) -/

/-- R25: the fields of CTRL do not overlap. -/
theorem ctrlWord_fields (s : State) :
    (ctrlWord s).extractLsb' 0 1 = BitVec.ofBool s.ieErr ∧
    (ctrlWord s).extractLsb' 1 1 = BitVec.ofBool s.ieOut ∧
    (ctrlWord s).extractLsb' 2 1 = BitVec.ofBool s.ieIn ∧
    (ctrlWord s).extractLsb' 3 29 = 0#29 := by
  simp (disch := omega) [ctrlWord, BitVec.extractLsb'_or, extractLsb'_field_same, extractLsb'_field_other]

/-- R153: with the enables taken from a word, CTRL reads bits [2:0] of it. -/
theorem ctrlWord_of_enables {s : State} {v : Word} (herr : s.ieErr = v.getLsbD 0) (hout : s.ieOut = v.getLsbD 1)
    (hin : s.ieIn = v.getLsbD 2) : ctrlWord s = v &&& 0x00000007#32 := by
  obtain ⟨hbit0, hbit1, hbit2, hzero⟩ := ctrlWord_fields s
  have hmask : ∀ i < 32, (0x00000007#32).getLsbD i = decide (i < 3) := by decide
  apply BitVec.eq_of_getLsbD_eq
  intro i hi
  rw [BitVec.getLsbD_and, hmask i hi]
  match i with
  | 0 => rw [getLsbD_of_extractLsb' hbit0, herr]; exact (Bool.and_true _).symm
  | 1 => rw [getLsbD_of_extractLsb' hbit1, hout]; exact (Bool.and_true _).symm
  | 2 => rw [getLsbD_of_extractLsb' hbit2, hin]; exact (Bool.and_true _).symm
  | i + 3 =>
    have hbit := congrArg (·.getLsbD i) hzero
    simpa [Nat.add_comm 3 i, show i < 29 by omega] using hbit

/-! ### The word of a read of DATA_OUT (R31, R75) -/

/-- R31, R75: VALID, the bits that read 0, and BYTE. -/
theorem outWord_fields (b : Byte) :
    (0x80000000#32 ||| field 0 b).getLsbD 31 = true ∧
    (0x80000000#32 ||| field 0 b).extractLsb' 8 23 = 0#23 ∧
    (0x80000000#32 ||| field 0 b).extractLsb' 0 8 = b := by
  have hvalid : 0x80000000#32 = field 31 1#1 := rfl
  rw [hvalid]
  simp (disch := omega) [BitVec.extractLsb'_or, extractLsb'_field_same, extractLsb'_field_other, getElem_field]

/-! ### Reads and ignored writes of the registers (R157, R158) and the staging words (R154) -/

/-- R157: a read of a register other than DATA_OUT returns its value. -/
theorem exec_regRd {r : Reg} (h : r ≠ .dataOut) (s : State) : exec (.regRd r) s = .next (respond (readReg r s) s) :=
  congrArg Host.Outcome.next (readAccess_of_ne h s)

/-- R154: a staging word that was written reads back, and the others read as before. -/
theorem readReg_cw_set (s : State) (j k : Fin 8) (v : Word) :
    readReg (.cw j) { s with cw := s.cw.set k v } = if j = k then v else readReg (.cw j) s := by
  simp [readReg, Vector.getElem_set, Fin.ext_iff, eq_comm]

end Machine

open Machine

/-! ### The statements -/

/-- Settles O9: only the word 1 decodes to ABORT; the other branches go by the error state and the decoder. -/
theorem commandDispatch : Obligations.CommandDispatch := by
  intro s w hr
  have habort : decodeCmd w = some .abort ↔ w = 0x00000001#32 := decodeCmd_eq_some_iff rfl w
  refine ⟨fun _ hw => performAccess_command hr (habort.mpr hw),
    fun he hw => performAccess_cmd_of_error hr he (mt habort.mp hw), fun he hd => ?_,
    fun i _ hd => performAccess_command hr hd⟩
  exact (performAccess_illegalCommand hr hd).trans (unlessError_of_noError he _)

/-- Settles O13: the two cases of the pop, and the fields of the word it returns. -/
theorem outPopTakesTheOldestByte : Obligations.OutPopTakesTheOldestByte :=
  fun _ => ⟨fun hr => performAccess_read hr rfl, fun _ hr => performAccess_write_ignored hr rfl rfl,
    fun h => congrArg Host.Outcome.next (popOutput_nil h),
    fun b _ h => ⟨_, congrArg Host.Outcome.next (popOutput_cons h), outWord_fields b⟩⟩

/-- Settles O14: what CTRL, STATUS and `irq` show of the enables, at the state with the new ones. -/
theorem ctrlWriteSetsTheEnables : Obligations.CtrlWriteSetsTheEnables :=
  fun _ _ => ⟨_, rfl, rfl, ctrlWord_of_enables rfl rfl rfl, readReg_status_irq _, irq_iff _⟩

/-- Settles O16: `exec_regRd`, at the register or at its offset, and the fields of CTRL. -/
theorem registerReadsChangeNothing : Obligations.RegisterReadsChangeNothing := by
  refine ⟨fun s r hwf hne => ⟨exec_regRd hne s, fun hr => ?_⟩, fun s => ?_⟩
  · have hd : decode s.mode (readOf r) = .ok (.regRd r) := by rw [decode_readOf hwf, decodeRead_of_ne hne]
    exact (performAccess_of_ok hr hd).trans (exec_regRd hne s)
  · obtain ⟨herr, hout, hin, hzero⟩ := ctrlWord_fields s
    exact ⟨rfl, rfl, rfl, rfl, rfl, rfl, rfl, fun _ => rfl, rfl, rfl, fun _ => rfl, getLsbD_of_extractLsb' herr,
      getLsbD_of_extractLsb' hout, getLsbD_of_extractLsb' hin, hzero⟩

/-- Settles O10: the access is the data write, which the error state drops and the mode dispatches. -/
theorem dataWriteDispatch : Obligations.DataWriteDispatch :=
  fun _ v hr => ⟨fun he => (performAccess_dataIn hr).trans (dataWrite_of_error he v),
    fun _ _ => performAccess_dataIn hr, fun he hm => dataWrite_of_idle he hm v,
    fun _ _ => performAccess_dataIn hr, fun _ _ => performAccess_dataIn hr⟩

/-- Settles O11: the word 0 is NOP's, and the write of an RO or a reserved register decodes to REG_WI. -/
theorem nopAndIgnoredWritesChangeNothing : Obligations.NopAndIgnoredWritesChangeNothing := by
  refine ⟨fun _ => rfl, fun _ hr => performAccess_command (w := 0) (i := .nop) hr rfl, fun _ _ _ _ _ => rfl,
    fun s r v hr hwf hi => ?_⟩
  have hd : decode s.mode (writeOf r v) = .ok (.regWi r v) :=
    (decode_writeOf hwf).trans (decodeWrite_of_writeIgnored hi)
  exact performAccess_of_ok hr hd

/-- Settles O12: the state ABORT leaves is `abortState`, where STATUS and `irq` are 0. -/
theorem abortEndsStreamAndError : Obligations.AbortEndsStreamAndError :=
  fun s => ⟨abortState s, rfl, rfl, statusWord_abortState s, irq_abortState s⟩

/-- Settles O15: the written word alone changes, and a staging word reads back from its own place. -/
theorem stagingAndBitCountWritesStore : Obligations.StagingAndBitCountWritesStore := by
  refine fun s v => ⟨rfl, fun t h => ?_, fun k => ⟨_, rfl, rfl, fun j => readReg_cw_set s j k v⟩⟩
  cases h
  rfl

end Sys2Proof

/-! PROOFS. The statements of spec/49_host_reference.md: the leaves and the depth of the tree that Build makes, the code
table generated from it and its load into the engine, and the container read back from the bytes written. -/

namespace Sys2Proof

namespace HostRef

open Machine

/-! ### Build (R171, R172, R173) -/

/-- R172: a round takes two nodes out and puts back the node over them. -/
theorem pairUp_round (fuel next : Nat) (x y : HTree) (rest : List HTree) :
    ∃ a b left, (a :: b :: left).Perm (x :: y :: rest) ∧
      pairUp (fuel + 1) next (x :: y :: rest) =
        pairUp fuel (next + 1) (left ++ [.node a b (a.freq + b.freq) next]) := by
  have hfirst := takeLeast_perm x (y :: rest)
  rw [pairUp]
  generalize takeLeast x (y :: rest) = first at hfirst ⊢
  obtain ⟨a, others⟩ := first
  cases others with
  | nil => simpa using hfirst.length_eq
  | cons z zs => exact ⟨a, _, _, ((takeLeast_perm z zs).cons a).trans hfirst, rfl⟩

/-- R172, R173: a round for each node leaves one tree, and its leaves are those of all the nodes. -/
theorem pairUp_eq_some {fuel : Nat} (next : Nat) {ts : List HTree} (hne : ts ≠ []) (hfuel : ts.length ≤ fuel) :
    ∃ t, pairUp fuel next ts = some t ∧ t.syms.Perm (ts.flatMap HTree.syms) := by
  induction fuel generalizing next ts with
  | zero => exact absurd (List.eq_nil_of_length_eq_zero (Nat.le_zero.mp hfuel)) hne
  | succ fuel ih =>
    match ts with
    | [t] => exact ⟨t, rfl, by simp⟩
    | x :: y :: rest =>
      obtain ⟨a, b, left, hperm, hround⟩ := pairUp_round fuel next x y rest
      have hlen := hperm.length_eq
      simp only [List.length_cons] at hlen hfuel
      obtain ⟨t, ht, hsyms⟩ := ih (next + 1) (ts := left ++ [.node a b (a.freq + b.freq) next]) (by simp)
        (by simp; omega)
      refine ⟨t, hround.trans ht, hsyms.trans (.trans ?_ (hperm.flatMap_right HTree.syms))⟩
      simpa [HTree.syms] using
        List.perm_append_comm (l₁ := left.flatMap HTree.syms) (l₂ := a.syms ++ b.syms)

/-- R171, R173: the leaves of the tree Build makes are the symbols of the frequency table. -/
theorem build_eq_ok {freq : Freq} (h : freq ≠ []) :
    ∃ tree, build freq = .ok tree ∧ tree.syms.Perm (freq.map Prod.fst) := by
  obtain ⟨hsyms, hlen⟩ := leaves_syms 0 freq
  have hne : leaves 0 freq ≠ [] := by rwa [Ne, ← List.length_eq_zero_iff, hlen, List.length_eq_zero_iff]
  obtain ⟨tree, htree, hperm⟩ := pairUp_eq_some freq.length hne hlen.le
  exact ⟨tree, by rw [build, htree], hsyms ▸ hperm⟩

/-- R171. -/
theorem build_nil : build [] = .error .emptyInputError := rfl

/-- R173: the symbols at the leaves of a tree that Build made. -/
theorem syms_perm_of_build {freq : Freq} {tree : HTree} (h : build freq = .ok tree) :
    tree.syms.Perm (freq.map Prod.fst) := by
  have hne : freq ≠ [] := by rintro rfl; cases h
  obtain ⟨tree', htree', hperm⟩ := build_eq_ok hne
  obtain rfl : tree' = tree := Except.ok.inj (htree'.symm.trans h)
  exact hperm

/-! ### Generate (R175, R176, R177) -/

/-- R175, R177 (a): codewords below different edges of a node are not prefixes of each other. -/
theorem not_prefix_of_branches {p u v : Bits} {c d : Bool} (hcd : c ≠ d) (hu : p ++ [c] <+: u) (hv : p ++ [d] <+: v) :
    ¬ u <+: v := by
  intro huv
  have hbranch : p ++ [c] <+: p ++ [d] := List.prefix_of_prefix_length_le (hu.trans huv) hv (by simp)
  exact hcd (by simpa using hbranch)

/-- R177 (a): the paths to different leaves part at a node, one to the left and one to the right. -/
theorem walk_prefixFree (t : HTree) (p : Bits) : PrefixFree (walk t p) := by
  induction t generalizing p with
  | leaf s =>
    intro a ha b hb hne
    rw [List.mem_singleton.mp ha, List.mem_singleton.mp hb] at hne
    exact absurd rfl hne
  | node l r f o ihl ihr =>
    intro a ha b hb hne
    rcases List.mem_append.mp ha with ha | ha <;> rcases List.mem_append.mp hb with hb | hb
    · exact ihl _ a ha b hb hne
    · exact not_prefix_of_branches (by decide) (walk_path l _ a ha).1 (walk_path r _ b hb).1
    · exact not_prefix_of_branches (by decide) (walk_path r _ a ha).1 (walk_path l _ b hb).1
    · exact ihr _ a ha b hb hne

theorem generate_syms (tree : HTree) : (generate tree).map Prod.fst = tree.syms := by
  cases tree with
  | leaf => rfl
  | node l r f o => exact walk_syms _ []

theorem generate_prefixFree (tree : HTree) : PrefixFree (generate tree) := by
  cases tree with
  | leaf s f o => exact walk_prefixFree (.leaf s f o) [false]
  | node l r f o => exact walk_prefixFree _ []

/-- R173, R177 (c): the codewords of a tree of at most 256 leaves are non-empty and of at most CODE_LEN_MAX bits. -/
theorem generate_lengthsOk {tree : HTree} (h : tree.syms.length ≤ 256) : LengthsOk (generate tree) := by
  intro e he
  rw [Config.codeLenMax]
  cases tree with
  | leaf s f o => rw [List.mem_singleton.mp he]; simp
  | node l r f o =>
    have hmax := (walk_path _ [] e he).2
    have hpos : 0 < e.2.length := by
      rcases List.mem_append.mp he with he | he
      · exact Nat.lt_of_lt_of_le (by simp) (walk_path l _ e he).1.length_le
      · exact Nat.lt_of_lt_of_le (by simp) (walk_path r _ e he).1.length_le
    simp only [List.length_nil] at hmax
    omega

/-! ### The generated code table (R40, R184) -/

theorem codeTable_concat (codes : List (Byte × Bits)) (e : Byte × Bits) :
    codeTable (codes ++ [e]) = tableSet (codeTable codes) e.1 e.2 := by simp [codeTable]

theorem codeTable_wf (codes : List (Byte × Bits)) : Table.wf (codeTable codes) := by
  induction codes using List.reverseRecOn with
  | nil => exact .nil
  | append_singleton codes e ih => rw [codeTable_concat]; exact tableSet_wf ih _ _

theorem mem_of_mem_codeTable {codes : List (Byte × Bits)} {x : Byte × Bits} (h : x ∈ codeTable codes) : x ∈ codes := by
  induction codes using List.reverseRecOn with
  | nil => exact h
  | append_singleton codes e ih =>
    rw [codeTable_concat] at h
    rcases mem_tableSet h with rfl | h
    · simp
    · exact List.mem_append_left _ (ih h)

/-- The symbols that have an entry in the code table are those of the list. -/
theorem isSome_tableGet_codeTable (codes : List (Byte × Bits)) (sym : Byte) :
    (tableGet (codeTable codes) sym).isSome ↔ sym ∈ codes.map Prod.fst := by
  induction codes using List.reverseRecOn with
  | nil => simp [codeTable, tableGet]
  | append_singleton codes e ih =>
    rw [codeTable_concat, tableGet_tableSet, List.map_append, List.mem_append, ← ih]
    by_cases h : sym = e.1 <;> simp [h]

/-- R40, R177: a list of codewords that is prefix-free and has its lengths in range makes a code table of the spec. -/
theorem codeTable_tableOk {codes : List (Byte × Bits)} (hl : LengthsOk codes) (hp : PrefixFree codes) :
    TableOk (codeTable codes) where
  wf := codeTable_wf codes
  lengths e he := hl e (mem_of_mem_codeTable he)
  prefixFree a ha b hb := hp a (mem_of_mem_codeTable ha) b (mem_of_mem_codeTable hb)

/-- R6: different symbols are at most 256. -/
theorem length_le_of_nodup {l : List Byte} (h : l.Nodup) : l.length ≤ 256 := by
  have hcard : Fintype.card Byte = 256 := FinEnum.card_eq_fintypeCard.symm
  exact hcard ▸ h.length_le_card

/-! ### Loading a table (R80, R184) -/

/-- An engine outside reset, in IDLE with no error, that holds the table `t`: the states of a load that meets no error. -/
structure IdleWith (t : Table) (s : State) : Prop where
  running : s.rstAsserted = false
  noError : s.err = none
  idle : s.mode = .idle
  table : s.table = t

/-- R79: a command is one access of the driver. -/
theorem command_of_exec {i : Instr} {s t : State} (hr : s.rstAsserted = false) (hwf : i.wellFormed = true)
    (hsel : i.selectedIn s.mode = true) (hx : exec i s = .next t) : command i s = .ok t :=
  access_of_exec hr (decode_encode hwf hsel) hx

/-- R151, R184: ABORT readies the engine for the load, in every mode and in the error state. -/
theorem command_abort_ok {s : State} (hr : s.rstAsserted = false) :
    ∃ s', command .abort s = .ok s' ∧ IdleWith s.table s' :=
  ⟨abortState s, command_of_exec hr rfl rfl rfl, hr, rfl, rfl, rfl⟩

/-- R92, R184: TBL_CLEAR leaves the empty table. -/
theorem command_tblClear_ok {t : Table} {s : State} (h : IdleWith t s) :
    ∃ s', command .tblClear s = .ok s' ∧ IdleWith [] s' := by
  obtain ⟨hr, he, hm, -⟩ := h
  have hexec : exec .tblClear s = .next { s with table := [], tblInfo := 0 } := by
    rw [exec, execTblClear, unlessError_of_noError he, requireMode_of_eq hm]
  exact ⟨_, command_of_exec hr rfl rfl hexec, hr, he, hm, rfl⟩

/-- R93, R184: in a code table the next entry's symbol is above those before it, and its codeword clashes with none. -/
theorem next_entry_of_tableOk {t es : Table} {e : Byte × Bits} (h : TableOk (t ++ e :: es)) :
    (∀ x ∈ t, x.1 < e.1) ∧ tableConflict t e.2 = false := by
  have hlt : ∀ x ∈ t, x.1 < e.1 := fun x hx => (List.pairwise_append.mp h.wf).2.2 x hx e List.mem_cons_self
  refine ⟨hlt, ?_⟩
  rw [Bool.eq_false_iff, Ne, tableConflict_iff]
  rintro ⟨x, hx, hclash⟩
  have hne : x.1 ≠ e.1 := BitVec.ne_of_lt (hlt x hx)
  have hxm : x ∈ t ++ e :: es := List.mem_append_left _ hx
  have hem : e ∈ t ++ e :: es := List.mem_append_right _ List.mem_cons_self
  exact hclash.elim (h.prefixFree e hem x hxm hne.symm) (h.prefixFree x hxm e hem hne)

/-- R80, R184: `tbl.load` of the next entry of a code table puts it behind those loaded. -/
theorem tblLoad_next_ok {t es : Table} {e : Byte × Bits} {s : State} (h : IdleWith t s) (ht : TableOk (t ++ e :: es)) :
    ∃ s', tblLoad e s = .ok s' ∧ IdleWith (t ++ [e]) s' := by
  obtain ⟨hr, he, hm, rfl⟩ := h
  obtain ⟨hlt, hclash⟩ := next_entry_of_tableOk ht
  have hnew : tableGet s.table e.1 = none := tableGet_eq_none.mpr fun x hx => BitVec.ne_of_lt (hlt x hx)
  have hlen := ht.lengths e (List.mem_append_right _ List.mem_cons_self)
  obtain ⟨cw, hload⟩ := tblLoad_ok hr he hm hlen hnew hclash
  exact ⟨_, hload, hr, he, hm, tableSet_last hlt e.2⟩

/-- R80, R184: loading the rest of a code table in ascending symbol order completes it. -/
theorem tblLoads_ok {t es : Table} {s : State} (h : IdleWith t s) (ht : TableOk (t ++ es)) :
    ∃ s', tblLoads es s = .ok s' ∧ IdleWith (t ++ es) s' := by
  induction es generalizing t s with
  | nil => exact ⟨s, rfl, by rwa [List.append_nil]⟩
  | cons e es ih =>
    obtain ⟨u, hload, hu⟩ := tblLoad_next_ok h ht
    rw [List.append_cons] at ht ⊢
    obtain ⟨s', hloads, hs'⟩ := ih hu ht
    exact ⟨s', by rw [tblLoads, hload]; exact hloads, hs'⟩

/-- R79: the value and the state that a read of STATUS gives the driver. -/
theorem rd_status {s : State} (hr : s.rstAsserted = false) :
    rd .status s = .ok (statusWord s, respond (statusWord s) s) := by
  have haccess : access (readOf .status) s = .ok (respond (statusWord s) s) :=
    access_of_exec hr (decode_readOf rfl) rfl
  rw [rd, haccess]
  simp

/-- R184, R187: with no error the check of STATUS.ERR passes. -/
theorem checkErr_ok {t : Table} {s : State} (h : IdleWith t s) (phase : Phase) :
    ∃ s', checkErr phase s = .ok s' ∧ IdleWith t s' := by
  obtain ⟨hr, he, hm, ht⟩ := h
  have hcode : (statusWord s).extractLsb' 0 4 = 0#4 := (statusWord_fields s).1.trans (he ▸ rfl)
  have hnone : hostErrorOf phase 0#4 = none := by cases phase <;> rfl
  refine ⟨respond (statusWord s) s, ?_, hr, he, hm, ht⟩
  simp only [checkErr, pollStatus, rd_status hr, hcode, hnone]
  rfl

/-- R184: the load of a code table succeeds from every state outside reset, and leaves that table. -/
theorem loadTable_ok {codes : Table} (ht : TableOk codes) {s : State} (hr : s.rstAsserted = false) (phase : Phase) :
    ∃ s', loadTable phase codes s = .ok s' ∧ IdleWith codes s' := by
  obtain ⟨s₁, habort, h₁⟩ := command_abort_ok hr
  obtain ⟨s₂, hclear, h₂⟩ := command_tblClear_ok h₁
  obtain ⟨s₃, hloads, h₃⟩ := tblLoads_ok (es := codes) h₂ ht
  obtain ⟨s', hcheck, h'⟩ := checkErr_ok h₃ phase
  exact ⟨s', by simp only [loadTable, habort, hclear, hloads, Except.bind, hcheck], h'⟩

/-! ### The container (R178 to R183) -/

/-- R180, R183: a record with a codeword in range reads back. -/
theorem readRecord_record {e : Byte × Bits} (h : 1 ≤ e.2.length ∧ e.2.length ≤ 255) (rest : List Byte) :
    readRecord (record e ++ rest) = .ok (e, rest) := by
  have hrange : ¬ ((e.2.length : Int) < 1 ∨ 255 < (e.2.length : Int)) := by omega
  have hbits : (unpack (pack e.2)).take e.2.length = e.2 := by rw [unpack_pack, List.take_left]
  simp only [record, List.cons_append, List.append_assoc, readRecord]
  rw [readInt32_le32 _ (by omega)]
  simp only [if_neg hrange, Int.toNat_natCast, takeBytes_append _ _ _ (pack_length e.2), hbits]

/-- R178, R183: records with codewords in range read back in their order. -/
theorem readRecords_flatMap {codes : List (Byte × Bits)} (h : ∀ e ∈ codes, 1 ≤ e.2.length ∧ e.2.length ≤ 255)
    (rest : List Byte) : readRecords codes.length (codes.flatMap record ++ rest) = .ok (codes, rest) := by
  induction codes with
  | nil => rfl
  | cons e codes ih =>
    obtain ⟨he, hcodes⟩ := List.forall_mem_cons.mp h
    rw [List.length_cons, readRecords, List.flatMap_cons, List.append_assoc, readRecord_record he]
    simp only [ih hcodes]

end HostRef

open Machine

/-! ### The statements -/

/-- Settles O58: `build` on no entry, and the leaves of its tree on the walk, which bound the length of each path. -/
theorem buildGivesOneLeafPerSymbol : Obligations.BuildGivesOneLeafPerSymbol := by
  refine fun freq => ⟨fun h => h ▸ HostRef.build_nil, fun h => ?_⟩
  obtain ⟨tree, htree, hperm⟩ := HostRef.build_eq_ok h
  refine ⟨tree, htree, (HostRef.walk_syms tree []).symm ▸ hperm, fun e he => ?_⟩
  have hpath := (HostRef.walk_path tree [] e he).2
  rwa [hperm.length_eq, List.length_map, List.length_nil, Nat.zero_add] at hpath

/-- Settles O59: Generate gives the properties that every load checks, entry by entry. -/
theorem generatedTableIsAccepted : Obligations.GeneratedTableIsAccepted := by
  intro freq tree hnodup hbuild
  have hperm := HostRef.syms_perm_of_build hbuild
  have hlen : tree.syms.length ≤ 256 := HostRef.length_le_of_nodup (hperm.nodup_iff.mpr hnodup)
  have hok := HostRef.codeTable_tableOk (HostRef.generate_lengthsOk hlen) (HostRef.generate_prefixFree tree)
  refine ⟨hok, fun sym => ?_, fun s phase hr => ?_⟩
  · rw [HostRef.isSome_tableGet_codeTable, HostRef.generate_syms, hperm.mem_iff]
  · obtain ⟨t, hload, -, he, hm, ht⟩ := HostRef.loadTable_ok hok hr phase
    exact ⟨t, hload, he, hm, ht⟩

/-- Settles O60: each field is read back from the front of the bytes, and the checks of the reader pass. -/
theorem readingAContainerReversesWriting : Obligations.ReadingAContainerReversesWriting := by
  intro c hmin hmax hcodes hbits hpayload
  have hcount : ¬ ((c.codes.length : Int) < 1 ∨ 256 < (c.codes.length : Int)) := by omega
  have hsign : ¬ (c.bitCount : Int) < 0 := by omega
  simp only [HostRef.readContainer, HostRef.writeContainer, List.append_assoc]
  rw [HostRef.readInt32_le32 _ (by omega)]
  simp only [if_neg hcount, Int.toNat_natCast, HostRef.readRecords_flatMap hcodes, HostRef.readInt32_le32 _ hbits,
    if_neg hsign, hpayload, ne_eq, not_true_eq_false, if_false]

end Sys2Proof

/-! PROOFS. The statements of spec/60_exceptions.md: the level of `irq`, what error entry leaves of the state and which
errors it records, and what the error state ignores and keeps. -/

namespace Sys2Proof

namespace Machine

/-! ### The level of `irq` (R210) -/

/-- R210: `irq` is 0 where no source is enabled. -/
theorem irq_of_disabled {s : State} (herr : s.ieErr = false) (hout : s.ieOut = false) (hin : s.ieIn = false) :
    irq s = false := by
  simp [irq, herr, hout, hin]

/-! ### Error entry (R202, R204) -/

/-- R202, R204: an operation that ends in a new error has performed the error entry of an error that its row lists, at
the state it began in or, where it is a data write in DEC, at a state that the walk over its bits reached. -/
theorem Effect.eq_raise {i : Instr} {s t : State} {c : Cause} (h : Effect i s t) (he : s.err = none)
    (hc : t.err = some c) :
    ∃ w u, t = raise c w u ∧ (i.selectedIn s.mode = true → c ∈ mayRaise i) ∧
      (u = s ∨ (s.mode = .dec ∧ IsDataWrite i w) ∧ ∃ n, WalkFrame n s u) := by
  have hkept : t.err ≠ s.err := by rw [hc, he]; nofun
  cases h with
  | raised _ w _ hmay _ h =>
    subst h; cases hc
    exact ⟨w, s, rfl, hmay, .inl rfl⟩
  | truncated v u _ hm hi _ _ hu _ h | noChild v _ u _ hm hi _ hu h =>
    subst h; cases hc
    refine ⟨v, u, rfl, fun hsel => ?_, .inr ⟨⟨hm, hi⟩, _, decBitLoop_go_frame hu⟩⟩
    rw [hi.mayRaise_eq hsel, hm]; decide
  | abort _ h => subst h; cases hc
  | pop _ h => exact absurd (by rw [h, popOutput_frame]) hkept
  | encFlush _ _ _ _ hu h => exact absurd (by rw [h, flushAcc_frame hu]) hkept
  | encoded _ _ _ _ _ _ _ _ hu h => exact absurd (by rw [h, appendBits_go hu]; rfl) hkept
  | decoded _ _ _ _ _ _ hu _ => exact absurd (decBitLoop_go_frame hu).err_eq hkept
  | ignored h | read _ _ h | ctrl _ _ h | decBits _ _ h | stage _ _ _ h | tblClear _ _ _ h
  | tblAdd _ _ _ _ _ _ _ _ h | tblRead _ _ _ h | encStart _ _ _ h | decStart _ _ _ h | decFinish _ _ _ _ h =>
    exact absurd (congrArg State.err h) hkept

/-- States with the same settings agree on each of their fields. -/
theorem fields_of_settings_eq {s t : State} (h : t.settings = s.settings) :
    t.mode = s.mode ∧ t.table = s.table ∧ t.ieErr = s.ieErr ∧ t.ieOut = s.ieOut ∧ t.ieIn = s.ieIn ∧
      t.decBits = s.decBits ∧ t.cw = s.cw ∧ t.tblInfo = s.tblInfo :=
  ⟨congrArg Settings.mode h, congrArg Settings.table h, congrArg (·.enables.1) h, congrArg (·.enables.2.1) h,
    congrArg (·.enables.2.2) h, congrArg Settings.decBits h, congrArg Settings.cw h, congrArg Settings.tblInfo h⟩

/-- R204: what error entry leaves of a state `s`. Only where `walks` holds may the cursor and the counters differ, by
the bits consumed before the entry. -/
structure ErrorEntry (walks : Prop) (s t : State) : Prop where
  outq : t.outq = []
  acc : t.acc = []
  settings : t.settings = s.settings
  hostSide : t.hostSide = s.hostSide
  walk : ¬ walks → t.cur = s.cur ∧ t.bitcnt = s.bitcnt ∧ t.symcnt = s.symcnt ∧ t.decRem = s.decRem

/-- R204: `raise`, at once or after a walk over bits, is an error entry. -/
theorem errorEntry_raise {walks : Prop} {s u : State} (hu : u = s ∨ walks ∧ ∃ n, WalkFrame n s u) (c : Cause)
    (w : Word) : ErrorEntry walks s (raise c w u) := by
  rcases hu with rfl | ⟨hwalks, n, hframe⟩
  · exact ⟨rfl, rfl, rfl, rfl, fun _ => ⟨rfl, rfl, rfl, rfl⟩⟩
  · exact ⟨rfl, rfl, hframe.settings_eq, hframe.hostSide_eq, fun hn => absurd hwalks hn⟩

/-- R204: an operation that ends in a new error. -/
theorem Effect.errorEntry {i : Instr} {s t : State} {c : Cause} (h : Effect i s t) (he : s.err = none)
    (hc : t.err = some c) : ErrorEntry (s.mode = .dec ∧ ∃ v, IsDataWrite i v) s t := by
  obtain ⟨w, u, rfl, -, hu⟩ := h.eq_raise he hc
  exact errorEntry_raise (hu.imp_right fun ⟨⟨hm, hi⟩, hwalk⟩ => ⟨⟨hm, w, hi⟩, hwalk⟩) c w

/-- R73, R204: a host access that ends in a new error, an illegal command word included. -/
theorem errorEntry_of_performAccess {a : Access} {s t : State} {c : Cause} (he : s.err = none)
    (h : performAccess a s = .next t) (hc : t.err = some c) : ErrorEntry (s.mode = .dec ∧ a.off = 0x10#8) s t := by
  rcases performAccess_next h with ⟨i, hd, heff⟩ | rfl | ⟨-, w, -, rfl⟩
  · have hentry := heff.errorEntry he hc
    refine { hentry with walk := fun hn => hentry.walk ?_ }
    rintro ⟨hm, v, hi⟩
    have ha : a = writeOf .dataIn v := (encode_of_decode hd).symm.trans hi.encode_eq
    exact hn ⟨hm, ha ▸ rfl⟩
  · rw [he] at hc; cases hc
  · exact errorEntry_raise (.inl rfl) _ w

/-! ### The error state (R205, R206) -/

/-- R27, R205: in the error state IN_RDY is 0. -/
theorem inRdy_of_error {s : State} (he : s.err ≠ none) : inRdy s = false := by
  simp [inRdy, he]

/-- R205, R206: in the error state an operation other than ABORT can change only what the reads and the writes of the
registers do: the enables, DEC_BITS, the staging buffer, OUTQ and the values received. -/
theorem Effect.frame_of_error {i : Instr} {s t : State} (h : Effect i s t) (he : s.err ≠ none) (hi : i ≠ .abort) :
    t = { s with ieErr := t.ieErr, ieOut := t.ieOut, ieIn := t.ieIn, decBits := t.decBits, cw := t.cw,
                 outq := t.outq, returned := t.returned } := by
  cases h with
  | ignored h | read _ _ h | ctrl _ _ h | decBits _ _ h | stage _ _ _ h => subst h; rfl
  | pop _ h => rw [h, popOutput_frame]
  | abort h => exact absurd h hi
  | raised _ _ h | tblClear h | tblAdd _ _ h | tblRead _ h | encStart h | encFlush _ h | decStart h | decFinish h
  | encoded _ _ _ h | decoded _ h | truncated _ _ h | noChild _ _ _ h => exact absurd h he

end Machine

open Machine

/-! ### The statements -/

/-- Settles O22: `irq_iff`, with the level of OUTQ for its emptiness, and after reset no source is enabled. -/
theorem interruptLevel : Obligations.InterruptLevel := by
  refine ⟨fun s => ?_, readReg_status_irq, irq_of_disabled rfl rfl rfl, fun _ => irq_of_disabled⟩
  rw [irq_iff, ← List.length_pos_iff]
  rfl

/-- Settles O44: the fields of `ErrorEntry`, for an operation and for an access, and the entry of BAD_CMD. -/
theorem errorEntryKeepsTheRest : Obligations.ErrorEntryKeepsTheRest := by
  refine ⟨fun i s t c he h hc => ?_, fun a s t c he h hc => ?_, fun s w hr he hd => ?_⟩
  · have hentry := (exec_effect h).errorEntry he hc
    obtain ⟨hmode, htable, hieErr, hieOut, hieIn, hdecBits, hcw, htblInfo⟩ := fields_of_settings_eq hentry.settings
    refine ⟨hentry.outq, hentry.acc, hmode, htable, hieErr, hieOut, hieIn, hdecBits, hcw, htblInfo, fun hno => ?_⟩
    refine hentry.walk (not_and_or.mpr (hno.imp_right fun hnot ⟨v, hi⟩ => ?_))
    obtain ⟨henc, hdec, hidle⟩ := hnot v
    exact hi.elim henc (·.elim hdec hidle)
  · have hentry := errorEntry_of_performAccess he h hc
    obtain ⟨hmode, htable, hieErr, hieOut, hieIn, hdecBits, hcw, htblInfo⟩ := fields_of_settings_eq hentry.settings
    exact ⟨hentry.outq, hentry.acc, hmode, htable, hieErr, hieOut, hieIn, hdecBits, hcw, htblInfo,
      congrArg HostSide.returned hentry.hostSide, fun hno => hentry.walk (not_and_or.mpr hno)⟩
  · exact (performAccess_illegalCommand hr hd).trans (unlessError_of_noError he _)

/-- Settles O45: an operation that ends in an error has performed the entry of one that its row lists. -/
theorem onlyTheListedErrorsAreRaised : Obligations.OnlyTheListedErrorsAreRaised := by
  intro i s t he hsel h
  cases hc : t.err with
  | none => exact .inl rfl
  | some c =>
    obtain ⟨-, -, -, hmay, -⟩ := (exec_effect h).eq_raise he hc
    exact .inr ⟨c, hmay hsel, rfl⟩

/-- Settles O47: the checks of the commands and the data writes let nothing pass in the error state, and only the word 1
is ABORT's. -/
theorem errorStateIgnoresCommandsAndData : Obligations.ErrorStateIgnoresCommandsAndData := by
  intro s he
  have hcommands : ∀ i ∈ [Instr.nop, .tblClear, .encStart, .encFlush, .decStart, .decFinish],
      decodeCmd (cmdWord i) = some i ∧ i ≠ .abort := by decide
  refine ⟨inRdy_of_error he, fun i hi => ?_, fun _ _ => ⟨unlessError_of_error he _, unlessError_of_error he _⟩,
    fun v => ⟨dataWrite_of_error he v, dataWrite_of_error he v, dataWrite_of_error he v⟩, fun w hr hw => ?_⟩
  · obtain ⟨hd, hne⟩ := hcommands i hi
    exact exec_command_of_error he hd hne
  · exact performAccess_cmd_of_error hr he (mt (decodeCmd_eq_some_iff rfl w).mp hw)

/-- Settles O48: an access in the error state is ABORT's, or leaves what `Effect.frame_of_error` lists. -/
theorem firstErrorIsKept : Obligations.FirstErrorIsKept := by
  intro e s t he h hassert hrelease
  cases e with
  | resetAssert => exact absurd rfl hassert
  | resetRelease => exact absurd rfl hrelease
  | access a =>
    rcases performAccess_next h with ⟨i, hd, heff⟩ | rfl | ⟨hnone, -⟩
    · by_cases hi : i = .abort
      · subst hi
        exact .inr ⟨0x00000001#32, congrArg HostEvent.access (encode_of_decode hd).symm, rfl⟩
      · have hframe := heff.frame_of_error he hi
        exact .inl ⟨by rw [hframe], by rw [hframe]⟩
    · exact .inl ⟨rfl, rfl⟩
    · exact absurd hnone he

end Sys2Proof

/-! PROOFS. The statements of spec/70_reset_and_hazards.md: no access is performed during reset and its release gives
the values of R46; a complete stream runs against one fixed table. -/

namespace Sys2Proof

namespace Machine

/-! ### Reset (R230) -/

/-- R230: while `rst_n` is asserted an access is refused. -/
theorem performAccess_of_rstAsserted {s : State} (h : s.rstAsserted = true) (a : Access) :
    performAccess a s = .refused .duringReset := if_pos h

/-- R230: while `rst_n` is asserted the step of a pending access is refused. -/
theorem step_of_pending_access_in_reset {s : State} {a : Access} {rest : List HostEvent}
    (hp : s.pending = .access a :: rest) (hr : s.rstAsserted = true) : step s = .refused .duringReset :=
  (step_of_pending_cons hp).trans (performAccess_of_rstAsserted (s := { s with pending := rest }) hr a)

/-! ### Inside a stream (R33, R35, R234) -/

/-- What the accesses inside a stream keep: MODE, the code table and, in a decode stream, the number of bits that are
consumed or left. -/
structure StreamKept (s t : State) : Prop where
  mode : t.mode = s.mode
  table : t.table = s.table
  bits : s.mode = .dec → t.bitcnt + t.decRem = s.bitcnt + s.decRem

theorem StreamKept.refl (s : State) : StreamKept s s := ⟨rfl, rfl, fun _ => rfl⟩

theorem StreamKept.trans {s u t : State} (hsu : StreamKept s u) (hut : StreamKept u t) : StreamKept s t where
  mode := hut.mode.trans hsu.mode
  table := hut.table.trans hsu.table
  bits := fun hm => (hut.bits (hsu.mode.trans hm)).trans (hsu.bits hm)

/-- R22: only the three commands that close a stream change MODE inside one. -/
theorem Effect.mode_eq_inside {i : Instr} {s t : State} (h : Effect i s t) (hm : s.mode ≠ .idle) (habort : i ≠ .abort)
    (hflush : i ≠ .encFlush) (hfinish : i ≠ .decFinish) : t.mode = s.mode := by
  by_contra hne
  rcases h.modeChange hne with ⟨-, hidle, -⟩ | ⟨hi, -⟩ | ⟨-, hidle, -⟩ | ⟨hi, -⟩ | ⟨hi, -⟩
  · exact hm hidle
  · exact hflush hi
  · exact hm hidle
  · exact hfinish hi
  · exact habort hi

/-- R33, R35: in DEC an operation other than ABORT only moves bits from DEC_REM to BITCNT, one for each bit that a data
write walks over. -/
theorem Effect.bits_eq {i : Instr} {s t : State} (h : Effect i s t) (hm : s.mode = .dec) (hi : i ≠ .abort) :
    t.bitcnt + t.decRem = s.bitcnt + s.decRem := by
  have hnidle : s.mode ≠ .idle := by simp [hm]
  have hnenc : s.mode ≠ .enc := by simp [hm]
  cases h with
  | abort hi' => exact absurd hi' hi
  | tblClear _ hm' | tblAdd _ _ _ hm' | encStart _ hm' | decStart _ hm' => exact absurd hm' hnidle
  | encFlush _ _ hm' | encoded _ _ _ _ hm' => exact absurd hm' hnenc
  | pop _ h => rw [h, popOutput_frame]
  | ignored h | read _ _ h | ctrl _ _ h | decBits _ _ h | stage _ _ _ h | raised _ _ _ _ _ h | tblRead _ _ _ h
  | decFinish _ _ _ _ h => subst h; rfl
  | decoded v _ _ _ _ _ hu => exact ((decBitLoop_go_frame hu).conservesBits (consumedBits_length v s).le).1
  | truncated v _ _ _ _ _ _ hu _ h =>
    exact h ▸ ((decBitLoop_go_frame hu).conservesBits (consumedBits_length v s).le).1
  | noChild _ _ _ _ _ _ hn hu h => exact h ▸ ((decBitLoop_go_frame hu).conservesBits hn.le).1

/-- R234: an access inside a stream that is none of the three commands that close one. -/
theorem performAccess_streamKept {a : Access} {s t : State} (h : performAccess a s = .next t) (hm : s.mode ≠ .idle)
    (ha : a ≠ encode .abort ∧ a ≠ encode .encFlush ∧ a ≠ encode .decFinish) : StreamKept s t := by
  rcases performAccess_next h with ⟨i, hd, heff⟩ | rfl | ⟨-, w, -, rfl⟩
  · obtain rfl := encode_of_decode hd
    obtain ⟨habort, hflush, hfinish⟩ := ha
    have habort : i ≠ .abort := mt (congrArg encode) habort
    exact {
      mode := heff.mode_eq_inside hm habort (mt (congrArg encode) hflush) (mt (congrArg encode) hfinish)
      table := not_not.mp fun hne => hm (heff.tableChange hne).1
      bits := fun hdec => heff.bits_eq hdec habort }
  · exact .refl t
  · exact ⟨rfl, rfl, fun _ => rfl⟩

/-- R242: a run of no access with no error ends where it starts. -/
theorem runClean_nil {s t : State} (h : runClean [] s = some t) : s.err = none ∧ s = t := by
  have he := runClean_start h
  rw [runClean, if_pos he] at h
  exact ⟨he, Option.some.inj h⟩

/-- R242: a run with no error and no command that closes a stream, from inside a stream. -/
theorem runClean_streamKept {as : List Access} {s t : State} (h : runClean as s = some t) (hm : s.mode ≠ .idle)
    (has : ∀ a ∈ as, a ≠ encode .abort ∧ a ≠ encode .encFlush ∧ a ≠ encode .decFinish) : StreamKept s t := by
  induction as generalizing s with
  | nil =>
    obtain ⟨-, rfl⟩ := runClean_nil h
    exact .refl _
  | cons a as ih =>
    obtain ⟨ha, has⟩ := List.forall_mem_cons.mp has
    obtain ⟨-, u, hu, h⟩ := runClean_cons h
    have hkept := performAccess_streamKept hu hm ha
    exact hkept.trans (ih h (hkept.mode ▸ hm) has)

/-! ### The ends of a stream (R110, R130) -/

/-- R78: the access of an operation that the mode selects performs it. -/
theorem exec_of_performAccess_encode {i : Instr} {s t : State} (hwf : i.wellFormed = true)
    (hsel : i.selectedIn s.mode = true) (h : performAccess (encode i) s = .next t) : exec i s = .next t := by
  rcases performAccess_cases (encode i) s with ⟨-, hp⟩ | ⟨hr, -⟩ | ⟨hr, -⟩
  · rw [hp] at h; cases h
  all_goals rwa [performAccess_of_ok hr (decode_encode hwf hsel)] at h

section Ends

variable {s t : State} (he : s.err = none) (ht : t.err = none)
include he ht

/-- R111: ENC_START that raises nothing was performed in IDLE. -/
theorem encStart_of_noError (h : exec .encStart s = .next t) : s.mode = .idle ∧ t.mode = .enc ∧ t.table = s.table := by
  rcases execEncStart_next h with ⟨hne, -⟩ | ⟨-, -, rfl⟩ | ⟨-, hm, rfl⟩
  · exact absurd he hne
  · cases ht
  · exact ⟨hm, rfl, rfl⟩

/-- R115: ENC_FLUSH that raises nothing ends in IDLE. -/
theorem encFlush_of_noError (h : exec .encFlush s = .next t) : t.mode = .idle ∧ t.table = s.table := by
  rcases execEncFlush_next h with ⟨hne, -⟩ | ⟨-, -, rfl⟩ | ⟨-, -, u, hu, rfl⟩
  · exact absurd he hne
  · cases ht
  · exact ⟨rfl, by rw [flushAcc_frame hu]⟩

/-- R131: DEC_START that raises nothing was performed in IDLE; the bits of the stream, DEC_BITS, are all left. -/
theorem decStart_of_noError (h : exec .decStart s = .next t) :
    s.mode = .idle ∧ t.mode = .dec ∧ t.table = s.table ∧ t.bitcnt + t.decRem = s.decBits := by
  rcases execDecStart_next h with ⟨hne, -⟩ | ⟨-, -, rfl⟩ | ⟨-, hm, rfl⟩
  · exact absurd he hne
  · cases ht
  · exact ⟨hm, rfl, rfl, BitVec.zero_add _⟩

/-- R136: DEC_FINISH that raises nothing ends in IDLE, and no bit was left. -/
theorem decFinish_of_noError (h : exec .decFinish s = .next t) :
    t.mode = .idle ∧ t.table = s.table ∧ t.bitcnt = s.bitcnt ∧ s.decRem = 0 ∧ t.decRem = 0 := by
  rcases execDecFinish_next h with ⟨hne, -⟩ | ⟨-, -, rfl⟩ | ⟨-, -, -, rfl⟩ | ⟨-, -, h0, rfl⟩
  · exact absurd he hne
  · cases ht
  · cases ht
  · exact ⟨rfl, rfl, rfl, h0, h0⟩

end Ends

/-- R242: a complete stream, cut after its opening and before its closing access. -/
theorem CompleteStream.cut {first last : Access} {body : List Access} {s t : State}
    (h : CompleteStream first body last s t) :
    ∃ u v, (s.err = none ∧ u.err = none ∧ performAccess first s = .next u) ∧ (u.mode ≠ .idle → StreamKept u v) ∧
      (v.err = none ∧ t.err = none ∧ performAccess last v = .next t) := by
  obtain ⟨he, u, hfirst, hrest⟩ := runClean_cons h.clean
  obtain ⟨v, hbody, hclose⟩ := runClean_append hrest
  obtain ⟨hv, t', hlast, hend⟩ := runClean_cons hclose
  obtain ⟨ht, rfl⟩ := runClean_nil hend
  exact ⟨u, v, ⟨he, runClean_start hrest, hfirst⟩, fun hm => runClean_streamKept hbody hm h.inside, hv, ht, hlast⟩

end Machine

open Machine

/-! ### The statements -/

/-- Settles O57: the opening command finds IDLE, the accesses inside keep the table and the bits that are consumed or
left, and the closing command returns to IDLE, in a decode stream with no bit left. -/
theorem completeStreamRunsOnOneTable : Obligations.CompleteStreamRunsOnOneTable := by
  intro first body last s t h
  obtain ⟨u, v, ⟨he, hu, hfirst⟩, hkept, hv, ht, hlast⟩ := h.cut
  cases h.ends with
  | enc =>
    obtain ⟨hm, hum, htable⟩ := encStart_of_noError he hu (exec_of_performAccess_encode rfl rfl hfirst)
    obtain ⟨htm, htable'⟩ := encFlush_of_noError hv ht (exec_of_performAccess_encode rfl rfl hlast)
    have hkept := hkept (by simp [hum])
    exact ⟨hm, he, htm, ht, htable'.trans (hkept.table.trans htable), fun hdec => absurd hdec (by decide)⟩
  | dec =>
    obtain ⟨hm, hum, htable, hbits⟩ := decStart_of_noError he hu (exec_of_performAccess_encode rfl rfl hfirst)
    obtain ⟨htm, htable', hbitcnt, hv0, ht0⟩ :=
      decFinish_of_noError hv ht (exec_of_performAccess_encode rfl rfl hlast)
    have hkept := hkept (by simp [hum])
    have hconsumed : t.bitcnt = s.decBits := by
      calc t.bitcnt
        _ = v.bitcnt + v.decRem := by rw [hbitcnt, hv0]; exact (BitVec.add_zero _).symm
        _ = u.bitcnt + u.decRem := hkept.bits hum
        _ = s.decBits := hbits
    exact ⟨hm, he, htm, ht, htable'.trans (hkept.table.trans htable), fun _ => ⟨hconsumed, ht0⟩⟩

/-- Settles O8: the asserting step makes `rst_n` asserted, where the next access is refused, and the releasing step
gives the fields of `State.reset`. -/
theorem resetReleaseGivesTheResetValues : Obligations.ResetReleaseGivesTheResetValues := by
  refine ⟨fun _ a hr => performAccess_of_rstAsserted hr a,
    fun _ _ hp => ⟨_, step_of_pending_cons hp, rfl, rfl, rfl, rfl⟩,
    fun _ _ _ hp => ⟨_, step_of_pending_cons hp, step_of_pending_access_in_reset rfl rfl⟩,
    fun _ _ hp => ⟨_, step_of_pending_cons hp, ?_⟩⟩
  have hcw : ∀ k : Fin 8, State.reset.cw[k] = 0 := by decide
  exact ⟨rfl, rfl, rfl, rfl, rfl, rfl, rfl, rfl, rfl, rfl, rfl, rfl, hcw, fun _ => rfl, rfl, rfl, rfl,
    irq_of_disabled rfl rfl rfl, rfl, rfl, rfl, rfl⟩

end Sys2Proof
